-- ==== Sys2Proof/Word.lean ====
section
/-! DEFINITION. The widths every other file works in: 32-bit words, bytes, and the 64-bit pattern in
which the block holds every field value (00_scope.md R21, R22). -/

namespace Sys2Proof

/-- A 32-bit word of an instruction buffer; bit 0 is the least significant (R21). -/
abbrev Word := BitVec 32

/-- One byte of a buffer (R42, R43). -/
abbrev Byte := BitVec 8

/-- A field value: a 64-bit pattern. `toNat` reads it unsigned, `toInt` as two's complement (R22). -/
abbrev U64 := BitVec 64

/-- A field id, `0 .. numberOfFields - 1` in a well-formed table (R13). -/
abbrev FieldId := Nat

/-- A model id as the instance holds it: a natural number below 2^32 (R19). -/
abbrev ModelId := BitVec 32

end Sys2Proof
end

