-- ==== Sys2Proof/Machine/Rom.lean ====
section
/-! DEFINITION. The shape of the table ROM (30_encoding.md R130 to R155): the read-only, per-model data
that says where every field lies, which values it admits, how it maps between the two formats and which
bits are reserved. It is supplied from outside (R20); nothing here says what it holds. -/

namespace Sys2Proof

/-- A position fragment (R130): one bit range inside one 32-bit word. The width, the place in the word,
the mask and the destination bit are computed from these four numbers (Machine/Operands.lean). -/
structure Fragment where
  lowBit : Nat
  highBit : Nat
  wordIndex : Nat
  shift : Int
deriving DecidableEq, Repr, Inhabited

/-- A restriction on a field's value (R145). `Range` bounds are signed 64-bit (R17). -/
inductive Restriction where
  | none
  | value (x : U64)
  | range (min max : U64)
  | mask (m : U64)
  | padding (value mask : U64)
  | fieldType (bits : Nat) (signed duplicate : Bool)
  | enum (table : List (Option U64))
deriving DecidableEq, Repr

mutual
/-- A decoding-table entry (R142). -/
inductive FieldEntry where
  | consecutive (p : Fragment) (bitSize : Nat) (rs : List Restriction)
  | fragmented (ps : List Fragment) (bitSize : Nat) (rs : List Restriction)
  | fixedValue (v : U64) (bitSize : Nat) (rs : List Restriction)
  | nextTable (dependee : FieldId) (child : FieldTable)
  | notSupported
deriving DecidableEq, Repr
/-- A child table of a decoding entry, indexed by the dependee's ENCODED value (R144). -/
inductive FieldTable where
  | nil
  | cons (e : FieldEntry) (rest : FieldTable)
deriving DecidableEq, Repr
end

/-- How a mapping fragment's source bits become native bits (R149, R150). -/
inductive MapType where
  | oneToOne
  | replicate
  | fixed
deriving DecidableEq, Repr

/-- A mapping fragment: a bit range of the compact-side value and a bit range of the native buffer
(R149). -/
structure MapFragment where
  srcLo : Nat
  srcHi : Nat
  dstLow : Nat
  dstHigh : Nat
  type : MapType
  fixedValue : U64
deriving DecidableEq, Repr

/-- The declared entry width of a compaction table (R12, R151). -/
inductive EntryWidth where
  | w32
  | w64
deriving DecidableEq, Repr

/-- A compaction table: a flat array of values, a 32-bit table's entries zero-extended (R12, R151). -/
structure CompactionTable where
  width : EntryWidth
  entries : List U64
deriving DecidableEq, Repr

mutual
/-- A compaction mapping entry (R148). -/
inductive MapEntry where
  | valueMapping (frags : List MapFragment) (sourceMask : U64)
  | indexMapping (frags : List MapFragment) (sourceMask : U64) (table : CompactionTable) (orMask : U64)
  | noMapping
  | nextTable (dependee : FieldId) (child : MapTable)
  | notSupported
deriving DecidableEq, Repr
/-- A child table of a mapping entry, indexed by the dependee's ENCODED value (R148). -/
inductive MapTable where
  | nil
  | cons (e : MapEntry) (rest : MapTable)
deriving DecidableEq, Repr
end

mutual
/-- An encoding-masks entry (R152). -/
inductive MaskEntry where
  | masks (orMask andMask : Vector Word 4)
  | nextTable (dependee : FieldId) (child : MaskTable)
  | noMasks
deriving DecidableEq, Repr
/-- A child table of a masks entry, indexed by the dependee's ENCODED value (R152). -/
inductive MaskTable where
  | nil
  | cons (e : MaskEntry) (rest : MaskTable)
deriving DecidableEq, Repr
end

/-- The tables of one supported opcode (R141). -/
structure OpcodeTables where
  nativeDecoding : List FieldEntry
  compactDecoding : Option (List FieldEntry)
  compaction : Option (List MapEntry)
  nativeMasks : List MaskEntry
  compactMasks : List MaskEntry
deriving DecidableEq, Repr

/-- A position interpreter, or pseudo-field (R153). `rs = none` means no restriction handling at all. -/
structure PositionInterpreter where
  base : FieldId
  frags : List Fragment
  bitSize : Nat
  signed : Bool
  rs : Option (List Restriction)
deriving DecidableEq, Repr

/-- An enum reinterpreter (R154). -/
structure EnumReinterpreter where
  source : FieldId
  table : List (Option U64)
deriving DecidableEq, Repr

/-- A collector (R155): real fields, each with the bit offset its raw value goes to. -/
structure Collector where
  parts : List (FieldId × Nat)
deriving DecidableEq, Repr

/-- The data of one model (R140). The fields that are signed are listed by id (`fieldSigned` of R18);
`fieldNames` is `fieldName`, indexed by id; `opcodes` lists the supported opcodes with their tables. -/
structure ModelData where
  numberOfFields : Nat
  signedFields : List FieldId
  fieldNames : List String
  opcodes : List (BitVec 7 × OpcodeTables)
  positionInterpreters : List PositionInterpreter
  enumReinterpreters : List EnumReinterpreter
  collectors : List Collector
deriving DecidableEq, Repr

/-- The ROM: the models it holds, `Models` of R19 with `ModelData` of R140 for each. -/
structure Rom where
  models : List (ModelId × ModelData)
deriving DecidableEq, Repr, Inhabited

/-- The open sense of the `Mask(m)` restriction on encode (R16, R304). -/
inductive MaskSense where
  | forbiddenBits
  | allowedBits
deriving DecidableEq, Repr, Inhabited

end Sys2Proof
end

