-- ==== Sys2Proof/Config.lean ====
section
/-! DEFINITION. What an implementation fixes: the named constants of 00_scope.md R11, the parameters no
source settles (R15, R16, R20), and the free values. An `opaque` constant has no body: nothing can be
proved of its value, so a statement that holds holds for every implementation. -/

namespace Sys2Proof.Config

/-- `NATIVE_BYTES` (R11). -/
abbrev nativeBytes : Nat := 16
/-- `NATIVE_WORDS` (R11). -/
abbrev nativeWords : Nat := 4
/-- `COMPACT_BYTES` (R11). -/
abbrev compactBytes : Nat := 8
/-- `COMPACT_WORDS` (R11). -/
abbrev compactWords : Nat := 2
/-- `WORD_BITS` (R11). -/
abbrev wordBits : Nat := 32
/-- `OPCODE_LO` (R11). -/
abbrev opcodeLo : Nat := 0
/-- `OPCODE_HI` (R11). -/
abbrev opcodeHi : Nat := 6
/-- `CMPT_CTRL_BIT` (R11). -/
abbrev cmptCtrlBit : Nat := 29
/-- `MAX_FIELD_BITS` (R11). -/
abbrev maxFieldBits : Nat := 64
/-- `MAX_ENCODE_SLOTS` (R11). -/
abbrev maxEncodeSlots : Nat := 2

/-- The parameter `ROM` of R20, with `Models` of R19: supplied from outside, its contents in no source
(93_implementation_defined.md I15). `State.reset` holds it; log entry 1. -/
opaque rom : Rom

/-- The parameter `VALIDATION_MODE` of R15 (I14); log entry 1. -/
opaque validationMode : Bool

/-- The parameter `MASK_SENSE` of R16, left OPEN by D15 (I12); log entry 1. -/
opaque maskSense : MaskSense

/-- The elements of an instance that R506 leaves unspecified after a failed `INIT` or `DECODE`. -/
structure Leftover where
  model : ModelId
  opc : BitVec 7
  nw : Vector Word nativeWords
  cw : Vector Word compactWords
  nv : Bool
  cv : Bool
  ne : Bool
  ce : Bool
deriving DecidableEq, Repr, Inhabited

/-- FREE VALUE: what those elements hold after the `n`-th failed `INIT` or `DECODE` (R506, I10: "any
value"); log entry 5. -/
opaque leftover : Nat → Leftover

/-- FREE VALUE: the 64-bit response value for a number of compact forms that 64 bits do not hold; R360
states none. Log entry 6. -/
opaque wideCount : Nat → U64

end Sys2Proof.Config
end

