-- ==== Sys2Proof/Machine/Format.lean ====
section
/-! DEFINITION. The two fixed positions of word 0 of every instruction word: the compaction-control bit
and the opcode (30_encoding.md R120 to R122). -/

namespace Sys2Proof

/-- The compaction-control bit of word 0 (R120). -/
def cmptCtrl (w0 : Word) : Bool := w0.getLsbD Config.cmptCtrlBit

/-- The opcode of word 0, at the same position in both formats (R121, R122). -/
def opcodeOf (w0 : Word) : BitVec 7 := w0.extractLsb' Config.opcodeLo 7

end Sys2Proof
end

