-- ==== Sys2Proof/Syntax.lean ====
section
/-! DEFINITION. The syntax of the block: one constructor of `Instr` for each row of
spec/opcode_table.json (24 commands and the two instruction-word formats), and the request record in
which the host hands a command to the block (30_encoding.md R170 to R172, R121, R122). -/

namespace Sys2Proof

/-- The commands of R172 and the two instruction words of R121 and R122. A command's constructor holds
what its command word holds beside the code: the 16-bit `id` of R171, for the commands that take one.
The other operands (`a0`, `a1`, the host buffers) stand in the request (R170). An instruction word's
constructor holds the whole word, since the meaning of every bit but the opcode and bit 29 comes from
the ROM (R121, R122). -/
inductive Instr where
  /-- R430 -/
  | init
  /-- R432 -/
  | decode
  /-- R434 -/
  | encodeNative
  /-- R436 -/
  | encodeCompact
  /-- R440 -/
  | setOpcode
  /-- R442 -/
  | isNativeEncoded
  /-- R443 -/
  | isCompactEncoded
  /-- R245 -/
  | getSignedField (f : BitVec 16)
  /-- R246 -/
  | getUnsignedField (f : BitVec 16)
  /-- R247 -/
  | getSigned64Field (f : BitVec 16)
  /-- R248 -/
  | getUnsigned64Field (f : BitVec 16)
  /-- R249 -/
  | getRawField (f : BitVec 16)
  /-- R262 -/
  | getFieldSize (f : BitVec 16)
  /-- R257 -/
  | setSignedField (f : BitVec 16)
  /-- R258 -/
  | setUnsignedField (f : BitVec 16)
  /-- R259 -/
  | setSigned64Field (f : BitVec 16)
  /-- R260 -/
  | setUnsigned64Field (f : BitVec 16)
  /-- R360 -/
  | countCompacted
  /-- R362 -/
  | retrieveAllCompactedFormats
  /-- R445 -/
  | queryFieldBitLocation (f : BitVec 16)
  /-- R446 -/
  | printFieldBitLocation (f : BitVec 16)
  /-- R411 -/
  | interpretPosition (p : BitVec 16)
  /-- R413 -/
  | reinterpretEnum (e : BitVec 16)
  /-- R415 -/
  | collectFields (k : BitVec 16)
  /-- R121: a native instruction word, as `DECODE` loads it (R432). -/
  | nativeInstruction (w0 w1 w2 w3 : Word)
  /-- R122: a compact instruction word, as `DECODE` loads it (R432). -/
  | compactInstruction (w0 w1 : Word)
deriving DecidableEq, Repr

/-- The two places words reach the block: the command word of a request (R171), and the instruction
word in the input buffer of a `DECODE` request (R120 to R123). -/
inductive Port where
  | command
  | instruction
deriving DecidableEq, Repr

/-- Where the words of an instruction reach the block. -/
def Instr.port : Instr → Port
  | .nativeInstruction _ _ _ _ => .instruction
  | .compactInstruction _ _ => .instruction
  | .init | .decode | .encodeNative | .encodeCompact | .setOpcode | .isNativeEncoded
  | .isCompactEncoded | .getSignedField _ | .getUnsignedField _ | .getSigned64Field _
  | .getUnsigned64Field _ | .getRawField _ | .getFieldSize _ | .setSignedField _
  | .setUnsignedField _ | .setSigned64Field _ | .setUnsigned64Field _ | .countCompacted
  | .retrieveAllCompactedFormats | .queryFieldBitLocation _ | .printFieldBitLocation _
  | .interpretPosition _ | .reinterpretEnum _ | .collectFields _ => .command

/-- The mnemonic of R172 (the assembler syntax of R173 begins with it). -/
def Instr.mnemonic : Instr → String
  | .init => "INIT"
  | .decode => "DECODE"
  | .encodeNative => "ENCODE_NATIVE"
  | .encodeCompact => "ENCODE_COMPACT"
  | .setOpcode => "SET_OPCODE"
  | .isNativeEncoded => "IS_NATIVE_ENCODED"
  | .isCompactEncoded => "IS_COMPACT_ENCODED"
  | .getSignedField _ => "GET_SIGNED_FIELD"
  | .getUnsignedField _ => "GET_UNSIGNED_FIELD"
  | .getSigned64Field _ => "GET_SIGNED64_FIELD"
  | .getUnsigned64Field _ => "GET_UNSIGNED64_FIELD"
  | .getRawField _ => "GET_RAW_FIELD"
  | .getFieldSize _ => "GET_FIELD_SIZE"
  | .setSignedField _ => "SET_SIGNED_FIELD"
  | .setUnsignedField _ => "SET_UNSIGNED_FIELD"
  | .setSigned64Field _ => "SET_SIGNED64_FIELD"
  | .setUnsigned64Field _ => "SET_UNSIGNED64_FIELD"
  | .countCompacted => "COUNT_COMPACTED"
  | .retrieveAllCompactedFormats => "RETRIEVE_ALL_COMPACTED_FORMATS"
  | .queryFieldBitLocation _ => "QUERY_FIELD_BIT_LOCATION"
  | .printFieldBitLocation _ => "PRINT_FIELD_BIT_LOCATION"
  | .interpretPosition _ => "INTERPRET_POSITION"
  | .reinterpretEnum _ => "REINTERPRET_ENUM"
  | .collectFields _ => "COLLECT_FIELDS"
  | .nativeInstruction _ _ _ _ => "NATIVE_INSTRUCTION"
  | .compactInstruction _ _ => "COMPACT_INSTRUCTION"

/-- One request of the host (R170). `inBuf = none` is the document's null pointer. -/
structure Request where
  cmd : Word := 0
  a0 : U64 := 0
  a1 : U64 := 0
  inBuf : Option (List Byte) := none
  outReq : Bool := false
  outCap : Nat := 0
deriving DecidableEq, Repr, Inhabited

end Sys2Proof
end

