-- ==== Sys2Proof/WellFormed.lean ====
section
/-! DEFINITION. When an instruction is well-formed: the compaction-control bit of an instruction word
says its format (30_encoding.md R120 to R122). A command's constructor can hold no ill-formed operand:
its id is the 16 bits of R171. -/

namespace Sys2Proof

/-- A native word has bit 29 clear, a compact word has it set (R121, R122). -/
def Instr.wf : Instr → Bool
  | .nativeInstruction w0 _ _ _ => !cmptCtrl w0
  | .compactInstruction w0 _ => cmptCtrl w0
  | .init | .decode | .encodeNative | .encodeCompact | .setOpcode | .isNativeEncoded
  | .isCompactEncoded | .getSignedField _ | .getUnsignedField _ | .getSigned64Field _
  | .getUnsigned64Field _ | .getRawField _ | .getFieldSize _ | .setSignedField _
  | .setUnsignedField _ | .setSigned64Field _ | .setUnsigned64Field _ | .countCompacted
  | .retrieveAllCompactedFormats | .queryFieldBitLocation _ | .printFieldBitLocation _
  | .interpretPosition _ | .reinterpretEnum _ | .collectFields _ => true

end Sys2Proof
end

