-- ==== Sys2Proof/Decode.lean ====
section
/-! DEFINITION. The decoder and the encoder: command words (30_encoding.md R171, R172) and instruction
words (R120 to R123). Decoding is total on any words and bytes and rejects by name. -/

namespace Sys2Proof

/-- Why words do not decode. -/
inductive DecodeError where
  /-- The code in bits 7..0 is not in the table of R172. -/
  | unassignedCode (code : BitVec 8)
  /-- Bits 15..8 of a command word are not 0 (R171). -/
  | reservedBits
  /-- Fewer words than the instruction's length asks for (R123), or not one command word. -/
  | truncated
deriving DecidableEq, Repr

/-- A command word (R171, R172): the code in bits 7..0, reserved bits 15..8, the id in bits 31..16. A
nonzero id on a command that takes none is ignored. DESIGN CHOICE: a word with nonzero reserved bits and an
unassigned code reports `reservedBits` (log entry 26). -/
def decodeCommand (w : Word) : Except DecodeError Instr :=
  if w.extractLsb' 8 8 ≠ 0 then .error .reservedBits
  else
    let id := w.extractLsb' 16 16
    match (w.extractLsb' 0 8).toNat with
    | 0x01 => .ok .init
    | 0x02 => .ok .decode
    | 0x03 => .ok .encodeNative
    | 0x04 => .ok .encodeCompact
    | 0x05 => .ok .setOpcode
    | 0x06 => .ok .isNativeEncoded
    | 0x07 => .ok .isCompactEncoded
    | 0x10 => .ok (.getSignedField id)
    | 0x11 => .ok (.getUnsignedField id)
    | 0x12 => .ok (.getSigned64Field id)
    | 0x13 => .ok (.getUnsigned64Field id)
    | 0x14 => .ok (.getRawField id)
    | 0x15 => .ok (.getFieldSize id)
    | 0x18 => .ok (.setSignedField id)
    | 0x19 => .ok (.setUnsignedField id)
    | 0x1A => .ok (.setSigned64Field id)
    | 0x1B => .ok (.setUnsigned64Field id)
    | 0x20 => .ok .countCompacted
    | 0x21 => .ok .retrieveAllCompactedFormats
    | 0x28 => .ok (.queryFieldBitLocation id)
    | 0x29 => .ok (.printFieldBitLocation id)
    | 0x30 => .ok (.interpretPosition id)
    | 0x31 => .ok (.reinterpretEnum id)
    | 0x32 => .ok (.collectFields id)
    | _ => .error (.unassignedCode (w.extractLsb' 0 8))

/-- An instruction word (R120, R123): bit 29 of word 0 gives the format, a compact word needs two words
and a native word four; words past the instruction are not read (R83). -/
def decodeInstruction : List Word → Except DecodeError Instr
  | w0 :: w1 :: rest =>
    if cmptCtrl w0 then .ok (.compactInstruction w0 w1)
    else
      match rest with
      | w2 :: w3 :: _ => .ok (.nativeInstruction w0 w1 w2 w3)
      | _ => .error .truncated
  | _ => .error .truncated

/-- Words that reach the block at a port, decoded. -/
def decodeWords : Port → List Word → Except DecodeError Instr
  | .command, [w] => decodeCommand w
  | .command, _ => .error .truncated
  | .instruction, ws => decodeInstruction ws

/-- `LE32` of R26: four bytes, the first least significant (R80). -/
def le32 (b0 b1 b2 b3 : Byte) : Word := b3 ++ b2 ++ b1 ++ b0

/-- The little-endian words of a byte buffer; bytes that fill no whole word make none (R80). -/
def leWords : List Byte → List Word
  | b0 :: b1 :: b2 :: b3 :: rest => le32 b0 b1 b2 b3 :: leWords rest
  | _ => []

/-- The four bytes of a word, the least significant first (R80). -/
def leBytes (w : Word) : List Byte :=
  [w.extractLsb' 0 8, w.extractLsb' 8 8, w.extractLsb' 16 8, w.extractLsb' 24 8]

/-- The whole instruction word a `DECODE` request carries, if it carries one: the buffer is there, it is
as long as `size` says, and `size` covers the length that bit 29 of word 0 gives (R83, R123, R432). -/
def carriedInstruction (r : Request) : Option Instr :=
  match r.inBuf with
  | none => none
  | some bytes =>
    if bytes.length < r.a1.toNat then none
    else (decodeInstruction (leWords (bytes.take r.a1.toNat))).toOption

/-- The instruction a request asks for: its command, and for a `DECODE` that carries a whole instruction
word the load of that word, which is what `DECODE` does with it (R123, R432). -/
def decodeRequest (r : Request) : Except DecodeError Instr :=
  match decodeCommand r.cmd with
  | .ok .decode =>
    match carriedInstruction r with
    | some i => .ok i
    | none => .ok .decode
  | other => other

/-- A command word (R171). -/
def commandWord (code : BitVec 8) (id : BitVec 16) : Word := id ++ (0 : BitVec 8) ++ code

/-- The words of an instruction (R171, R172; R121, R122). -/
def encode : Instr → List Word
  | .init => [commandWord 0x01 0]
  | .decode => [commandWord 0x02 0]
  | .encodeNative => [commandWord 0x03 0]
  | .encodeCompact => [commandWord 0x04 0]
  | .setOpcode => [commandWord 0x05 0]
  | .isNativeEncoded => [commandWord 0x06 0]
  | .isCompactEncoded => [commandWord 0x07 0]
  | .getSignedField f => [commandWord 0x10 f]
  | .getUnsignedField f => [commandWord 0x11 f]
  | .getSigned64Field f => [commandWord 0x12 f]
  | .getUnsigned64Field f => [commandWord 0x13 f]
  | .getRawField f => [commandWord 0x14 f]
  | .getFieldSize f => [commandWord 0x15 f]
  | .setSignedField f => [commandWord 0x18 f]
  | .setUnsignedField f => [commandWord 0x19 f]
  | .setSigned64Field f => [commandWord 0x1A f]
  | .setUnsigned64Field f => [commandWord 0x1B f]
  | .countCompacted => [commandWord 0x20 0]
  | .retrieveAllCompactedFormats => [commandWord 0x21 0]
  | .queryFieldBitLocation f => [commandWord 0x28 f]
  | .printFieldBitLocation f => [commandWord 0x29 f]
  | .interpretPosition p => [commandWord 0x30 p]
  | .reinterpretEnum e => [commandWord 0x31 e]
  | .collectFields k => [commandWord 0x32 k]
  | .nativeInstruction w0 w1 w2 w3 => [w0, w1, w2, w3]
  | .compactInstruction w0 w1 => [w0, w1]

/-- The request that asks for an instruction, its other operands taken from `r`: a command word, or a
`DECODE` whose buffer holds the instruction word and whose size is that word's length (R170, R432). -/
def requestFor (r : Request) (i : Instr) : Request :=
  match i.port with
  | .command => { r with cmd := (encode i).headD 0 }
  | .instruction =>
    let bytes := (encode i).flatMap leBytes
    { r with cmd := commandWord 0x02 0, a1 := BitVec.ofNat 64 bytes.length, inBuf := some bytes }

/-- The 32-bit words of a number whose bit 0 is the least significant bit of the first word. -/
def tableWords (w : Nat) : List Word :=
  [BitVec.ofNat 32 w, BitVec.ofNat 32 (w >>> 32), BitVec.ofNat 32 (w >>> 64), BitVec.ofNat 32 (w >>> 96)]

/-- The instruction read from the bits of an opcode-table row. A row of at most one word is read as a
command word first; a word that is no command is read as word 0 of an instruction word whose other
words are 0 (the two formats of R121 and R122 overlap the command words; log entry 3). -/
def decodeTableWord (nbits w : Nat) : Option Instr :=
  let asInstruction := (decodeInstruction (tableWords w)).toOption
  if nbits < Config.wordBits then (decodeCommand (BitVec.ofNat 32 w)).toOption
  else if nbits = Config.wordBits then
    match decodeCommand (BitVec.ofNat 32 w) with
    | .ok i => some i
    | .error _ => asInstruction
  else asInstruction

end Sys2Proof
end

