-- ==== Sys2Proof/Machine/State.lean ====
section
/-! DEFINITION. The state of one engine instance (10_state.md R40), the ROM and the parameters it reads
(00_scope.md R15, R16, R20), the host's command list and the responses (30_encoding.md R170, R50), and
the machine right after power-on (R55). -/

namespace Sys2Proof.Machine

/-- The two buffer formats `F` of R25. -/
inductive Format where
  | native
  | compact
deriving DecidableEq, Repr

/-- The result codes of R500. -/
inductive ResultCode where
  | success
  | invalidField
  | invalidValue
  | noCompactForm
  | badCompactEncoding
  | nullPointer
  | invalidModel
  | bufferTooShort
  | opcodeNotSupported
  | internalError
deriving DecidableEq, Repr

/-- Why the block refuses a command as issued: the complete list of R510. A refused command has a next
state (`refusedMark` set, nothing else changed, R38), so these are responses, not outcomes of a step. -/
inductive RefuseReason where
  /-- Item 1: a command other than `INIT` and `DECODE` while `init = 0`. -/
  | uninitialised
  /-- Item 2: a command word with an unassigned code or nonzero reserved bits. -/
  | rejected (e : DecodeError)
  /-- Item 3: `DECODE` with `size` larger than the buffer supplied. -/
  | hostBufferShort
  /-- Item 4: a 32-bit getter whose value does not fit. -/
  | doesNotFit
  /-- Item 5: a write to the opcode or compaction-control bits. -/
  | protectedBits
  /-- Item 6: a validation-mode command outside validation mode. -/
  | notInThisBuild
deriving DecidableEq, Repr

/-- The response to one command (R170). `value` is 0 and `bytes` and `ranges` are empty for every code
other than `Success` (R502). -/
inductive Response where
  | refused (why : RefuseReason)
  | done (result : ResultCode) (value : U64) (bytes : List Byte) (ranges : List (Nat × Nat))
deriving DecidableEq, Repr

/-- The record of one engine instance (R40), but for the two sticky marks (log entries 17, 21, 22). -/
structure Engine where
  /-- The instance is set up (R41). -/
  init : Bool
  /-- The model id (R45). -/
  model : ModelId
  /-- The current opcode (R44). -/
  opc : BitVec 7
  /-- The native buffer as four words (R42). -/
  nw : Vector Word Config.nativeWords
  /-- The compact buffer as two words (R43). -/
  cw : Vector Word Config.compactWords
  /-- `NativeValid` (R46). -/
  nv : Bool
  /-- `CompactValid` (R46). -/
  cv : Bool
  /-- `NativeEncoded` (R46). -/
  ne : Bool
  /-- `CompactEncoded` (R46). -/
  ce : Bool
deriving DecidableEq, Repr

/-- The whole machine as plain data. -/
structure State where
  /-- The table ROM (R20, R92). -/
  rom : Rom
  /-- `VALIDATION_MODE` (R15). -/
  validationMode : Bool
  /-- `MASK_SENSE` (R16). -/
  maskSense : MaskSense
  /-- The engine instance (R40). -/
  eng : Engine
  /-- Sticky: some command returned `InternalError` (R49). -/
  faultMark : Bool
  /-- Sticky: some command was refused (R49). -/
  refusedMark : Bool
  /-- The host's commands in the order it issues them (R50, R94; log entry 10). -/
  requests : List Request
  /-- The index of the next command; it advances by one per command (R50). -/
  index : Nat
  /-- The responses so far, one per command, the oldest first (R170). -/
  responses : List Response
  /-- MODEL'S OWN: how many `INIT` and `DECODE` commands have failed, the argument of the free value
  `Config.leftover` (R506; log entry 5). -/
  failedLoads : Nat
deriving DecidableEq, Repr

/-- No step ends in a fault: every error of the block is a result code with a next state (R500, R505),
`InternalError` and its sticky `faultMark` among them (log entry 11). -/
inductive Fault where
deriving DecidableEq, Repr

/-- A step the model has no meaning for. -/
inductive Refusal where
  /-- Raised by an arm of `exec` whose instruction has no meaning yet. Safe: the machine stops. No arm
  raises it now. -/
  | notModelled (mnemonic : String)
deriving DecidableEq, Repr

/-- The instance at power-on (R55): `init` is false, the status bits count as false; the spec gives the
model id, the opcode and the buffers no value, and the model names zero (log entry 2). -/
def Engine.powerOn : Engine where
  init := false
  model := 0
  opc := 0
  nw := #v[0, 0, 0, 0]
  cw := #v[0, 0]
  nv := false
  cv := false
  ne := false
  ce := false

/-- Power-on (R55, R550): an Uninitialised instance, both marks clear, no command issued yet; the ROM
and the parameters are those supplied from outside (R553; log entry 1). -/
def State.reset : State where
  rom := Config.rom
  validationMode := Config.validationMode
  maskSense := Config.maskSense
  eng := Engine.powerOn
  faultMark := false
  refusedMark := false
  requests := []
  index := 0
  responses := []
  failedLoads := 0

end Sys2Proof.Machine
end

