-- ==== Sys2Proof/Machine/Bits.lean ====
section
/-! DEFINITION. Bit-field helpers: masks of `n` ones, sign extension, bit ranges of a word and of a whole
buffer, and the words of a buffer (00_scope.md R21 to R25). -/

namespace Sys2Proof.Machine

/-- How a helper ends a command early: with a result code (`raise`, `fail`) or as a refusal (R27). -/
inductive Stop where
  | raise (c : ResultCode)
  | refuse (why : RefuseReason)
deriving DecidableEq, Repr

/-- A helper's outcome: a value, or the way the command ends (R27, R28). -/
abbrev Res (α : Type) := Except Stop α

/-- `raise c` (R27). -/
def fail {α : Type} (c : ResultCode) : Res α := .error (.raise c)

/-- `raise InternalError` (R39, R511). -/
def broken {α : Type} : Res α := fail .internalError

/-- `MaxValue(n)` for `n ≤ 64` (R23). -/
def maxValue (n : Nat) : U64 := BitVec.ofNat 64 (2 ^ n - 1)

/-- `zext_n(v)`, with `InternalError` for `n > 64` (R23, R24). -/
def zext (n : Nat) (v : U64) : Res U64 :=
  if n ≤ Config.maxFieldBits then .ok (v &&& maxValue n) else broken

/-- `sext_n(v)`: the bits above `n` set when bit `n - 1` is 1, left as they are otherwise;
`InternalError` for `n = 0` or `n > 64` (R24). -/
def sext (n : Nat) (v : U64) : Res U64 :=
  if 1 ≤ n ∧ n ≤ Config.maxFieldBits then
    .ok (if v.getLsbD (n - 1) then v ||| ~~~ maxValue n else v)
  else broken

/-- `width` ones, as a 32-bit word. -/
def ones (width : Nat) : Word := BitVec.ofNat 32 (2 ^ width - 1)

/-- Bits `lo .. lo + width - 1` of a word, as a value. -/
def getBits (w : Word) (lo width : Nat) : U64 := ((w >>> lo) &&& ones width).setWidth 64

/-- Bits `lo .. lo + width - 1` of a word replaced by the low bits of a value; no other bit changes. -/
def putBits (w : Word) (lo width : Nat) (x : U64) : Word :=
  (w &&& ~~~ (ones width <<< lo)) ||| ((x.setWidth 32 &&& ones width) <<< lo)

/-- Word `i` of a buffer, `W_F[i]` (R25). -/
def wordAt {n : Nat} (ws : Vector Word n) (i : Nat) : Word := ws[i]?.getD 0

/-- `W_F[i] <- x` (R25). -/
def setWord {n : Nat} (ws : Vector Word n) (i : Nat) (x : Word) : Vector Word n := ws.setIfInBounds i x

/-- Instruction-relative bit `b` of a buffer, `B_F[b]` (R21, R25, R82). -/
def bitAt {n : Nat} (ws : Vector Word n) (b : Nat) : Bool :=
  (wordAt ws (b / Config.wordBits)).getLsbD (b % Config.wordBits)

/-- Byte `k` of a buffer (R42, R43, R80). -/
def byteAt {n : Nat} (ws : Vector Word n) (k : Nat) : Byte := (wordAt ws (k / 4)).extractLsb' (8 * (k % 4)) 8

/-- The bits `lo .. hi` of a map with one bit per buffer bit. -/
def bitRange (m lo hi : Nat) : BitVec m := BitVec.ofNat m (2 ^ (hi - lo + 1) - 1) <<< lo

/-- The bytes of a buffer in order, byte 0 first (R84). -/
def bufferBytes {n : Nat} (ws : Vector Word n) : List Byte := ws.toList.flatMap leBytes

/-- Write the compaction-control bit of word 0 (R121, R122). -/
def setCmptCtrl {n : Nat} (ws : Vector Word n) (b : Bool) : Vector Word n :=
  setWord ws 0 (putBits (wordAt ws 0) Config.cmptCtrlBit 1 (if b then 1 else 0))

/-- Write the opcode bits of word 0 (R121). -/
def setOpcodeBits {n : Nat} (ws : Vector Word n) (op : BitVec 7) : Vector Word n :=
  setWord ws 0 (putBits (wordAt ws 0) Config.opcodeLo 7 (op.setWidth 64))

end Sys2Proof.Machine
end

