-- ==== Sys2Proof/Machine/Flags.lean ====
section
/-! DEFINITION. The four status bits, the block's flags (10_state.md R46, R47, R52), and every change
the rules make to them together with the buffer they describe. -/

namespace Sys2Proof.Machine

/-- A status bit as a value. -/
def flag (b : Bool) : U64 := if b then 1 else 0

/-- The status word `S`: bit 0 `NV`, bit 1 `CV`, bit 2 `NE`, bit 3 `CE` (R46). -/
def Engine.statusWord (e : Engine) : U64 :=
  flag e.nv ||| (flag e.cv <<< 1) ||| (flag e.ne <<< 2) ||| (flag e.ce <<< 3)

/-- A rebuilt native buffer: Valid, not Encoded; the compact buffer's bits as they were (R340, R344). -/
def Engine.rebuiltNative (e : Engine) (ws : Vector Word Config.nativeWords) : Engine :=
  { e with nw := ws, nv := true, ne := false }

/-- A rebuilt compact buffer: Valid, not Encoded; the native buffer's bits as they were (R350, R353). -/
def Engine.rebuiltCompact (e : Engine) (ws : Vector Word Config.compactWords) : Engine :=
  { e with cw := ws, cv := true, ce := false }

/-- The native buffer after its masks: Encoded (R395, R433). -/
def Engine.maskedNative (e : Engine) (ws : Vector Word Config.nativeWords) : Engine :=
  { e with nw := ws, ne := true }

/-- The compact buffer after its masks: Encoded (R395, R435). -/
def Engine.maskedCompact (e : Engine) (ws : Vector Word Config.compactWords) : Engine :=
  { e with cw := ws, ce := true }

/-- A field write reached the native buffer: it loses its Encoded bit and stays Valid (R253, R254). -/
def Engine.wroteNative (e : Engine) (ws : Vector Word Config.nativeWords) : Engine :=
  { e with nw := ws, ne := false }

/-- A field write reached the compact buffer: it loses its Encoded bit and stays Valid (R253, R254). -/
def Engine.wroteCompact (e : Engine) (ws : Vector Word Config.compactWords) : Engine :=
  { e with cw := ws, ce := false }

/-- The native buffer becomes stale: it loses both bits (R253, R254). -/
def Engine.staleNative (e : Engine) : Engine := { e with nv := false, ne := false }

/-- The compact buffer becomes stale: it loses both bits (R253, R254). -/
def Engine.staleCompact (e : Engine) : Engine := { e with cv := false, ce := false }

end Sys2Proof.Machine
end

