-- ==== Sys2Proof/Machine/Ops.lean ====
section
/-! DEFINITION. The operations every command shares: the operands of the current request, the tables of
the current model and opcode, and how a command ends: success, a result code (the block's exceptions,
60_exceptions.md R500 to R506), `InternalError` and a refusal. -/

namespace Sys2Proof.Machine

/-- What a successful command answers beside `Success` (R170). -/
structure Answer where
  value : U64 := 0
  bytes : List Byte := []
  ranges : List (Nat × Nat) := []
deriving DecidableEq, Repr

/-! ## The host's request -/

/-- The request the host issues next, if there is one (R50). -/
def State.pending (s : State) : Option Request := s.requests[s.index]?

/-- The operands of the command being run. A state with no pending request has operands of zero and no
buffers; `step` runs no command there (log entry 4). -/
def State.request (s : State) : Request := s.pending.getD {}

/-- One response to one request, and on to the next (R50, R170). -/
def State.respond (s : State) (r : Response) : State :=
  { s with index := s.index + 1, responses := s.responses ++ [r] }

/-! ## The ROM -/

/-- `m ∈ Models` with its data (R19, R140). -/
def findModel (rom : Rom) (m : Nat) : Option ModelData :=
  (rom.models.find? (fun entry => entry.1.toNat == m)).map (·.2)

/-- `ROM[m].opcodes[op]` (R140, R141). -/
def findTables (md : ModelData) (op : BitVec 7) : Option OpcodeTables :=
  (md.opcodes.find? (fun entry => entry.1 == op)).map (·.2)

/-- `ROM[m].opcodes[op]` for an opcode argument, which may be above 127 (R430, R440). -/
def findOpcode (md : ModelData) (op : U64) : Option OpcodeTables :=
  if op.toNat > 127 then none else findTables md (op.setWidth 7)

/-- The id of a field name, for the assembler syntax (R140, R173). -/
def fieldIdOf (md : ModelData) (name : String) : Option FieldId :=
  md.fieldNames.findIdx? (· == name)

/-- What the helpers read besides the buffers: the tables of the current model and opcode (R44, R48),
and the sense of `Mask` (R16). -/
structure Env where
  md : ModelData
  tabs : OpcodeTables
  maskSense : MaskSense
deriving DecidableEq, Repr

/-- `D0`, the depth budget every walk of a command starts with (R206). -/
def Env.budget (env : Env) : Nat := env.md.numberOfFields

/-- The tables of a model and opcode, if the ROM has them. -/
def tablesOf (s : State) (m : ModelId) (op : BitVec 7) : Option Env := do
  let md ← findModel s.rom m.toNat
  let tabs ← findTables md op
  pure { md := md, tabs := tabs, maskSense := s.maskSense }

/-- The tables the instance's `model` and `opc` select (R48). -/
def State.env (s : State) : Option Env := tablesOf s s.eng.model s.eng.opc

/-! ## How a command ends -/

/-- The number of a result code (R500). -/
def ResultCode.number : ResultCode → Nat
  | .success => 0
  | .invalidField => 1
  | .invalidValue => 2
  | .noCompactForm => 3
  | .badCompactEncoding => 4
  | .nullPointer => 5
  | .invalidModel => 6
  | .bufferTooShort => 7
  | .opcodeNotSupported => 8
  | .internalError => 9

/-- The number of the result a response carries; a refusal carries none (R170, R500). -/
def Response.resultNumber : Response → Option Nat
  | .refused _ => none
  | .done c _ _ _ => some c.number

/-- `return v`: `Success`, with the instance the command left (R27). -/
def complete (s : State) (e : Engine) (a : Answer) : State :=
  State.respond { s with eng := e } (.done .success a.value a.bytes a.ranges)

/-- `raise R`: the command ends with a result code and no answer. The instance is as before the command
but for what the command keeps on failure (R502, R505 items 2 and 3), which its caller passes as `e`. -/
def raiseCode (s : State) (e : Engine) (c : ResultCode) : State :=
  State.respond { s with eng := e } (.done c 0 [] [])

/-- `raise InternalError`: everything as before the command but the sticky `faultMark` (R39, R505 item
4, R511). -/
def raiseInternal (s : State) : State :=
  State.respond { s with faultMark := true } (.done .internalError 0 [] [])

/-- `refuse`: everything as before the command but the sticky `refusedMark` (R38, R510). -/
def refuse (s : State) (why : RefuseReason) : State :=
  State.respond { s with refusedMark := true } (.refused why)

/-- The one way a command ends, from the instance it leaves and its outcome (R27, R505). -/
def finish (s : State) (e : Engine) (out : Res Answer) : State :=
  match out with
  | .ok a => complete s e a
  | .error (.refuse why) => refuse s why
  | .error (.raise .internalError) => raiseInternal s
  | .error (.raise c) => raiseCode s e c

/-- An Uninitialised instance with the leftover values of R506, kept within what R44 and R47 say of
every state: an Encoded buffer is Valid, and a Valid buffer holds the opcode and its format's bit 29. -/
def leftoverEngine (l : Config.Leftover) : Engine where
  init := false
  model := l.model
  opc := l.opc
  nw := if l.nv then setCmptCtrl (setOpcodeBits l.nw l.opc) false else l.nw
  cw := if l.cv then setCmptCtrl (setOpcodeBits l.cw l.opc) true else l.cw
  nv := l.nv
  cv := l.cv
  ne := l.ne && l.nv
  ce := l.ce && l.cv

/-- `INIT` or `DECODE` fails with a code other than `InternalError`: `init <- 0`, and every other
element of the instance is unspecified (R506). -/
def failLoad (s : State) (c : ResultCode) : State :=
  raiseCode { s with failedLoads := s.failedLoads + 1 } (leftoverEngine (Config.leftover s.failedLoads)) c

/-- A command other than `INIT` and `DECODE`: refused while `init = 0` (R41, R510 item 1), before any check of
its own, `VALIDATION_MODE` among them (log entry 25). A state in
which the ROM has no tables for `(model, opc)`, which no run reaches, is `InternalError` (log entry 7). -/
def command (s : State) (body : Env → Engine × Res Answer) : State :=
  if s.eng.init then
    match s.env with
    | some env => finish s (body env).1 (body env).2
    | none => raiseInternal s
  else refuse s .uninitialised

end Sys2Proof.Machine
end

