-- ==== Sys2Proof/Machine/Operands.lean ====
section
/-! DEFINITION. Field values, the block's only operands (30_encoding.md R160): position fragments, the
walk of a decoding chain to a terminal entry, extraction and insertion (40_table_resolution.md). -/

namespace Sys2Proof.Machine

/-! ## Fragments (R130) -/

/-- `FragmentSize`: the number of bits of a fragment (R130, R200). -/
def fragWidth (p : Fragment) : Nat := p.highBit - p.lowBit + 1

/-- `wlo`: the fragment's lowest bit inside its word (R130). -/
def fragLow (p : Fragment) : Nat := p.lowBit - Config.wordBits * p.wordIndex

/-- `dst`: the bit of the field value where the fragment's lowest bit lands (R130). -/
def fragDst (p : Fragment) : Int := (fragLow p : Int) - p.shift

/-- `mask`: the fragment's bits at their place in the word (R130; 90_conflicts.md C2). -/
def fragMask (p : Fragment) : U64 := maxValue (fragWidth p) <<< fragLow p

/-- A fragment well-formed for a buffer of `n` words (R87, R130). -/
def fragOk (n : Nat) (p : Fragment) : Bool :=
  decide (p.lowBit ≤ p.highBit) && p.lowBit / Config.wordBits == p.wordIndex
    && p.highBit / Config.wordBits == p.wordIndex && decide (p.wordIndex < n)
    && decide (0 ≤ fragDst p) && decide (fragDst p + fragWidth p ≤ Config.maxFieldBits)

/-- The fragment covers an opcode bit or the compaction-control bit of word 0 (R256). -/
def fragProtected (p : Fragment) : Bool :=
  decide (p.lowBit ≤ Config.opcodeHi)
    || (decide (p.lowBit ≤ Config.cmptCtrlBit) && decide (Config.cmptCtrlBit ≤ p.highBit))

/-! ## The chain walk (R201 to R207) -/

/-- What a walk finds (R28): `found`, `absent` (no position here, or a read with `InvalidField`), or
`deferred` (a bit it needs is not yet written, inside a build only). -/
inductive Look (α : Type) where
  | found (x : α)
  | absent
  | deferred
deriving DecidableEq, Repr

/-- A read context `(F, U)` (R201): the decoding table of the format (`none`: the opcode has none), the
model's field count, the words of the buffer read, and the map of target bits not yet written, where a
build is in progress. -/
structure Ctx (n : Nat) where
  table : Option (List FieldEntry)
  fields : Nat
  words : Vector Word n
  unwritten : Option (BitVec (Config.wordBits * n))

/-- Where a terminal entry finds its bits: in fragments (`Consecutive` has one, `Fragmented` several) or
nowhere, its value being fixed (R142). -/
inductive Place where
  | fragments (ps : List Fragment)
  | fixed (v : U64)
deriving DecidableEq, Repr

/-- A terminal entry (R142, R143). -/
structure Terminal where
  place : Place
  bitSize : Nat
  rs : List Restriction
deriving DecidableEq, Repr

mutual
/-- `Walk` of R202. `read` is the ENCODED read of a dependee with the budget that is left. -/
def walk (read : FieldId → Res (Look U64)) : FieldEntry → Res (Look Terminal)
  | .notSupported => .ok .absent
  | .consecutive p bitSize rs => .ok (.found ⟨.fragments [p], bitSize, rs⟩)
  | .fragmented ps bitSize rs => .ok (.found ⟨.fragments ps, bitSize, rs⟩)
  | .fixedValue v bitSize rs => .ok (.found ⟨.fixed v, bitSize, rs⟩)
  | .nextTable d child =>
    match read d with
    | .error e => .error e
    | .ok .deferred => .ok .deferred
    | .ok .absent => .ok .absent
    | .ok (.found k) => walkChild read child k.toNat
/-- The walk goes on at slot `k` of a child table; a slot past its end makes the field absent (R204). -/
def walkChild (read : FieldId → Res (Look U64)) : FieldTable → Nat → Res (Look Terminal)
  | .nil, _ => .ok .absent
  | .cons e _, 0 => walk read e
  | .cons _ rest, k + 1 => walkChild read rest k
end

/-- The top-level entry of a field (R202): absent when the table is missing or the id is past it. A
table shorter than `numberOfFields` is broken ROM data (R511; log entry 8). DESIGN CHOICE: in a table longer than
`numberOfFields` an id of `numberOfFields` or more that the table reaches is found (log entry 27). -/
def topEntry {α : Type} (table : Option (List α)) (fields : Nat) (f : FieldId) : Res (Look α) :=
  match table with
  | none => .ok .absent
  | some t =>
    match t[f]? with
    | some e => .ok (.found e)
    | none => if f < fields then broken else .ok .absent

/-- `Resolve` of R202 with a given read of dependees. -/
def resolveWith {n : Nat} (c : Ctx n) (read : FieldId → Res (Look U64)) (f : FieldId) :
    Res (Look Terminal) :=
  match topEntry c.table c.fields f with
  | .error e => .error e
  | .ok (.found e) => walk read e
  | .ok .absent => .ok .absent
  | .ok .deferred => .ok .deferred

/-! ## Extraction (R208, R209) -/

/-- The bits of a word that a fragment carries, moved to their place in the value (R208). -/
def fragValue (w : Word) (p : Fragment) : U64 :=
  if 0 ≤ p.shift then (w.setWidth 64 &&& fragMask p) >>> p.shift.toNat
  else (w.setWidth 64 &&& fragMask p) <<< (-p.shift).toNat

/-- A bit of `lo .. hi` is not yet written (R208). -/
def rangeUnwritten {n : Nat} (c : Ctx n) (lo hi : Nat) : Bool :=
  match c.unwritten with
  | none => false
  | some u => u &&& bitRange (Config.wordBits * n) lo hi != 0

/-- `Frag` of R208. -/
def frag {n : Nat} (c : Ctx n) (p : Fragment) : Res (Look U64) :=
  if !fragOk n p then broken
  else if rangeUnwritten c p.lowBit p.highBit then .ok .deferred
  else .ok (.found (fragValue (wordAt c.words p.wordIndex) p))

/-- `ExtractFrags` of R209, the contributions so far in `acc`. -/
def extractFrags {n : Nat} (c : Ctx n) : List Fragment → U64 → Res (Look U64)
  | [], acc => .ok (.found acc)
  | p :: ps, acc =>
    match frag c p with
    | .error e => .error e
    | .ok (.found x) => extractFrags c ps (acc ||| x)
    | .ok .absent => .ok .absent
    | .ok .deferred => .ok .deferred

/-- The raw value of a terminal entry (R203). -/
def rawOf {n : Nat} (c : Ctx n) (t : Terminal) : Res (Look U64) :=
  match t.place with
  | .fixed v => .ok (.found v)
  | .fragments ps => extractFrags c ps 0

/-- The ENCODED read with a given read of dependees (R203). -/
def rawWith {n : Nat} (c : Ctx n) (read : FieldId → Res (Look U64)) (f : FieldId) : Res (Look U64) :=
  match resolveWith c read f with
  | .error e => .error e
  | .ok (.found t) => rawOf c t
  | .ok .absent => .ok .absent
  | .ok .deferred => .ok .deferred

/-- The read of a dependee met with budget `depth`: each nested read costs one, and none is left at 0
(R202, R206). -/
def dependee {n : Nat} (c : Ctx n) : Nat → FieldId → Res (Look U64)
  | 0, _ => broken
  | depth + 1, d => rawWith c (dependee c depth) d

/-- `Resolve` of R202. -/
def resolve {n : Nat} (c : Ctx n) (depth : Nat) (f : FieldId) : Res (Look Terminal) :=
  resolveWith c (dependee c depth) f

/-- `ReadRaw` of R203; `absent` is its `Err(InvalidField)`. -/
def readRaw {n : Nat} (c : Ctx n) (depth : Nat) (f : FieldId) : Res (Look U64) :=
  rawWith c (dependee c depth) f

/-! ## Insertion (R212, R213) -/

/-- `Insert` of R212. -/
def insertFrag {n : Nat} (ws : Vector Word n) (p : Fragment) (raw : U64) : Res (Vector Word n) :=
  if !fragOk n p then broken
  else .ok (setWord ws p.wordIndex
    (putBits (wordAt ws p.wordIndex) (fragLow p) (fragWidth p) (raw >>> (fragDst p).toNat)))

/-- `InsertFrags` of R213. -/
def insertFrags {n : Nat} (ws : Vector Word n) : List Fragment → U64 → Res (Vector Word n)
  | [], _ => .ok ws
  | p :: ps, raw =>
    match insertFrag ws p raw with
    | .error e => .error e
    | .ok ws' => insertFrags ws' ps raw

/-- The unwritten-bits map after fragments are written (R212). -/
def markFrags {m : Nat} (u : BitVec m) (ps : List Fragment) : BitVec m :=
  ps.foldl (fun u p => u &&& ~~~ bitRange m p.lowBit p.highBit) u

/-! ## The contexts of an instance -/

/-- The native buffer, fully authoritative (R201). -/
def nativeCtx (env : Env) (ws : Vector Word Config.nativeWords) : Ctx Config.nativeWords where
  table := some env.tabs.nativeDecoding
  fields := env.md.numberOfFields
  words := ws
  unwritten := none

/-- The compact buffer, fully authoritative (R201). -/
def compactCtx (env : Env) (ws : Vector Word Config.compactWords) : Ctx Config.compactWords where
  table := env.tabs.compactDecoding
  fields := env.md.numberOfFields
  words := ws
  unwritten := none

end Sys2Proof.Machine
end

