-- ==== Sys2Proof/Machine/Builds.lean ====
section
/-! DEFINITION. Decompaction and compaction (43_compaction.md R330 to R359): the walk of the mapping
tables, the worklist, and the two builders. -/

namespace Sys2Proof.Machine

/-! ## Mapping fragments (R149, R150) -/

/-- `sw`: the width of the compact-side range (R149). -/
def srcWidth (mf : MapFragment) : Nat := mf.srcHi - mf.srcLo + 1

/-- `dw`: the width of the native range (R149). -/
def dstWidth (mf : MapFragment) : Nat := mf.dstHigh - mf.dstLow + 1

/-- The compact-side range of a mapping fragment is a range of the 64-bit value (R149). -/
def srcOk (mf : MapFragment) : Bool :=
  decide (mf.srcLo ≤ mf.srcHi) && decide (mf.srcHi < Config.maxFieldBits)

/-- The native range of a mapping fragment lies inside one word of the native buffer (R149). -/
def dstOk (mf : MapFragment) : Bool :=
  decide (mf.dstLow ≤ mf.dstHigh) && decide (mf.dstHigh < Config.wordBits * Config.nativeWords)
    && mf.dstLow / Config.wordBits == mf.dstHigh / Config.wordBits

/-- A well-formed mapping fragment (R149). -/
def mapFragOk (mf : MapFragment) : Bool :=
  dstOk mf &&
    match mf.type with
    | .oneToOne => srcOk mf && dstWidth mf == srcWidth mf
    | .replicate => srcOk mf && dstWidth mf % srcWidth mf == 0
    | .fixed => decide (mf.fixedValue.toNat ≤ (maxValue (dstWidth mf)).toNat)

/-! ## The target of a build (R53, R332) -/

/-- One index-mapped field of a build: the indices that match, and the fragments of the field's compact
entry as resolved in the build (R360, R362). -/
structure Pick where
  candidates : List Nat
  frags : List Fragment
deriving DecidableEq, Repr

/-- The scratch copy a build writes: its words, the map `U` of bits not yet written (1 means not
written), and the index-mapped fields applied so far in order (R53, R361; log entry 21). -/
structure Target (n : Nat) where
  words : Vector Word n
  unwritten : BitVec (Config.wordBits * n)
  picks : List Pick
deriving DecidableEq, Repr

/-- A fresh target: zero words, no bit written (R340, R350). -/
def Target.fresh (n : Nat) : Target n where
  words := Vector.replicate n 0
  unwritten := BitVec.allOnes _
  picks := []

/-- The read context of a native target in progress (R201, R340). -/
def nativeTarget (env : Env) (t : Target Config.nativeWords) : Ctx Config.nativeWords :=
  { nativeCtx env t.words with unwritten := some t.unwritten }

/-- The read context of a compact target in progress (R201, R350). -/
def compactTarget (env : Env) (t : Target Config.compactWords) : Ctx Config.compactWords :=
  { compactCtx env t.words with unwritten := some t.unwritten }

/-! ## The walk of a mapping chain (R331) -/

/-- A terminal mapping entry (R148). -/
inductive Mapping where
  | value (frags : List MapFragment) (sourceMask : U64)
  | index (frags : List MapFragment) (sourceMask : U64) (table : CompactionTable) (orMask : U64)
deriving DecidableEq, Repr

mutual
/-- `WalkMap` of R331; `NoMapping` and `NotSupported` both map nothing. -/
def mapWalk (read : FieldId → Res (Look U64)) : MapEntry → Res (Look Mapping)
  | .notSupported => .ok .absent
  | .noMapping => .ok .absent
  | .valueMapping frags sm => .ok (.found (.value frags sm))
  | .indexMapping frags sm table om => .ok (.found (.index frags sm table om))
  | .nextTable d child =>
    match read d with
    | .error e => .error e
    | .ok .deferred => .ok .deferred
    | .ok .absent => .ok .absent
    | .ok (.found k) => mapWalkChild read child k.toNat
/-- The walk goes on at slot `k` of a child table; a slot past its end maps nothing (R331). -/
def mapWalkChild (read : FieldId → Res (Look U64)) : MapTable → Nat → Res (Look Mapping)
  | .nil, _ => .ok .absent
  | .cons e _, 0 => mapWalk read e
  | .cons _ rest, k + 1 => mapWalkChild read rest k
end

/-- `ResolveMap` of R331, the dependees read from the target context. -/
def resolveMap {n : Nat} (env : Env) (c : Ctx n) (maps : List MapEntry) (f : FieldId) : Res (Look Mapping) :=
  match topEntry (some maps) env.md.numberOfFields f with
  | .error e => .error e
  | .ok (.found e) => mapWalk (dependee c env.budget) e
  | .ok .absent => .ok .absent
  | .ok .deferred => .ok .deferred

/-! ## The worklist (R333) -/

/-- One pass over fields in list order, each write visible at once: the target after it, the fields
still deferred, and the fields applied, both in list order. -/
def sweep {σ : Type} (apply : FieldId → σ → Res (Option σ)) :
    List FieldId → σ → Res (σ × List FieldId × List FieldId)
  | [], t => .ok (t, [], [])
  | f :: fs, t =>
    match apply f t with
    | .error e => .error e
    | .ok none =>
      match sweep apply fs t with
      | .error e => .error e
      | .ok (t', deferred, done) => .ok (t', f :: deferred, done)
    | .ok (some t1) =>
      match sweep apply fs t1 with
      | .error e => .error e
      | .ok (t', deferred, done) => .ok (t', deferred, f :: done)

/-- Passes over the worklist until it is empty; a pass that applies no field is a cyclic dependency,
`BadCompactEncoding`. A pass that goes on applies at least one field, so the budget of passes, the
worklist's length, is never spent first (R333; log entry 23). -/
def passes {σ : Type} (apply : FieldId → σ → Res (Option σ)) :
    Nat → List FieldId → σ → List FieldId → Res (σ × List FieldId)
  | _, [], t, order => .ok (t, order)
  | 0, _ :: _, _, _ => fail .badCompactEncoding
  | passesLeft + 1, f :: fs, t, order =>
    match sweep apply (f :: fs) t with
    | .error e => .error e
    | .ok (t', deferred, done) =>
      if done.isEmpty then fail .badCompactEncoding
      else passes apply passesLeft deferred t' (order ++ done)

/-- `RunFixedPoint` of R333: a first sweep in ascending field id, then the passes. It answers the target
and the order in which the fields were applied. -/
def runFixedPoint {σ : Type} (fields : Nat) (apply : FieldId → σ → Res (Option σ)) (t : σ) :
    Res (σ × List FieldId) :=
  match sweep apply (List.range fields) t with
  | .error e => .error e
  | .ok (t', deferred, done) => passes apply deferred.length deferred t' done

/-- `Step` of R333 over a direction's `Apply`; a field with nothing to map is done where it is met. -/
def buildStep {n : Nat} (env : Env) (context : Target n → Ctx n) (maps : List MapEntry)
    (apply : FieldId → Mapping → Target n → Res (Option (Target n))) (f : FieldId) (t : Target n) :
    Res (Option (Target n)) :=
  match resolveMap env (context t) maps f with
  | .error e => .error e
  | .ok .deferred => .ok none
  | .ok .absent => .ok (some t)
  | .ok (.found m) => apply f m t

/-! ## Decompaction (R340 to R346) -/

/-- `NWriteRange` of R342. -/
def writeRange {n : Nat} (t : Target n) (lo hi : Nat) (x : U64) : Target n :=
  { t with
    words := setWord t.words (lo / Config.wordBits)
      (putBits (wordAt t.words (lo / Config.wordBits)) (lo % Config.wordBits) (hi - lo + 1) x)
    unwritten := t.unwritten &&& ~~~ bitRange _ lo hi }

/-- The native range of copy `j` of a replicated source (R150). -/
def copyLow (mf : MapFragment) (j : Nat) : Nat := mf.dstLow + j * srcWidth mf

/-- How many copies a replicated source has (R150). -/
def copies (mf : MapFragment) : Nat := dstWidth mf / srcWidth mf

/-- `ScatterMap` of R342. -/
def scatterMap (t : Target Config.nativeWords) (mf : MapFragment) (s : U64) : Res (Target Config.nativeWords) :=
  if !mapFragOk mf then broken
  else
    match mf.type with
    | .oneToOne => .ok (writeRange t mf.dstLow mf.dstHigh (s >>> mf.srcLo))
    | .replicate =>
      .ok ((List.range (copies mf)).foldl
        (fun t j => writeRange t (copyLow mf j) (copyLow mf j + srcWidth mf - 1) (s >>> mf.srcLo)) t)
    | .fixed => .ok (writeRange t mf.dstLow mf.dstHigh mf.fixedValue)

/-- The mapping fragments of a field scattered in list order (R341). -/
def scatterAll (t : Target Config.nativeWords) : List MapFragment → U64 → Res (Target Config.nativeWords)
  | [], _ => .ok t
  | mf :: rest, s =>
    match scatterMap t mf s with
    | .error e => .error e
    | .ok t' => scatterAll t' rest s

/-- The value a mapping scatters for the compact field's raw value (R341). -/
def mappedValue (m : Mapping) (raw : U64) : Res U64 :=
  match m with
  | .value _ sm => .ok (raw &&& sm)
  | .index _ sm table _ =>
    match table.entries[(raw &&& sm).toNat]? with
    | some x => .ok x
    | none => fail .badCompactEncoding

/-- The fragments of a mapping (R148). -/
def mapFrags : Mapping → List MapFragment
  | .value frags _ => frags
  | .index frags _ _ _ => frags

/-- `ApplyDecompact` of R341. -/
def applyDecompact (env : Env) (cw : Vector Word Config.compactWords) (f : FieldId) (m : Mapping)
    (t : Target Config.nativeWords) : Res (Option (Target Config.nativeWords)) :=
  match readRaw (compactCtx env cw) env.budget f with
  | .error e => .error e
  | .ok .absent => .ok (some t)
  | .ok .deferred => broken
  | .ok (.found r) =>
    match mappedValue m r with
    | .error e => .error e
    | .ok s =>
      match scatterAll t (mapFrags m) s with
      | .error e => .error e
      | .ok t' => .ok (some t')

/-- The fixed point of decompaction: the native target and the order of the fields (R340). -/
def decompact (env : Env) (maps : List MapEntry) (cw : Vector Word Config.compactWords) :
    Res (Target Config.nativeWords × List FieldId) :=
  runFixedPoint env.md.numberOfFields (buildStep env (nativeTarget env) maps (applyDecompact env cw))
    (Target.fresh _)

/-- `BuildNativeInsFromCompact` of R340: the rebuilt native words, bit 29 cleared. The opcode bits are what
the mappings write there, as every other bit (log entry 24). -/
def buildNative (env : Env) (cw : Vector Word Config.compactWords) : Res (Vector Word Config.nativeWords) :=
  match env.tabs.compaction, env.tabs.compactDecoding with
  | some maps, some _ =>
    match decompact env maps cw with
    | .error e => .error e
    | .ok (t, _) => .ok (setCmptCtrl t.words false)
  | _, _ => fail .badCompactEncoding

/-- A rebuild of the native buffer committed to the instance (R340). -/
def regenerateNative (env : Env) (e : Engine) : Res Engine :=
  match buildNative env e.cw with
  | .error stop => .error stop
  | .ok ws => .ok (e.rebuiltNative ws)

/-! ## Compaction (R350 to R359) -/

/-- `NRange(lo, hi)` of R351. -/
def nRange (nw : Vector Word Config.nativeWords) (lo hi : Nat) : U64 :=
  getBits (wordAt nw (lo / Config.wordBits)) (lo % Config.wordBits) (hi - lo + 1)

/-- Copy `j` of a replicated source in the native buffer (R351). -/
def copyBits (nw : Vector Word Config.nativeWords) (mf : MapFragment) (j : Nat) : U64 :=
  nRange nw (copyLow mf j) (copyLow mf j + srcWidth mf - 1)

/-- One mapping fragment gathered: the bits it contributes to the compact-side value (R351, R355; log
entry 14). -/
def gatherMap (nw : Vector Word Config.nativeWords) (mf : MapFragment) : Res U64 :=
  if !mapFragOk mf then broken
  else
    match mf.type with
    | .oneToOne => .ok (nRange nw mf.dstLow mf.dstHigh <<< mf.srcLo)
    | .replicate =>
      if (List.range (copies mf)).all (fun j => copyBits nw mf j == copyBits nw mf 0) then
        .ok (copyBits nw mf 0 <<< mf.srcLo)
      else fail .noCompactForm
    | .fixed => if nRange nw mf.dstLow mf.dstHigh == mf.fixedValue then .ok 0 else fail .noCompactForm

/-- The mapping fragments of a field gathered in list order (R351). -/
def gatherAll (nw : Vector Word Config.nativeWords) : List MapFragment → U64 → Res U64
  | [], s => .ok s
  | mf :: rest, s =>
    match gatherMap nw mf with
    | .error e => .error e
    | .ok x => gatherAll nw rest (s ||| x)

/-- The indices, from `i` on and ascending, of the entries that match the gathered value under the
or-mask (R356). -/
def matchIndices (s om : U64) : List U64 → Nat → List Nat
  | [], _ => []
  | t :: rest, i =>
    if t ||| om == s ||| om then i :: matchIndices s om rest (i + 1) else matchIndices s om rest (i + 1)

/-- A value has no bits outside a mask (R351). -/
def withinMask (v sm : U64) : Bool := v &&& ~~~ sm == 0

/-- The compact-side value of a gathered value, with every index that could stand for it (R351). Where
forms are counted (`all`), the indices are those that match and fit the source mask, and the first of
them is used (R360; none left: log entry 12); otherwise the least matching index is used and must fit. -/
def compactValue (all : Bool) (m : Mapping) (s : U64) : Res (U64 × Option (List Nat)) :=
  match m with
  | .value _ sm => if withinMask s sm then .ok (s, none) else fail .noCompactForm
  | .index _ sm table om =>
    let hits := matchIndices s om table.entries 0
    let usable := if all then hits.filter (fun i => withinMask (BitVec.ofNat 64 i) sm) else hits
    match usable with
    | [] => fail .noCompactForm
    | i :: _ =>
      if withinMask (BitVec.ofNat 64 i) sm then .ok (BitVec.ofNat 64 i, some usable) else fail .noCompactForm

/-- The picks with an index-mapped field's added (R360). -/
def addPick (picks : List Pick) (candidates : Option (List Nat)) (frags : List Fragment) : List Pick :=
  match candidates with
  | none => picks
  | some cs => picks ++ [⟨cs, frags⟩]

/-- A value written raw through the field's compact entry (R351). -/
def placeCompact (t : Target Config.compactWords) (entry : Terminal) (val : U64)
    (candidates : Option (List Nat)) : Res (Option (Target Config.compactWords)) :=
  match entry.place with
  | .fixed x =>
    if val == x then .ok (some { t with picks := addPick t.picks candidates [] }) else fail .noCompactForm
  | .fragments ps =>
    if Config.maxFieldBits < entry.bitSize then broken
    else if (maxValue entry.bitSize).toNat < val.toNat then fail .noCompactForm
    else
      match insertFrags t.words ps val with
      | .error e => .error e
      | .ok ws =>
        .ok (some ⟨ws, markFrags t.unwritten ps, addPick t.picks candidates ps⟩)

/-- `ApplyCompact` of R351. -/
def applyCompact (env : Env) (all : Bool) (nw : Vector Word Config.nativeWords) (f : FieldId) (m : Mapping)
    (t : Target Config.compactWords) : Res (Option (Target Config.compactWords)) :=
  match gatherAll nw (mapFrags m) 0 with
  | .error e => .error e
  | .ok s =>
    match compactValue all m s with
    | .error e => .error e
    | .ok (val, candidates) =>
      match resolve (compactTarget env t) env.budget f with
      | .error e => .error e
      | .ok .deferred => .ok none
      | .ok .absent => fail .noCompactForm
      | .ok (.found entry) => placeCompact t entry val candidates

/-- The fixed point of compaction: the compact target and the order of the fields (R350). -/
def compact (env : Env) (all : Bool) (maps : List MapEntry) (nw : Vector Word Config.nativeWords) :
    Res (Target Config.compactWords × List FieldId) :=
  runFixedPoint env.md.numberOfFields (buildStep env (compactTarget env) maps (applyCompact env all nw))
    (Target.fresh _)

/-- `BuildCompactInsFromNative` of R350 on scratch copies: the compact target, bit 29 set. The opcode bits are
what the mappings write there, as every other bit (log entry 24). -/
def buildCompactTarget (env : Env) (all : Bool) (nw : Vector Word Config.nativeWords) :
    Res (Target Config.compactWords) :=
  match env.tabs.compaction, env.tabs.compactDecoding with
  | some maps, some _ =>
    match compact env all maps nw with
    | .error e => .error e
    | .ok (t, _) => .ok { t with words := setCmptCtrl t.words true }
  | _, _ => fail .noCompactForm

/-- `BuildCompactInsFromNative` of R350: the rebuilt compact words. -/
def buildCompact (env : Env) (nw : Vector Word Config.nativeWords) : Res (Vector Word Config.compactWords) :=
  match buildCompactTarget env false nw with
  | .error e => .error e
  | .ok t => .ok t.words

/-- A rebuild of the compact buffer committed to the instance (R350). -/
def regenerateCompact (env : Env) (e : Engine) : Res Engine :=
  match buildCompact env e.nw with
  | .error stop => .error stop
  | .ok ws => .ok (e.rebuiltCompact ws)

end Sys2Proof.Machine
end

