-- ==== Sys2Proof/Machine/Restrictions.lean ====
section
/-! DEFINITION. The two pipelines between a raw field value and the processed one
(42_restrictions.md). -/

namespace Sys2Proof.Machine

/-- Signedness and sign width of a field under its terminal entry (R290). -/
structure SignInfo where
  signed : Bool
  width : Nat
deriving DecidableEq, Repr

/-- The first `FieldType` of a restriction list (R290). -/
def firstFieldType : List Restriction → Option SignInfo
  | [] => none
  | .fieldType bits signed _ :: _ => some ⟨signed, bits⟩
  | _ :: rs => firstFieldType rs

/-- `SignInfo` of R290: from the first `FieldType`, else the field's own signedness and `bitSize`. -/
def signInfo (fieldSigned : Bool) (bitSize : Nat) (rs : List Restriction) : SignInfo :=
  (firstFieldType rs).getD ⟨fieldSigned, bitSize⟩

/-- `fieldSigned(model, f)` (R18). -/
def fieldSigned (md : ModelData) (f : FieldId) : Bool := md.signedFields.contains f

/-- `SignInfo` of a field of the current model (R290). -/
def fieldSignInfo (env : Env) (f : FieldId) (t : Terminal) : SignInfo :=
  signInfo (fieldSigned env.md f) t.bitSize t.rs

/-! ## Decode direction (R291 to R295) -/

/-- One restriction applied on decode (R291; widths out of range: log entry 13). -/
def decodeOne (v : U64) : Restriction → Res U64
  | .none => .ok v
  | .value _ => .ok v
  | .range _ _ => .ok v
  | .mask _ => .ok v
  | .padding pv _ => .ok (v ||| pv)
  | .fieldType bits signed _ =>
    if signed && !(decide (1 ≤ bits) && decide (bits ≤ Config.maxFieldBits)) then broken
    else if signed && v.msb then .ok v else zext bits v
  | .enum table =>
    match table[v.toNat]? with
    | some (some x) => .ok x
    | some none => fail .invalidValue
    | none => fail .invalidValue

/-- The restrictions of a list applied in order (R291). -/
def decodeAll : List Restriction → U64 → Res U64
  | [], v => .ok v
  | r :: rs, v =>
    match decodeOne v r with
    | .error e => .error e
    | .ok v' => decodeAll rs v'

/-- `DecodePipeline` of R291. -/
def decodePipeline (si : SignInfo) (rs : List Restriction) (raw : U64) : Res U64 :=
  match (if si.signed then sext si.width raw else .ok raw) with
  | .error e => .error e
  | .ok v => decodeAll rs v

/-! ## Encode direction (R300 to R307) -/

/-- `Fits` of R300. -/
def fits (v : U64) (signed : Bool) (n : Nat) : Res Bool :=
  if signed then
    if 1 ≤ n ∧ n ≤ Config.maxFieldBits then
      .ok (decide (-(2 ^ (n - 1) : Int) ≤ v.toInt) && decide (v.toInt ≤ (2 ^ (n - 1) : Int) - 1))
    else broken
  else if n ≤ Config.maxFieldBits then .ok (decide (v.toNat ≤ (maxValue n).toNat))
  else broken

/-- `InRange` of R300: the value read with the field's signedness against signed bounds. -/
def inRange (v : U64) (signed : Bool) (lo hi : U64) : Bool :=
  if signed then decide (lo.toInt ≤ v.toInt) && decide (v.toInt ≤ hi.toInt)
  else decide (lo.toInt ≤ (v.toNat : Int)) && decide ((v.toNat : Int) ≤ hi.toInt)

/-- `MaskOk` of R304, in the sense the parameter gives. -/
def maskOk (sense : MaskSense) (v m : U64) : Bool :=
  match sense with
  | .forbiddenBits => v &&& m == 0
  | .allowedBits => v &&& ~~~ m == 0

/-- The value, or `InvalidValue` where a check fails. -/
def guardValue (ok : Bool) (v : U64) : Res U64 := if ok then .ok v else fail .invalidValue

/-- One restriction slot on encode (R300). -/
def encodeOne (sense : MaskSense) (signed : Bool) (v : U64) : Restriction → Res U64
  | .none => .ok v
  | .value x => guardValue (v == x) v
  | .range lo hi => guardValue (inRange v signed lo hi) v
  | .mask m => guardValue (maskOk sense v m) v
  | .padding pv pm => guardValue (v &&& pm == pv) v
  | .fieldType bits fs dup =>
    match fits v fs bits with
    | .error e => .error e
    | .ok false => fail .invalidValue
    | .ok true =>
      let t := v &&& maxValue bits
      .ok (if dup then t ||| (t <<< bits) else t)
  | .enum _ => broken

/-- Restriction slots in order, each seeing the value the one before left (R300, D16). -/
def encodeAll (sense : MaskSense) (signed : Bool) : List Restriction → U64 → Res U64
  | [], v => .ok v
  | r :: rs, v =>
    match encodeOne sense signed v r with
    | .error e => .error e
    | .ok v' => encodeAll sense signed rs v'

/-- A restriction is `None` (R145). -/
def isNone : Restriction → Bool
  | .none => true
  | .value _ | .range _ _ | .mask _ | .padding _ _ | .fieldType _ _ _ | .enum _ => false

/-- The least slot of an enum table that holds a value, from slot `k` on (R300, R306). -/
def enumIndex (v : U64) : List (Option U64) → Nat → Option Nat
  | [], _ => none
  | slot :: rest, k => if slot = some v then some k else enumIndex v rest (k + 1)

/-- `EncodePipeline` of R300: only the bound check where there are no restrictions, the reverse lookup
for a sole `Enum`, else the first two slots (R301). -/
def encodePipeline (sense : MaskSense) (si : SignInfo) (rs : List Restriction) (v : U64) : Res U64 :=
  if rs.all isNone then
    match fits v si.signed si.width with
    | .error e => .error e
    | .ok ok => guardValue ok (v &&& maxValue si.width)
  else
    match rs with
    | .enum table :: rest =>
      if rest.all isNone then
        match enumIndex v table 0 with
        | some k => .ok (BitVec.ofNat 64 k)
        | none => fail .invalidValue
      else broken
    | _ => encodeAll sense si.signed (rs.take Config.maxEncodeSlots) v

end Sys2Proof.Machine
end

