-- ==== Sys2Proof/Machine/Fields.lean ====
section
/-! DEFINITION. The field access commands (41_field_access.md): the read and the write of one field over
the two buffers, and the meanings of the six getters and the four setters. -/

namespace Sys2Proof.Machine

/-! ## Reading (R240 to R250) -/

/-- The two modes of a read (R29). -/
inductive Mode where
  | encoded
  | processed
deriving DecidableEq, Repr

/-- A raw value as the mode wants it (R242). -/
def inMode (env : Env) (f : FieldId) (t : Terminal) (mode : Mode) (raw : U64) : Res U64 :=
  match mode with
  | .encoded => .ok raw
  | .processed => decodePipeline (fieldSignInfo env f t) t.rs raw

/-- `ReadIn` of R242. A buffer outside a build has no unwritten bits, so nothing is deferred (R205; log entry
16). -/
def readIn {n : Nat} (env : Env) (c : Ctx n) (f : FieldId) (mode : Mode) : Res U64 :=
  match resolve c env.budget f with
  | .error e => .error e
  | .ok .absent => fail .invalidField
  | .ok .deferred => broken
  | .ok (.found t) =>
    match rawOf c t with
    | .error e => .error e
    | .ok .absent => fail .invalidField
    | .ok .deferred => broken
    | .ok (.found raw) => inMode env f t mode raw

/-- A read in the native buffer (R241). -/
def readNative (env : Env) (e : Engine) (f : FieldId) (mode : Mode) : Res U64 :=
  readIn env (nativeCtx env e.nw) f mode

/-- A read in the compact buffer, if it is Valid (R241). -/
def readCompact (env : Env) (e : Engine) (f : FieldId) (mode : Mode) : Res U64 :=
  if e.cv then readIn env (compactCtx env e.cw) f mode else fail .invalidField

/-- The buffers tried in turn: native if Valid, then compact if Valid (R241). -/
def readBuffers (env : Env) (e : Engine) (f : FieldId) (mode : Mode) : Res U64 :=
  if e.nv then
    match readNative env e f mode with
    | .error (.raise .invalidField) => readCompact env e f mode
    | r => r
  else readCompact env e f mode

/-- Lazy regeneration: a stale native buffer is rebuilt from a Valid compact one before a read. A build
that fails with `BadCompactEncoding` leaves it stale, and the read goes on (R241). -/
def refresh (env : Env) (e : Engine) : Res Engine :=
  if !e.nv && e.cv then
    match regenerateNative env e with
    | .ok e' => .ok e'
    | .error (.raise .internalError) => broken
    | .error _ => .ok e
  else .ok e

/-- `ReadField` of R241, with the instance it leaves: a regeneration is kept even where the read then
fails (R505 item 2). -/
def readField (env : Env) (e : Engine) (f : FieldId) (mode : Mode) : Engine × Res U64 :=
  match refresh env e with
  | .error stop => (e, .error stop)
  | .ok e' => (e', readBuffers env e' f mode)

/-- The value admitted by an accessor, or the refusal of R244. -/
def permit (ok : U64 → Bool) (r : Res U64) : Res Answer :=
  match r with
  | .error e => .error e
  | .ok v => if ok v then .ok { value := v } else .error (.refuse .doesNotFit)

/-- The value fits a signed 32-bit type (R245). -/
def fitsInt32 (v : U64) : Bool := decide (-(2 ^ 31 : Int) ≤ v.toInt) && decide (v.toInt ≤ (2 ^ 31 : Int) - 1)

/-- The value fits an unsigned 32-bit type (R246). -/
def fitsUInt32 (v : U64) : Bool := decide (v.toNat ≤ 2 ^ 32 - 1)

/-- Every value fits (R247 to R249). -/
def fitsAny (_ : U64) : Bool := true

/-- The getters: a read in a mode, and the values the accessor admits (R244). -/
def getField (mode : Mode) (ok : U64 → Bool) (f : BitVec 16) (s : State) : State :=
  command s fun env =>
    let r := readField env s.eng f.toNat mode
    (r.1, permit ok r.2)

/-- The size of a field's terminal entry in a context, 0 where it has no position there (R262). -/
def sizeIn {n : Nat} (env : Env) (c : Ctx n) (f : FieldId) : Res (Option Nat) :=
  match resolve c env.budget f with
  | .error e => .error e
  | .ok (.found t) => .ok (some t.bitSize)
  | .ok .absent => .ok none
  | .ok .deferred => broken

/-- The first Valid buffer in which the field has a position gives its size (R262). -/
def fieldSize (env : Env) (e : Engine) (f : FieldId) : Res Nat :=
  match (if e.nv then sizeIn env (nativeCtx env e.nw) f else .ok none) with
  | .error stop => .error stop
  | .ok (some n) => .ok n
  | .ok none =>
    match (if e.cv then sizeIn env (compactCtx env e.cw) f else .ok none) with
    | .error stop => .error stop
    | .ok (some n) => .ok n
    | .ok none => .ok 0

/-- `GetFieldSize` with the instance it leaves (R262; a size of 2^64 or more: log entry 15). -/
def measureField (env : Env) (e : Engine) (f : FieldId) : Engine × Res Answer :=
  match refresh env e with
  | .error stop => (e, .error stop)
  | .ok e' =>
    (e', match fieldSize env e' f with
      | .error stop => .error stop
      | .ok n => .ok { value := BitVec.ofNat 64 n })

/-! ## Writing (R252 to R261) -/

/-- `WriteIn` of R252 on a copy of the buffer's words. A malformed fragment is met before the protected
bits are looked at (R200; log entry 9). -/
def writeIn {n : Nat} (env : Env) (c : Ctx n) (f : FieldId) (v : U64) : Res (Vector Word n) :=
  match resolve c env.budget f with
  | .error e => .error e
  | .ok .absent => fail .invalidField
  | .ok .deferred => broken
  | .ok (.found t) =>
    let encoded := encodePipeline env.maskSense (fieldSignInfo env f t) t.rs v
    match t.place with
    | .fixed x =>
      match encoded with
      | .error e => .error e
      | .ok raw => if raw == x then .ok c.words else fail .invalidValue
    | .fragments ps =>
      if !ps.all (fragOk n) then broken
      else if ps.any fragProtected then .error (.refuse .protectedBits)
      else
        match encoded with
        | .error e => .error e
        | .ok raw => insertFrags c.words ps raw

/-- What became of a write in one buffer (R253). -/
inductive Attempt (n : Nat) where
  /-- The buffer is not Valid, so it is no target. -/
  | skipped
  | wrote (ws : Vector Word n)
  | noField
  | badValue
deriving DecidableEq, Repr

/-- A write tried on a buffer if it is Valid; a refusal or an `InternalError` ends the command (R253). -/
def tryWrite {n : Nat} (valid : Bool) (w : Res (Vector Word n)) : Res (Attempt n) :=
  if !valid then .ok .skipped
  else
    match w with
    | .ok ws => .ok (.wrote ws)
    | .error (.raise .invalidField) => .ok .noField
    | .error (.raise .invalidValue) => .ok .badValue
    | .error e => .error e

/-- The write succeeded in this buffer. -/
def Attempt.wrote? {n : Nat} : Attempt n → Bool
  | .wrote _ => true
  | .skipped | .noField | .badValue => false

/-- The write violated a restriction in this buffer. -/
def Attempt.bad? {n : Nat} : Attempt n → Bool
  | .badValue => true
  | .skipped | .noField | .wrote _ => false

/-- The native buffer after a write that succeeded somewhere (R253, R254). -/
def commitNative (e : Engine) : Attempt Config.nativeWords → Engine
  | .skipped => e
  | .wrote ws => e.wroteNative ws
  | .noField | .badValue => e.staleNative

/-- The compact buffer after a write that succeeded somewhere (R253, R254). -/
def commitCompact (e : Engine) : Attempt Config.compactWords → Engine
  | .skipped => e
  | .wrote ws => e.wroteCompact ws
  | .noField | .badValue => e.staleCompact

/-- Both buffers' attempts taken together: committed if one succeeded, else `InvalidValue` over
`InvalidField` (R253). -/
def settleWrite (e : Engine) (a : Attempt Config.nativeWords) (b : Attempt Config.compactWords) : Res Engine :=
  if a.wrote? || b.wrote? then .ok (commitCompact (commitNative e a) b)
  else if a.bad? || b.bad? then fail .invalidValue
  else fail .invalidField

/-- `SetField` of R253: each write against the state before the command. -/
def setField (env : Env) (e : Engine) (f : FieldId) (v : U64) : Res Engine :=
  match tryWrite e.nv (writeIn env (nativeCtx env e.nw) f v) with
  | .error stop => .error stop
  | .ok a =>
    match tryWrite e.cv (writeIn env (compactCtx env e.cw) f v) with
    | .error stop => .error stop
    | .ok b => settleWrite e a b

/-- The setters: the value from the request, written; a failed write changes nothing (R255). -/
def putField (value : U64 → U64) (f : BitVec 16) (s : State) : State :=
  command s fun env =>
    match setField env s.eng f.toNat (value s.request.a0) with
    | .error stop => (s.eng, .error stop)
    | .ok e => (e, .ok {})

/-- `sext_32(a0[31:0])` (R257). -/
def signed32 (a : U64) : U64 := (a.setWidth 32).signExtend 64

/-- `zext_32(a0[31:0])` (R258). -/
def unsigned32 (a : U64) : U64 := (a.setWidth 32).setWidth 64

/-! ## Meanings -/

/-- `GET_SIGNED_FIELD` (R245). -/
def execGetSignedField (f : BitVec 16) (s : State) : Host.Outcome State Fault Refusal :=
  .next (getField .processed fitsInt32 f s)

/-- `GET_UNSIGNED_FIELD` (R246). -/
def execGetUnsignedField (f : BitVec 16) (s : State) : Host.Outcome State Fault Refusal :=
  .next (getField .processed fitsUInt32 f s)

/-- `GET_SIGNED64_FIELD` (R247). -/
def execGetSigned64Field (f : BitVec 16) (s : State) : Host.Outcome State Fault Refusal :=
  .next (getField .processed fitsAny f s)

/-- `GET_UNSIGNED64_FIELD` (R248). -/
def execGetUnsigned64Field (f : BitVec 16) (s : State) : Host.Outcome State Fault Refusal :=
  .next (getField .processed fitsAny f s)

/-- `GET_RAW_FIELD` (R249). -/
def execGetRawField (f : BitVec 16) (s : State) : Host.Outcome State Fault Refusal :=
  .next (getField .encoded fitsAny f s)

/-- `GET_FIELD_SIZE` (R262). -/
def execGetFieldSize (f : BitVec 16) (s : State) : Host.Outcome State Fault Refusal :=
  .next (command s fun env => measureField env s.eng f.toNat)

/-- `SET_SIGNED_FIELD` (R257). -/
def execSetSignedField (f : BitVec 16) (s : State) : Host.Outcome State Fault Refusal :=
  .next (putField signed32 f s)

/-- `SET_UNSIGNED_FIELD` (R258). -/
def execSetUnsignedField (f : BitVec 16) (s : State) : Host.Outcome State Fault Refusal :=
  .next (putField unsigned32 f s)

/-- `SET_SIGNED64_FIELD` (R259). -/
def execSetSigned64Field (f : BitVec 16) (s : State) : Host.Outcome State Fault Refusal :=
  .next (putField id f s)

/-- `SET_UNSIGNED64_FIELD` (R260). -/
def execSetUnsigned64Field (f : BitVec 16) (s : State) : Host.Outcome State Fault Refusal :=
  .next (putField id f s)

end Sys2Proof.Machine
end

