-- ==== Sys2Proof/Machine/Interpreters.lean ====
section
/-! DEFINITION. The interpreters (45_interpreters.md): values derived from the raw values of real
fields. -/

namespace Sys2Proof.Machine

/-- A base field's raw value as two 32-bit words, which position-interpreter fragments address (R411,
R412). -/
def valueCtx (r : U64) : Ctx 2 where
  table := none
  fields := 0
  words := #v[r.extractLsb' 0 32, r.extractLsb' 32 32]
  unwritten := none

/-- A pseudo-field's value from its base field's raw value (R411). -/
def interpret (p : PositionInterpreter) (r : U64) : Res U64 :=
  match extractFrags (valueCtx r) p.frags 0 with
  | .error e => .error e
  | .ok .absent => broken
  | .ok .deferred => broken
  | .ok (.found v) =>
    match p.rs with
    | none => .ok v
    | some rs => decodePipeline (signInfo p.signed p.bitSize rs) rs v

/-- A raw value looked up in a reinterpreter's table (R413, R414). -/
def remap (table : List (Option U64)) (r : U64) : Res U64 :=
  match table[r.toNat]? with
  | some (some x) => .ok x
  | some none => fail .invalidValue
  | none => fail .invalidValue

/-- A raw read followed by a pure step; the instance the read leaves is kept (R411, R413). -/
def readThen (env : Env) (e : Engine) (f : FieldId) (k : U64 → Res U64) : Engine × Res Answer :=
  match readField env e f .encoded with
  | (e', .error stop) => (e', .error stop)
  | (e', .ok r) => (e', permit fitsAny (k r))

/-- The parts of a collector, OR-ed in list order; it fails as a whole when any part fails (R415). -/
def collect (env : Env) (e : Engine) : List (FieldId × Nat) → U64 → Engine × Res Answer
  | [], v => (e, .ok { value := v })
  | (g, off) :: rest, v =>
    match readField env e g .encoded with
    | (e', .error stop) => (e', .error stop)
    | (e', .ok r) => collect env e' rest (v ||| r <<< off)

/-- A descriptor of the model, or `InvalidField` for an id past its list (R411, R413, R415). -/
def descriptor {α : Type} (e : Engine) (list : List α) (id : BitVec 16) (k : α → Engine × Res Answer) :
    Engine × Res Answer :=
  match list[id.toNat]? with
  | none => (e, fail .invalidField)
  | some d => k d

/-! ## Meanings -/

/-- `INTERPRET_POSITION` (R411). -/
def execInterpretPosition (p : BitVec 16) (s : State) : Host.Outcome State Fault Refusal :=
  .next (command s fun env =>
    descriptor s.eng env.md.positionInterpreters p fun d => readThen env s.eng d.base (interpret d))

/-- `REINTERPRET_ENUM` (R413). -/
def execReinterpretEnum (e : BitVec 16) (s : State) : Host.Outcome State Fault Refusal :=
  .next (command s fun env =>
    descriptor s.eng env.md.enumReinterpreters e fun d => readThen env s.eng d.source (remap d.table))

/-- `COLLECT_FIELDS` (R415). -/
def execCollectFields (k : BitVec 16) (s : State) : Host.Outcome State Fault Refusal :=
  .next (command s fun env =>
    descriptor s.eng env.md.collectors k fun d => collect env s.eng d.parts 0)

end Sys2Proof.Machine
end

