-- ==== Sys2Proof/Machine/Masks.lean ====
section
/-! DEFINITION. The encoding masks (44_encoding_masks.md R390 to R399) and the two preparations that
make a buffer Valid and Encoded (46_instance_commands.md R433, R435). -/

namespace Sys2Proof.Machine

/-- What one top-level group of masks comes to (R390): masks to apply, nothing, or the end of the whole
pass because a dependee failed or has no child slot (R391). -/
inductive GroupOutcome where
  | apply (orMask andMask : Vector Word 4)
  | skip
  | abandon
deriving DecidableEq, Repr

mutual
/-- The chain of one group, its dependees read in ENCODED mode from the buffer being masked (R390). -/
def maskWalk (read : FieldId → Res (Look U64)) : MaskEntry → Res GroupOutcome
  | .masks o a => .ok (.apply o a)
  | .noMasks => .ok .skip
  | .nextTable d child =>
    match read d with
    | .error e => .error e
    | .ok .absent => .ok .abandon
    | .ok .deferred => .ok .abandon
    | .ok (.found k) => maskWalkChild read child k.toNat
/-- The chain goes on at slot `k` of a child table; a slot past its end ends the pass (R390). -/
def maskWalkChild (read : FieldId → Res (Look U64)) : MaskTable → Nat → Res GroupOutcome
  | .nil, _ => .ok .abandon
  | .cons e _, 0 => maskWalk read e
  | .cons _ rest, k + 1 => maskWalkChild read rest k
end

/-- One `Masks` step: OR first, then AND, on every word the format has (R390, R392, R393). -/
def maskWords {n : Nat} (ws : Vector Word n) (o a : Vector Word 4) : Vector Word n :=
  (List.range n).foldl (fun w i => setWord w i ((wordAt w i ||| wordAt o i) &&& wordAt a i)) ws

/-- `ApplyMasks` of R390 on the words of a context: the groups in list order, each read after the ones
before it are applied, up to the first `NoMasks` of the list. A mask may touch any bit, the opcode bits and
bit 29 among them (log entry 24). -/
def applyMasks {n : Nat} (c : Ctx n) : List MaskEntry → Vector Word n → Res (Vector Word n)
  | [], ws => .ok ws
  | .noMasks :: _, ws => .ok ws
  | g :: gs, ws =>
    match maskWalk (readRaw { c with words := ws } c.fields) g with
    | .error e => .error e
    | .ok (.apply o a) => applyMasks c gs (maskWords ws o a)
    | .ok .skip => applyMasks c gs ws
    | .ok .abandon => .ok ws

/-- `ApplyNativeEncodingMasks` (R390). -/
def applyNativeMasks (env : Env) (nw : Vector Word Config.nativeWords) : Res (Vector Word Config.nativeWords) :=
  applyMasks (nativeCtx env nw) env.tabs.nativeMasks nw

/-- `ApplyCompactEncodingMasks` (R390). -/
def applyCompactMasks (env : Env) (cw : Vector Word Config.compactWords) :
    Res (Vector Word Config.compactWords) :=
  applyMasks (compactCtx env cw) env.tabs.compactMasks cw

/-- The native buffer masked once if it is not Encoded (R395, R433). -/
def encodeNativeBuffer (env : Env) (e : Engine) : Res Engine :=
  if e.ne then .ok e
  else
    match applyNativeMasks env e.nw with
    | .error stop => .error stop
    | .ok ws => .ok (e.maskedNative ws)

/-- The compact buffer masked once if it is not Encoded (R395, R435). -/
def encodeCompactBuffer (env : Env) (e : Engine) : Res Engine :=
  if e.ce then .ok e
  else
    match applyCompactMasks env e.cw with
    | .error stop => .error stop
    | .ok ws => .ok (e.maskedCompact ws)

/-- `PrepareNative` of R433. -/
def prepareNative (env : Env) (e : Engine) : Res Engine :=
  match (if e.nv then .ok e else regenerateNative env e) with
  | .error stop => .error stop
  | .ok e' => encodeNativeBuffer env e'

/-- The compact part of `PrepareCompact`: masks on a Valid compact buffer, answered with the instance
to keep if they fail (R435). -/
def finishCompact (env : Env) (e : Engine) : Engine × Res Unit :=
  match encodeCompactBuffer env e with
  | .error stop => (e, .error stop)
  | .ok e' => (e', .ok ())

/-- `PrepareCompact` of R435, with the instance it leaves: when compaction fails, what `PrepareNative`
did is kept (R505 item 3). -/
def prepareCompact (env : Env) (e : Engine) : Engine × Res Unit :=
  if e.cv then finishCompact env e
  else
    match prepareNative env e with
    | .error stop => (e, .error stop)
    | .ok e1 =>
      match regenerateCompact env e1 with
      | .error stop => (e1, .error stop)
      | .ok e2 => finishCompact env e2

end Sys2Proof.Machine
end

