-- ==== Sys2Proof/Machine/Instance.lean ====
section
/-! DEFINITION. The instance commands (46_instance_commands.md): creating, loading, encoding,
re-opcoding and inspecting an instance, and the load of the two instruction words (R121, R122). -/

namespace Sys2Proof.Machine

/-! ## Creating and loading (R430, R432) -/

/-- The instance after `INIT` (R56, R430). -/
def freshEngine (m : ModelId) (op : BitVec 7) : Engine where
  init := true
  model := m
  opc := op
  nw := #v[op.setWidth 32, 0, 0, 0]
  cw := #v[0, 0]
  nv := true
  cv := false
  ne := false
  ce := false

/-- `INIT modelId, opcode` (R430). -/
def initInstance (s : State) : State :=
  match findModel s.rom s.request.a0.toNat with
  | none => failLoad s .invalidModel
  | some md =>
    match findOpcode md s.request.a1 with
    | none => failLoad s .opcodeNotSupported
    | some _ => complete s (freshEngine (s.request.a0.setWidth 32) (s.request.a1.setWidth 7)) {}

/-- The instance after a native word is loaded (R432). -/
def nativeEngine (m : ModelId) (w0 w1 w2 w3 : Word) : Engine where
  init := true
  model := m
  opc := opcodeOf w0
  nw := #v[w0, w1, w2, w3]
  cw := #v[0, 0]
  nv := true
  cv := false
  ne := false
  ce := false

/-- The instance after a compact word is loaded and decompacted to `nw` (R432, R340). -/
def compactEngine (m : ModelId) (w0 w1 : Word) (nw : Vector Word Config.nativeWords) : Engine where
  init := true
  model := m
  opc := opcodeOf w0
  nw := nw
  cw := #v[w0, w1]
  nv := true
  cv := true
  ne := false
  ce := false

/-- The load of an instruction word under the model of the current request (R432): the model must
exist, then the opcode; `load` gives the instance, or the code the load ends with. -/
def loadWord (s : State) (w0 : Word) (load : Env → ModelId → Res Engine) : State :=
  match findModel s.rom s.request.a0.toNat with
  | none => failLoad s .invalidModel
  | some md =>
    match findTables md (opcodeOf w0) with
    | none => failLoad s .opcodeNotSupported
    | some tabs =>
      match load { md := md, tabs := tabs, maskSense := s.maskSense } (s.request.a0.setWidth 32) with
      | .ok e => complete s e {}
      | .error (.raise .internalError) => raiseInternal s
      | .error (.raise c) => failLoad s c
      | .error (.refuse why) => refuse s why

/-- The native branch of R432. -/
def loadNative (w0 w1 w2 w3 : Word) (s : State) : State :=
  loadWord s w0 fun _ m => .ok (nativeEngine m w0 w1 w2 w3)

/-- The compact branch of R432. -/
def loadCompact (w0 w1 : Word) (s : State) : State :=
  loadWord s w0 fun env m =>
    match buildNative env #v[w0, w1] with
    | .error stop => .error stop
    | .ok nw => .ok (compactEngine m w0 w1 nw)

/-- A decoded instruction word loaded; anything else is an input too short for a native word (R432). -/
def loadDecoded (s : State) : Except DecodeError Instr → State
  | .ok (.compactInstruction w0 w1) => loadCompact w0 w1 s
  | .ok (.nativeInstruction w0 w1 w2 w3) => loadNative w0 w1 w2 w3 s
  | _ => failLoad s .bufferTooShort

/-- `DECODE modelId, size, bytes`, its checks in the order of R432 and R504. -/
def decodeInstance (s : State) : State :=
  match s.request.inBuf with
  | none => failLoad s .nullPointer
  | some bytes =>
    if bytes.length < s.request.a1.toNat then refuse s .hostBufferShort
    else
      match findModel s.rom s.request.a0.toNat with
      | none => failLoad s .invalidModel
      | some _ =>
        if s.request.a1.toNat < Config.compactBytes then failLoad s .bufferTooShort
        else loadDecoded s (decodeInstruction (leWords (bytes.take s.request.a1.toNat)))

/-! ## Encoding (R433 to R438) -/

/-- The bytes of a buffer, if the request has an output buffer (R84, R434, R436). -/
def copyOut {n : Nat} (s : State) (ws : Vector Word n) : Answer :=
  { bytes := if s.request.outReq then bufferBytes ws else [] }

/-- `ENCODE_NATIVE` (R434). -/
def encodeNative (s : State) (env : Env) : Engine × Res Answer :=
  match prepareNative env s.eng with
  | .error stop => (s.eng, .error stop)
  | .ok e => (e, .ok (copyOut s e.nw))

/-- `ENCODE_COMPACT` (R436). -/
def encodeCompact (s : State) (env : Env) : Engine × Res Answer :=
  match prepareCompact env s.eng with
  | (e, .error stop) => (e, .error stop)
  | (e, .ok _) => (e, .ok (copyOut s e.cw))

/-! ## Changing the opcode (R440) -/

/-- The instance under a new opcode: the opcode bits of the native buffer written, every other native
bit kept, the compact buffer stale, nothing Encoded (R440). -/
def reopcoded (e : Engine) (op : BitVec 7) : Engine :=
  { e with nw := setOpcodeBits e.nw op, opc := op, ne := false, cv := false, ce := false }

/-- `SET_OPCODE` (R440); a stale native buffer is rebuilt under the old opcode's tables. -/
def setOpcode (s : State) (env : Env) : Engine × Res Answer :=
  match findOpcode env.md s.request.a0 with
  | none => (s.eng, fail .opcodeNotSupported)
  | some _ =>
    match (if s.eng.nv then .ok s.eng else regenerateNative env s.eng) with
    | .error stop => (s.eng, .error stop)
    | .ok e => (reopcoded e (s.request.a0.setWidth 7), .ok {})

/-! ## Status (R442, R443) -/

/-- A status query: the queried bit with `S` in bits 11..8; refused while `init = 0` (R41, R442). -/
def statusQuery (s : State) (bit : Bool) : State :=
  if s.eng.init then complete s s.eng { value := flag bit ||| (s.eng.statusWord <<< 8) }
  else refuse s .uninitialised

/-! ## Bit locations (R445, R446) -/

/-- A bit range put into a list sorted by its low bit, after those with the same low bit (R445). -/
def insertRange (r : Nat × Nat) : List (Nat × Nat) → List (Nat × Nat)
  | [] => [r]
  | q :: rest => if r.1 < q.1 then r :: q :: rest else q :: insertRange r rest

/-- Bit ranges sorted by their low bit (R445). -/
def sortRanges (rs : List (Nat × Nat)) : List (Nat × Nat) :=
  rs.foldl (fun sorted r => insertRange r sorted) []

/-- `coalesce` of R445 on sorted ranges, the range being grown in `cur`. -/
def coalesceFrom (cur : Nat × Nat) : List (Nat × Nat) → List (Nat × Nat)
  | [] => [cur]
  | r :: rest =>
    if r.1 ≤ cur.2 + 1 then coalesceFrom (cur.1, max cur.2 r.2) rest else cur :: coalesceFrom r rest

/-- `coalesce` of R445. -/
def coalesce : List (Nat × Nat) → List (Nat × Nat)
  | [] => []
  | r :: rest => coalesceFrom r rest

/-- The native bit ranges of a terminal entry; a malformed fragment is broken ROM data (R200, R445; log
entry 9). -/
def rangesOf (t : Terminal) : Res (List (Nat × Nat)) :=
  match t.place with
  | .fixed _ => .ok []
  | .fragments ps =>
    if ps.all (fragOk Config.nativeWords) then
      .ok (coalesce (sortRanges (ps.map fun p => (p.lowBit, p.highBit))))
    else broken

/-- The native bit ranges of a field (R445). -/
def locateIn (env : Env) (e : Engine) (f : FieldId) : Res Answer :=
  if e.nv then
    match resolve (nativeCtx env e.nw) env.budget f with
    | .error stop => .error stop
    | .ok .absent => fail .invalidField
    | .ok .deferred => broken
    | .ok (.found t) =>
      match rangesOf t with
      | .error stop => .error stop
      | .ok ranges => .ok { ranges := ranges }
  else fail .invalidField

/-- `QueryFieldBitLocation` with the instance it leaves (R445). -/
def locateField (env : Env) (e : Engine) (f : FieldId) : Engine × Res Answer :=
  match refresh env e with
  | .error stop => (e, .error stop)
  | .ok e' => (e', locateIn env e' f)

/-! ## Meanings -/

/-- `INIT` (R430). -/
def execInit (s : State) : Host.Outcome State Fault Refusal := .next (initInstance s)

/-- `DECODE` (R432). -/
def execDecode (s : State) : Host.Outcome State Fault Refusal := .next (decodeInstance s)

/-- A native instruction word, as `DECODE` loads it (R121, R432). -/
def execNativeInstruction (w0 w1 w2 w3 : Word) (s : State) : Host.Outcome State Fault Refusal :=
  .next (loadNative w0 w1 w2 w3 s)

/-- A compact instruction word, as `DECODE` loads it (R122, R432). -/
def execCompactInstruction (w0 w1 : Word) (s : State) : Host.Outcome State Fault Refusal :=
  .next (loadCompact w0 w1 s)

/-- `ENCODE_NATIVE` (R434). -/
def execEncodeNative (s : State) : Host.Outcome State Fault Refusal := .next (command s (encodeNative s))

/-- `ENCODE_COMPACT` (R436). -/
def execEncodeCompact (s : State) : Host.Outcome State Fault Refusal := .next (command s (encodeCompact s))

/-- `SET_OPCODE` (R440). -/
def execSetOpcode (s : State) : Host.Outcome State Fault Refusal := .next (command s (setOpcode s))

/-- `IS_NATIVE_ENCODED` (R442). -/
def execIsNativeEncoded (s : State) : Host.Outcome State Fault Refusal := .next (statusQuery s s.eng.ne)

/-- `IS_COMPACT_ENCODED` (R443). -/
def execIsCompactEncoded (s : State) : Host.Outcome State Fault Refusal := .next (statusQuery s s.eng.ce)

/-- `QUERY_FIELD_BIT_LOCATION` (R445). -/
def execQueryFieldBitLocation (f : BitVec 16) (s : State) : Host.Outcome State Fault Refusal :=
  .next (command s fun env => locateField env s.eng f.toNat)

/-- `PRINT_FIELD_BIT_LOCATION`: the same ranges and no text (R446; log entry 19). -/
def execPrintFieldBitLocation (f : BitVec 16) (s : State) : Host.Outcome State Fault Refusal :=
  .next (command s fun env => locateField env s.eng f.toNat)

end Sys2Proof.Machine
end

