-- ==== Sys2Proof/Machine/Validation.lean ====
section
/-! DEFINITION. The validation-mode commands (43_compaction.md R360 to R362). -/

namespace Sys2Proof.Machine

/-- The number of forms: the product of the candidate counts, 1 with no index-mapped field (R360). -/
def countForms (picks : List Pick) : Nat := picks.foldr (fun p n => p.candidates.length * n) 1

/-- The combinations of one index per index-mapped field, the last field changing fastest (R361). -/
def combinations : List Pick → List (List Nat)
  | [] => [[]]
  | p :: ps => p.candidates.flatMap fun i => (combinations ps).map (i :: ·)

/-- The chosen indices inserted into the scratch compact words (R362). -/
def insertChoices (ws : Vector Word Config.compactWords) :
    List Pick → List Nat → Res (Vector Word Config.compactWords)
  | p :: ps, i :: is =>
    match insertFrags ws p.frags (BitVec.ofNat 64 i) with
    | .error e => .error e
    | .ok ws' => insertChoices ws' ps is
  | _, _ => .ok ws

/-- The bytes of one combination's compact form, its masks applied to the copy (R362, R398). -/
def formBytes (env : Env) (t : Target Config.compactWords) (choice : List Nat) : Res (List Byte) :=
  match insertChoices t.words t.picks choice with
  | .error e => .error e
  | .ok ws =>
    match applyCompactMasks env ws with
    | .error e => .error e
    | .ok masked => .ok (bufferBytes masked)

/-- The bytes of several combinations, one form after another (R85, R362). -/
def allForms (env : Env) (t : Target Config.compactWords) : List (List Nat) → Res (List Byte)
  | [] => .ok []
  | choice :: rest =>
    match formBytes env t choice with
    | .error e => .error e
    | .ok bytes =>
      match allForms env t rest with
      | .error e => .error e
      | .ok more => .ok (bytes ++ more)

/-- The shared shape of the two commands: the native buffer prepared, which is kept if a later step
fails (R505 item 3), then the scratch build, then the answer made of it (R360). Outside validation mode the command is refused;
`command` has refused it before on an Uninitialised instance (log entry 25). -/
def withForms (s : State) (env : Env) (answer : Target Config.compactWords → Res Answer) :
    Engine × Res Answer :=
  if s.validationMode then
    match prepareNative env s.eng with
    | .error stop => (s.eng, .error stop)
    | .ok e =>
      match buildCompactTarget env true e.nw with
      | .error stop => (e, .error stop)
      | .ok t => (e, answer t)
  else (s.eng, .error (.refuse .notInThisBuild))

/-- The number of forms as a response value (R360), and, for a count of 2^64 or more, which no rule
says how a 64-bit response carries, a free value (log entry 6). -/
def countValue (n : Nat) : U64 := if n < 2 ^ 64 then BitVec.ofNat 64 n else Config.wideCount n

/-- The answer of `COUNT_COMPACTED` (R360). -/
def countAnswer (t : Target Config.compactWords) : Res Answer :=
  .ok { value := countValue (countForms t.picks) }

/-- The forms as bytes, if the output buffer holds them all (R362). -/
def formsAnswer (env : Env) (outCap : Nat) (t : Target Config.compactWords) : Res Answer :=
  if outCap < Config.compactBytes * countForms t.picks then fail .bufferTooShort
  else
    match allForms env t (combinations t.picks) with
    | .error e => .error e
    | .ok bytes => .ok { value := countValue (countForms t.picks), bytes := bytes }

/-! ## Meanings -/

/-- `COUNT_COMPACTED` (R360). -/
def execCountCompacted (s : State) : Host.Outcome State Fault Refusal :=
  .next (command s fun env => withForms s env countAnswer)

/-- `RETRIEVE_ALL_COMPACTED_FORMATS` (R362). -/
def execRetrieveAllCompactedFormats (s : State) : Host.Outcome State Fault Refusal :=
  .next (command s fun env => withForms s env (formsAnswer env s.request.outCap))

end Sys2Proof.Machine
end

