-- ==== Sys2Proof/Machine/Dispatch.lean ====
section
/-! DEFINITION. One arm per instruction: the meaning of each. -/

namespace Sys2Proof.Machine

def exec (i : Instr) (s : State) : Host.Outcome State Fault Refusal :=
  match i with
  | .init => Sys2Proof.Machine.execInit s
  | .decode => Sys2Proof.Machine.execDecode s
  | .encodeNative => Sys2Proof.Machine.execEncodeNative s
  | .encodeCompact => Sys2Proof.Machine.execEncodeCompact s
  | .setOpcode => Sys2Proof.Machine.execSetOpcode s
  | .isNativeEncoded => Sys2Proof.Machine.execIsNativeEncoded s
  | .isCompactEncoded => Sys2Proof.Machine.execIsCompactEncoded s
  | .getSignedField f => Sys2Proof.Machine.execGetSignedField f s
  | .getUnsignedField f => Sys2Proof.Machine.execGetUnsignedField f s
  | .getSigned64Field f => Sys2Proof.Machine.execGetSigned64Field f s
  | .getUnsigned64Field f => Sys2Proof.Machine.execGetUnsigned64Field f s
  | .getRawField f => Sys2Proof.Machine.execGetRawField f s
  | .getFieldSize f => Sys2Proof.Machine.execGetFieldSize f s
  | .setSignedField f => Sys2Proof.Machine.execSetSignedField f s
  | .setUnsignedField f => Sys2Proof.Machine.execSetUnsignedField f s
  | .setSigned64Field f => Sys2Proof.Machine.execSetSigned64Field f s
  | .setUnsigned64Field f => Sys2Proof.Machine.execSetUnsigned64Field f s
  | .countCompacted => Sys2Proof.Machine.execCountCompacted s
  | .retrieveAllCompactedFormats => Sys2Proof.Machine.execRetrieveAllCompactedFormats s
  | .queryFieldBitLocation f => Sys2Proof.Machine.execQueryFieldBitLocation f s
  | .printFieldBitLocation f => Sys2Proof.Machine.execPrintFieldBitLocation f s
  | .interpretPosition p => Sys2Proof.Machine.execInterpretPosition p s
  | .reinterpretEnum e => Sys2Proof.Machine.execReinterpretEnum e s
  | .collectFields k => Sys2Proof.Machine.execCollectFields k s
  | .nativeInstruction w0 w1 w2 w3 => Sys2Proof.Machine.execNativeInstruction w0 w1 w2 w3 s
  | .compactInstruction w0 w1 => Sys2Proof.Machine.execCompactInstruction w0 w1 s

end Sys2Proof.Machine
end

