-- ==== Sys2Proof/Machine/Fetch.lean ====
section
/-! DEFINITION. Where commands come from (10_state.md R50, 30_encoding.md R170): what the pending request
asks for, and a request placed where the next step fetches. -/

namespace Sys2Proof.Machine

/-- The instruction the pending request asks for, if there is a request. -/
def State.fetch (s : State) : Option (Except DecodeError Instr) := s.pending.map decodeRequest

/-- A list with `x` at place `i`, filled up with `x` where it is too short to have that place. -/
def placeAt {α : Type} (l : List α) (i : Nat) (x : α) : List α :=
  l.take i ++ List.replicate (i - l.length) x ++ x :: l.drop (i + 1)

/-- The machine with a request where the next step takes it. -/
def State.withRequest (s : State) (r : Request) : State := { s with requests := placeAt s.requests s.index r }

/-- The pending request with an opcode-table row's bits in its command word, or, for bits that are an
instruction word, a `DECODE` request whose buffer holds that word (log entry 3). -/
def tableRequest (r : Request) (nbits w : Nat) : Request :=
  match decodeTableWord nbits w with
  | some i =>
    match i.port with
    | .command => { r with cmd := BitVec.ofNat 32 w }
    | .instruction => requestFor r i
  | none => { r with cmd := BitVec.ofNat 32 w }

/-- The machine about to fetch an opcode-table row's bits. -/
def State.placeTableWord (s : State) (nbits w : Nat) : State :=
  s.withRequest (tableRequest s.request nbits w)

end Sys2Proof.Machine
end

