-- ==== Sys2Proof/Machine/Step.lean ====
section
/-! DEFINITION. One step: one command, run to completion (46_instance_commands.md R447). -/

namespace Sys2Proof.Machine

/-- One command as one atomic step (R4, R89, R447). With no request pending nothing happens (R533, R550);
a command word that does not decode is refused (R171, R510 item 2). DESIGN CHOICE: such a word is refused as
`rejected` whatever other item of R510 fits too, on an Uninitialised instance among them (log entry 26). -/
def step (s : State) : Host.Outcome State Fault Refusal :=
  match s.fetch with
  | none => .next s
  | some (.error e) => .next (refuse s (.rejected e))
  | some (.ok i) => exec i s

/-- The machine with an opcode-table row's bits stored where the next step fetches. -/
def State.withFetchWord (s : State) (nbits w : Nat) : State := s.placeTableWord nbits w

end Sys2Proof.Machine
end

