-- ==== Sys2Proof/Machine/RomCheck.lean ====
section
/-! DEFINITION. The nine conditions a supplied ROM is assumed to meet (30_encoding.md R156), with the bounds
that R147 and R151 put on its tables, as a check. No command makes it: a command that meets data that
breaks a condition does what its own rule says (log entry 20). -/

namespace Sys2Proof.Machine

/-! ## What a table entry holds, flattened -/

mutual
/-- Every terminal entry a decoding chain can end in. -/
def entryTerminals : FieldEntry → List Terminal
  | .notSupported => []
  | .consecutive p bitSize rs => [⟨.fragments [p], bitSize, rs⟩]
  | .fragmented ps bitSize rs => [⟨.fragments ps, bitSize, rs⟩]
  | .fixedValue v bitSize rs => [⟨.fixed v, bitSize, rs⟩]
  | .nextTable _ child => tableTerminals child
/-- The same for a child table. -/
def tableTerminals : FieldTable → List Terminal
  | .nil => []
  | .cons e rest => entryTerminals e ++ tableTerminals rest
end

/-- The number of slots of a child table of a decoding entry. -/
def tableLength : FieldTable → Nat
  | .nil => 0
  | .cons _ rest => tableLength rest + 1

mutual
/-- Every link of a decoding chain: its dependee and the slots of its child table. -/
def entryLinks : FieldEntry → List (FieldId × Nat)
  | .notSupported => []
  | .consecutive _ _ _ => []
  | .fragmented _ _ _ => []
  | .fixedValue _ _ _ => []
  | .nextTable d child => (d, tableLength child) :: tableLinks child
/-- The same for a child table. -/
def tableLinks : FieldTable → List (FieldId × Nat)
  | .nil => []
  | .cons e rest => entryLinks e ++ tableLinks rest
end

/-- The number of slots of a child table of a mapping entry. -/
def mapTableLength : MapTable → Nat
  | .nil => 0
  | .cons _ rest => mapTableLength rest + 1

mutual
/-- Every terminal mapping a mapping chain can end in. -/
def mapTerminals : MapEntry → List Mapping
  | .notSupported => []
  | .noMapping => []
  | .valueMapping frags sm => [.value frags sm]
  | .indexMapping frags sm table om => [.index frags sm table om]
  | .nextTable _ child => mapTableTerminals child
/-- The same for a child table. -/
def mapTableTerminals : MapTable → List Mapping
  | .nil => []
  | .cons e rest => mapTerminals e ++ mapTableTerminals rest
end

mutual
/-- Every link of a mapping chain. -/
def mapLinks : MapEntry → List (FieldId × Nat)
  | .notSupported => []
  | .noMapping => []
  | .valueMapping _ _ => []
  | .indexMapping _ _ _ _ => []
  | .nextTable d child => (d, mapTableLength child) :: mapTableLinks child
/-- The same for a child table. -/
def mapTableLinks : MapTable → List (FieldId × Nat)
  | .nil => []
  | .cons e rest => mapLinks e ++ mapTableLinks rest
end

/-- The number of slots of a child table of a masks entry. -/
def maskTableLength : MaskTable → Nat
  | .nil => 0
  | .cons _ rest => maskTableLength rest + 1

mutual
/-- Every pair of an or-mask and an and-mask a masks chain can end in. -/
def maskLeaves : MaskEntry → List (Vector Word 4 × Vector Word 4)
  | .masks o a => [(o, a)]
  | .noMasks => []
  | .nextTable _ child => maskTableLeaves child
/-- The same for a child table. -/
def maskTableLeaves : MaskTable → List (Vector Word 4 × Vector Word 4)
  | .nil => []
  | .cons e rest => maskLeaves e ++ maskTableLeaves rest
end

mutual
/-- Every link of a masks chain. -/
def maskLinks : MaskEntry → List (FieldId × Nat)
  | .masks _ _ => []
  | .noMasks => []
  | .nextTable d child => (d, maskTableLength child) :: maskTableLinks child
/-- The same for a child table. -/
def maskTableLinks : MaskTable → List (FieldId × Nat)
  | .nil => []
  | .cons e rest => maskLinks e ++ maskTableLinks rest
end

/-! ## The conditions -/

/-- A content restriction: at most one stands in a list (R146). -/
def isContent : Restriction → Bool
  | .value _ | .range _ _ | .mask _ | .padding _ _ => true
  | .none | .fieldType _ _ _ | .enum _ => false

/-- A `Padding` restriction (R145). -/
def isPadding : Restriction → Bool
  | .padding _ _ => true
  | .none | .value _ | .range _ _ | .mask _ | .fieldType _ _ _ | .enum _ => false

/-- A `FieldType` modifier (R145). -/
def isFieldType : Restriction → Bool
  | .fieldType _ _ _ => true
  | .none | .value _ | .range _ _ | .mask _ | .padding _ _ | .enum _ => false

/-- Condition 4: the list, its `None` entries left out, has one of the shapes of R146. -/
def shapeOk (rs : List Restriction) : Bool :=
  match rs.filter (fun r => !isNone r) with
  | [] => true
  | [_] => true
  | [r1, r2] => (isContent r1 && isFieldType r2) || (isFieldType r1 && isPadding r2)
  | _ => false

/-- Condition 5: the widths of a `FieldType` (R156). -/
def fieldTypeOk : Restriction → Bool
  | .fieldType bits _ dup =>
    decide (1 ≤ bits) && decide (bits ≤ Config.maxFieldBits) && (!dup || decide (2 * bits ≤ Config.maxFieldBits))
  | .none | .value _ | .range _ _ | .mask _ | .padding _ _ | .enum _ => true

/-- An `Enum` table has at most one slot for each raw value of the field's width (R147). -/
def enumOk (bitSize : Nat) : Restriction → Bool
  | .enum table => decide (table.length ≤ 2 ^ bitSize)
  | .none | .value _ | .range _ _ | .mask _ | .padding _ _ | .fieldType _ _ _ => true

/-- Conditions 2 to 5 and 9 for one terminal entry of a buffer of `n` words (R156), and the length of its
`Enum` table (R147). -/
def terminalOk (n : Nat) (t : Terminal) : Bool :=
  decide (t.bitSize ≤ Config.maxFieldBits) && shapeOk t.rs && t.rs.all fieldTypeOk && t.rs.all (enumOk t.bitSize) &&
    match t.place with
    | .fixed _ => true
    | .fragments ps => ps.all fun p => fragOk n p && decide (fragDst p + fragWidth p ≤ t.bitSize)

/-- A decoding table's conditions 1 to 5 and 9 (R156). -/
def decodingOk (n fields : Nat) (table : List FieldEntry) : Bool :=
  table.length == fields && table.all fun e => (entryTerminals e).all (terminalOk n)

/-- The dependees of a field's top-level entry. -/
def dependees (table : List FieldEntry) (f : FieldId) : List FieldId :=
  match table[f]? with
  | some e => (entryLinks e).map (·.1)
  | none => []

/-- The fields whose chains are known to end after `n` rounds: those whose dependees were known a round
before. -/
def settled (table : List FieldEntry) : Nat → FieldId → Bool
  | 0, _ => false
  | n + 1, f => (dependees table f).all (settled table n)

/-- Condition 6: every field's chain ends within `numberOfFields` rounds (R156). -/
def acyclic (fields : Nat) (table : List FieldEntry) : Bool :=
  (List.range fields).all (settled table fields)

/-- The largest size of a field under any branch of its chain, which stands for the `bitSize` of a
dependee in condition 7 (log entry 20). -/
def largestSize (table : List FieldEntry) (f : FieldId) : Nat :=
  match table[f]? with
  | some e => (entryTerminals e).foldl (fun n t => max n t.bitSize) 0
  | none => 0

/-- Condition 7: no child table has more slots than its dependee has values (R156). -/
def linksOk (table : List FieldEntry) (links : List (FieldId × Nat)) : Bool :=
  links.all fun l => decide (l.2 ≤ 2 ^ largestSize table l.1)

/-- A decoding table with its links: all of R156 that concerns it. -/
def decodingTableOk (n fields : Nat) (table : List FieldEntry) : Bool :=
  decodingOk n fields table && acyclic fields table && table.all fun e => linksOk table (entryLinks e)

/-- The entries of a compaction table fit its declared width (R151). -/
def compactionTableOk (t : CompactionTable) : Bool :=
  match t.width with
  | .w32 => t.entries.all fun x => decide (x.toNat < 2 ^ 32)
  | .w64 => true

/-- Condition 2 for a terminal mapping (R149, R151, R156). -/
def mappingOk : Mapping → Bool
  | .value frags _ => frags.all mapFragOk
  | .index frags _ table _ => frags.all mapFragOk && compactionTableOk table

/-- The opcode's compact part: condition 8, and conditions 1, 2 and 7 for the mapping table, whose
dependees are read in either format (R156). -/
def compactPartOk (fields : Nat) (tabs : OpcodeTables) : Bool :=
  match tabs.compactDecoding, tabs.compaction with
  | none, none => true
  | some cd, some maps =>
    decodingTableOk Config.compactWords fields cd && maps.length == fields
      && (maps.all fun e => (mapTerminals e).all mappingOk)
      && maps.all fun e => (mapLinks e).all fun l =>
        decide (l.2 ≤ 2 ^ max (largestSize tabs.nativeDecoding l.1) (largestSize cd l.1))
  | _, _ => false

/-- Condition 7 for the masks of one format, whose dependees are read in that format (R156, R390). A format
without a decoding table has no dependee to read and is never masked. -/
def masksOk (table : Option (List FieldEntry)) (masks : List MaskEntry) : Bool :=
  match table with
  | none => true
  | some t => masks.all fun e => linksOk t (maskLinks e)

/-- The tables of one opcode (R141, R156). -/
def tablesOk (fields : Nat) (tabs : OpcodeTables) : Bool :=
  decodingTableOk Config.nativeWords fields tabs.nativeDecoding && compactPartOk fields tabs
    && masksOk (some tabs.nativeDecoding) tabs.nativeMasks && masksOk tabs.compactDecoding tabs.compactMasks

/-- Conditions 2 to 5 for a position interpreter, an entry over the two words of its base field's raw value
(R153, R156, R412). -/
def interpreterOk (p : PositionInterpreter) : Bool := terminalOk 2 ⟨.fragments p.frags, p.bitSize, p.rs.getD []⟩

/-- The data of one model (R140, R156). -/
def modelOk (md : ModelData) : Bool :=
  (md.opcodes.all fun entry => tablesOk md.numberOfFields entry.2) && md.positionInterpreters.all interpreterOk

/-- A well-formed ROM (R156; R147, R151). -/
def romOk (rom : Rom) : Bool := rom.models.all fun entry => modelOk entry.2

end Sys2Proof.Machine
end

