-- ==== Sys2Proof/Safety.lean ====
section
/-! DEFINITION. The terms statements are made in: a clean run, the invariants of the status bits and of
the format bit, and which parts of an instance can be observed. -/

namespace Sys2Proof.Machine

/-- No command has been refused and none has met broken ROM data: the premise R49 gives every claim
about the block. -/
def State.clean (s : State) : Prop := s.faultMark = false ∧ s.refusedMark = false

/-- The status bits agree with each other (R47 items 1 and 2), and a set-up instance has its model and
opcode in the ROM (R44, R45). -/
def State.statusInv (s : State) : Prop :=
  (s.eng.ne = true → s.eng.nv = true) ∧ (s.eng.ce = true → s.eng.cv = true)
    ∧ (s.eng.init = true → s.eng.nv = true ∨ s.eng.cv = true)
    ∧ (s.eng.init = true → s.env.isSome = true)

/-- The tables' masks leave the compaction-control bit at its format's value: no native or-mask sets it
without its and-mask clearing it, and no compact and-mask clears it. -/
def maskLeafKeepsFormat (native : Bool) (m : Vector Word 4 × Vector Word 4) : Bool :=
  if native then !(cmptCtrl (wordAt m.1 0) && cmptCtrl (wordAt m.2 0)) else cmptCtrl (wordAt m.2 0)

/-- No mask of an opcode's tables changes which format bit 29 says. -/
def tablesKeepFormat (tabs : OpcodeTables) : Bool :=
  (tabs.nativeMasks.all fun e => (maskLeaves e).all (maskLeafKeepsFormat true))
    && tabs.compactMasks.all fun e => (maskLeaves e).all (maskLeafKeepsFormat false)

/-- No mask of a ROM changes which format bit 29 says. -/
def romKeepsFormat (rom : Rom) : Bool :=
  rom.models.all fun m => m.2.opcodes.all fun op => tablesKeepFormat op.2

/-- A Valid native buffer has bit 29 of word 0 clear, a Valid compact one has it set (R47 item 3). -/
def State.formatInv (s : State) : Prop :=
  (s.eng.nv = true → cmptCtrl (wordAt s.eng.nw 0) = false)
    ∧ (s.eng.cv = true → cmptCtrl (wordAt s.eng.cw 0) = true)

/-- Two instances no command can tell apart: both Uninitialised, or set up alike but for the words of
stale buffers (R54, R55, R506). -/
def Engine.sameVisible (e1 e2 : Engine) : Prop :=
  e1.init = e2.init ∧
    (e1.init = true →
      e1.model = e2.model ∧ e1.opc = e2.opc ∧ e1.nv = e2.nv ∧ e1.cv = e2.cv ∧ e1.ne = e2.ne ∧ e1.ce = e2.ce
        ∧ (e1.nv = true → e1.nw = e2.nw) ∧ (e1.cv = true → e1.cw = e2.cw))

/-- Two machines alike in everything but what no command can observe. -/
def State.sameVisible (s1 s2 : State) : Prop :=
  s1.eng.sameVisible s2.eng ∧ { s1 with eng := s2.eng } = s2

/-- The command ended with this response. -/
def answered (s t : State) (r : Response) : Prop := t.responses = s.responses ++ [r]

end Sys2Proof.Machine
end

