-- ==== Sys2Proof/Certificates/Slice0/Obligations.lean ====
section
/-! DEFINITION. The statements for the provers, with the terms they are made in. Each statement's
docstring names the rule it formalises, or says that it is derived. -/

namespace Sys2Proof.Claims

open Sys2Proof.Machine

/-! ## Terms -/

/-- The state after a successful command: the instance it leaves, and one response (R27, R170). -/
def answer (s : State) (e : Engine) (value : U64) (bytes : List Byte) (ranges : List (Nat × Nat)) : State :=
  { s with eng := e, index := s.index + 1, responses := s.responses ++ [.done .success value bytes ranges] }

/-- The state after a command that ends with a result code (R502, R505). -/
def coded (s : State) (e : Engine) (c : ResultCode) : State :=
  { s with eng := e, index := s.index + 1, responses := s.responses ++ [.done c 0 [] []] }

/-- The state after a refused command (R38). -/
def refusal (s : State) (why : RefuseReason) : State :=
  { s with refusedMark := true, index := s.index + 1, responses := s.responses ++ [.refused why] }

/-- The instance is set up and the ROM has the tables of its model and opcode. -/
def Ready (s : State) (env : Env) : Prop := s.eng.init = true ∧ s.env = some env

/-- The native words a command starts from: the Valid buffer, or the one rebuilt from the compact
buffer (R241, R433, R440). -/
def NativeWords (s : State) (env : Env) (w : Vector Word 4) : Prop :=
  (s.eng.nv = true ∧ w = s.eng.nw) ∨ (s.eng.nv = false ∧ buildNative env s.eng.cw = .ok w)

/-- The instance after a read found the native words `w` (R90, R241): as it was if the native buffer was
Valid, else with the rebuilt words, Valid and not Encoded. -/
def afterRead (s : State) (w : Vector Word 4) : Engine :=
  if s.eng.nv then s.eng else { s.eng with nw := w, nv := true, ne := false }

/-- A stale native buffer has a Valid compact one to be rebuilt from (R47 item 2). -/
def Readable (s : State) (env : Env) (w : Vector Word 4) : Prop :=
  NativeWords s env w ∧ (s.eng.nv = false → s.eng.cv = true)

/-- The native buffer is stale and stays so through a read: there is no Valid compact buffer to rebuild it
from, or its rebuild ends with `BadCompactEncoding` (R241). -/
def Unreadable (s : State) (env : Env) : Prop :=
  s.eng.nv = false ∧ (s.eng.cv = true → buildNative env s.eng.cw = .error (.raise .badCompactEncoding))

/-- A read of the field finds nothing in the native buffer and leaves the instance `e`: the field has no
native position, or the native buffer stays stale (R241). -/
def NoNativeRead (s : State) (env : Env) (f : FieldId) (e : Engine) : Prop :=
  (∃ w, Readable s env w ∧ resolve (nativeCtx env w) env.md.numberOfFields f = .ok .absent ∧ e = afterRead s w)
    ∨ (Unreadable s env ∧ e = s.eng)

/-- A rebuild of the stale native buffer is due and ends with `BadCompactEncoding` (R340, R433, R440). -/
def RebuildFails (s : State) (env : Env) : Prop :=
  s.eng.nv = false ∧ buildNative env s.eng.cw = .error (.raise .badCompactEncoding)

/-- The native words a command masks before it reads them: an Encoded buffer as it is, else the masked
words (R433). -/
def MaskedWords (s : State) (env : Env) (w m : Vector Word 4) : Prop :=
  NativeWords s env w ∧
    ((s.eng.nv = true ∧ s.eng.ne = true ∧ m = w)
      ∨ (¬(s.eng.nv = true ∧ s.eng.ne = true) ∧ applyNativeMasks env w = .ok m))

/-- One fragment's contribution as R208 puts it second: the word shifted down, cut to the width, shifted
to its place. -/
def piece {n : Nat} (ws : Vector Word n) (p : Fragment) : U64 :=
  (((wordAt ws (p.lowBit / 32)).setWidth 64 >>> (p.lowBit % 32))
    &&& BitVec.ofNat 64 (2 ^ (p.highBit - p.lowBit + 1) - 1)) <<< (((p.lowBit % 32 : Nat) : Int) - p.shift).toNat

/-- A field's raw value: the OR of its fragments' contributions (R209). -/
def fieldBits {n : Nat} (ws : Vector Word n) (ps : List Fragment) : U64 :=
  ps.foldl (fun v p => v ||| piece ws p) 0

/-- The raw value a terminal entry has in a buffer (R203). -/
def rawValue {n : Nat} (ws : Vector Word n) (t : Terminal) : U64 :=
  match t.place with
  | .fixed v => v
  | .fragments ps => fieldBits ws ps

/-- A terminal entry whose fragments are well-formed for a buffer of `n` words (R130). -/
def PlaceOk (n : Nat) (t : Terminal) : Prop :=
  match t.place with
  | .fixed _ => True
  | .fragments ps => ∀ p ∈ ps, fragOk n p = true

/-- A field with a native position in the words `w` (R202). -/
def NativeField (env : Env) (w : Vector Word 4) (f : FieldId) (t : Terminal) : Prop :=
  resolve (nativeCtx env w) env.md.numberOfFields f = .ok (.found t) ∧ PlaceOk 4 t

/-- A field with a compact position in the words `w` (R202). -/
def CompactField (env : Env) (w : Vector Word 2) (f : FieldId) (t : Terminal) : Prop :=
  resolve (compactCtx env w) env.md.numberOfFields f = .ok (.found t) ∧ PlaceOk 2 t

/-- An ENCODED read of the field answers `raw` and leaves the instance `e`: the native bits where the field has a
native position, else the compact bits of a Valid compact buffer (R241, R416). -/
def RawRead (s : State) (env : Env) (f : FieldId) (e : Engine) (raw : U64) : Prop :=
  (∃ w t, Readable s env w ∧ NativeField env w f t ∧ e = afterRead s w ∧ raw = rawValue w t)
    ∨ (NoNativeRead s env f e ∧ s.eng.cv = true ∧ ∃ t, CompactField env s.eng.cw f t ∧ raw = rawValue s.eng.cw t)

/-- A read of the field finds it in neither buffer and leaves the instance `e` (R241, R243). -/
def NoRead (s : State) (env : Env) (f : FieldId) (e : Engine) : Prop :=
  NoNativeRead s env f e
    ∧ (s.eng.cv = true → resolve (compactCtx env s.eng.cw) env.md.numberOfFields f = .ok .absent)

/-- Bit `b` of a buffer lies in a fragment. -/
def covers (p : Fragment) (b : Nat) : Bool := decide (p.lowBit ≤ b) && decide (b ≤ p.highBit)

/-- No fragment covers an opcode bit or the compaction-control bit (R256). -/
def Unprotected (ps : List Fragment) : Prop := ∀ p ∈ ps, ∀ b, b ≤ 6 ∨ b = 29 → covers p b = false

/-- What bit `b` of a buffer holds after a raw value is inserted: the last fragment in list order that
covers it decides (R212, R213). -/
def bitAfterInsert {n : Nat} (ws : Vector Word n) (ps : List Fragment) (raw : U64) (b : Nat) : Bool :=
  match ps.reverse.find? (fun p => covers p b) with
  | none => bitAt ws b
  | some p => raw.getLsbD ((((p.lowBit % 32 : Nat) : Int) - p.shift).toNat + (b - p.lowBit))

/-- The four PROCESSED getters answer a processed value: the 64-bit ones the pattern, the 32-bit ones the
pattern if it fits and a refusal otherwise (R244 to R248). -/
def GettersAnswer (s : State) (f : BitVec 16) (e : Engine) (v : U64) : Prop :=
  exec (.getSigned64Field f) s = .next (answer s e v [] [])
  ∧ exec (.getUnsigned64Field f) s = .next (answer s e v [] [])
  ∧ exec (.getSignedField f) s = .next
      (if -2 ^ 31 ≤ v.toInt ∧ v.toInt < 2 ^ 31 then answer s e v [] [] else refusal s .doesNotFit)
  ∧ exec (.getUnsignedField f) s = .next
      (if v.toNat < 2 ^ 32 then answer s e v [] [] else refusal s .doesNotFit)

/-- The four PROCESSED getters end with a result code (R243). -/
def GettersRaise (s : State) (f : BitVec 16) (e : Engine) (c : ResultCode) : Prop :=
  exec (.getSigned64Field f) s = .next (coded s e c)
  ∧ exec (.getUnsigned64Field f) s = .next (coded s e c)
  ∧ exec (.getSignedField f) s = .next (coded s e c)
  ∧ exec (.getUnsignedField f) s = .next (coded s e c)

/-- The four PROCESSED getters answer what the decode pipeline makes of a raw value: its value, or
`InvalidValue` where it fails so (R242, R243). -/
def GettersProcess (s : State) (env : Env) (f : BitVec 16) (e : Engine) (t : Terminal) (raw : U64) : Prop :=
  (∀ v, decodePipeline (fieldSignInfo env f.toNat t) t.rs raw = .ok v → GettersAnswer s f e v)
  ∧ (decodePipeline (fieldSignInfo env f.toNat t) t.rs raw = .error (.raise .invalidValue) →
      GettersRaise s f e .invalidValue)

/-- The indices that can stand for a gathered value: those in the table whose entry matches under the or-mask
and which have no bits outside the source mask, ascending (R360). -/
def candidateIndices (entries : List U64) (sm om x : U64) : List Nat :=
  (List.range entries.length).filter fun i =>
    (entries.getD i 0 ||| om == x ||| om) && (BitVec.ofNat 64 i &&& ~~~ sm == 0)

/-- The indices of form `k`: the places of an odometer over the index-mapped fields in the order the build
applied them, the last one changing fastest (R361). -/
def formChoice : List Pick → Nat → List Nat
  | [], _ => []
  | p :: ps, k =>
    let block := (ps.map (·.candidates.length)).prod
    p.candidates.getD (k / block) 0 :: formChoice ps (k % block)

/-- The chosen indices written in turn through the fields' compact fragments (R362). -/
def ChoicesInserted : List Pick → List Nat → Vector Word 2 → Vector Word 2 → Prop
  | [], [], ws, c => c = ws
  | p :: ps, i :: is, ws, c =>
    ∃ m : Vector Word 2, (∀ b, b < 64 → bitAt m b = bitAfterInsert ws p.frags (BitVec.ofNat 64 i) b)
      ∧ ChoicesInserted ps is m c
  | [], _ :: _, _, _ => False
  | _ :: _, [], _, _ => False

/-- The fields of a list applied in turn, each with the effect its application has (R333). -/
def Replay {σ : Type} (apply : FieldId → σ → Res (Option σ)) : List FieldId → σ → σ → Prop
  | [], a, b => b = a
  | f :: fs, a, b => ∃ m, apply f a = .ok (some m) ∧ Replay apply fs m b

/-- The fragments a terminal entry has (R142). -/
def entryFragments (t : Terminal) : List Fragment :=
  match t.place with
  | .fixed _ => []
  | .fragments ps => ps

/-- The fields of a scratch build's order applied in turn to the compact target, with its index-mapped fields:
one pick for each field whose mapping, as it resolves at the field's turn, is an `IndexMapping`, with the indices
that can stand for the value gathered for it and the fragments of its compact entry at that turn; no pick for
any other field (R333, R351, R360, R362). -/
def PicksAlong (env : Env) (maps : List MapEntry) (nw : Vector Word 4) :
    List FieldId → Target 2 → Target 2 → List Pick → Prop
  | [], a, b, picks => b = a ∧ picks = []
  | f :: fs, a, b, picks =>
    ∃ c rest, buildStep env (compactTarget env) maps (applyCompact env true nw) f a = .ok (some c)
      ∧ PicksAlong env maps nw fs c b rest
      ∧ (∀ frags sm table om,
          resolveMap env (compactTarget env a) maps f = .ok (.found (.index frags sm table om)) →
          ∃ x entry, gatherAll nw frags 0 = .ok x
            ∧ resolve (compactTarget env a) env.md.numberOfFields f = .ok (.found entry)
            ∧ candidateIndices table.entries sm om x ≠ []
            ∧ picks = ⟨candidateIndices table.entries sm om x, entryFragments entry⟩ :: rest)
      ∧ ((∀ frags sm table om,
          resolveMap env (compactTarget env a) maps f ≠ .ok (.found (.index frags sm table om))) →
          picks = rest)

/-- An `Enum` restriction (R145). -/
def isEnum : Restriction → Bool
  | .enum _ => true
  | .none | .value _ | .range _ _ | .mask _ | .padding _ _ | .fieldType _ _ _ => false

/-- Slot `k` of a masks child table. -/
def maskSlot : MaskTable → Nat → Option MaskEntry
  | .nil, _ => none
  | .cons e _, 0 => some e
  | .cons _ rest, k + 1 => maskSlot rest k

/-- What one masks group does to a buffer (R390): its words after the group, or `none` where a dependee that
has no value or no slot ends the pass (R391). -/
inductive GroupGives {n : Nat} (c : Ctx n) (ws : Vector Word n) : MaskEntry → Option (Vector Word n) → Prop where
  | masks (o a : Vector Word 4) : GroupGives c ws (.masks o a) (some (maskWords ws o a))
  | noMasks : GroupGives c ws .noMasks (some ws)
  | noDependee (d : FieldId) (child : MaskTable) :
      readRaw { c with words := ws } c.fields d = .ok .absent → GroupGives c ws (.nextTable d child) none
  | noSlot (d : FieldId) (child : MaskTable) (k : U64) :
      readRaw { c with words := ws } c.fields d = .ok (.found k) → maskSlot child k.toNat = none →
      GroupGives c ws (.nextTable d child) none
  | slot (d : FieldId) (child : MaskTable) (k : U64) (e : MaskEntry) (out : Option (Vector Word n)) :
      readRaw { c with words := ws } c.fields d = .ok (.found k) → maskSlot child k.toNat = some e →
      GroupGives c ws e out → GroupGives c ws (.nextTable d child) out

/-- What a masks pass does to a buffer: the groups in list order, each on the words the ones before it left,
up to a top-level `NoMasks` or to a group that ends the pass, which keeps what was applied (R390, R391). -/
inductive PassGives {n : Nat} (c : Ctx n) : List MaskEntry → Vector Word n → Vector Word n → Prop where
  | finished (ws : Vector Word n) : PassGives c [] ws ws
  | terminator (gs : List MaskEntry) (ws : Vector Word n) : PassGives c (.noMasks :: gs) ws ws
  | group (g : MaskEntry) (gs : List MaskEntry) (ws ws1 ws2 : Vector Word n) : g ≠ .noMasks →
      GroupGives c ws g (some ws1) → PassGives c gs ws1 ws2 → PassGives c (g :: gs) ws ws2
  | abandoned (g : MaskEntry) (gs : List MaskEntry) (ws : Vector Word n) :
      GroupGives c ws g none → PassGives c (g :: gs) ws ws

/-- The commands that read one field or descriptor and write none (R52, R90). -/
def isRead : Instr → Bool
  | .getSignedField _ | .getUnsignedField _ | .getSigned64Field _ | .getUnsigned64Field _ | .getRawField _
  | .getFieldSize _ | .queryFieldBitLocation _ | .printFieldBitLocation _ | .interpretPosition _
  | .reinterpretEnum _ | .collectFields _ => true
  | .init | .decode | .encodeNative | .encodeCompact | .setOpcode | .isNativeEncoded | .isCompactEncoded
  | .setSignedField _ | .setUnsignedField _ | .setSigned64Field _ | .setUnsigned64Field _ | .countCompacted
  | .retrieveAllCompactedFormats | .nativeInstruction _ _ _ _ | .compactInstruction _ _ => false

/-- The setters, with their field and the value each takes from `a0` (R257 to R260). -/
def setterValue (a0 : U64) : Instr → Option (BitVec 16 × U64)
  | .setSignedField f => some (f, (a0.setWidth 32).signExtend 64)
  | .setUnsignedField f => some (f, a0 &&& 0xFFFFFFFF)
  | .setSigned64Field f => some (f, a0)
  | .setUnsigned64Field f => some (f, a0)
  | .init | .decode | .encodeNative | .encodeCompact | .setOpcode | .isNativeEncoded | .isCompactEncoded
  | .getSignedField _ | .getUnsignedField _ | .getSigned64Field _ | .getUnsigned64Field _ | .getRawField _
  | .getFieldSize _ | .countCompacted | .retrieveAllCompactedFormats | .queryFieldBitLocation _
  | .printFieldBitLocation _ | .interpretPosition _ | .reinterpretEnum _ | .collectFields _
  | .nativeInstruction _ _ _ _ | .compactInstruction _ _ => none

/-- The commands that load an instance (R430, R432). -/
def isLoad : Instr → Bool
  | .init | .decode | .nativeInstruction _ _ _ _ | .compactInstruction _ _ => true
  | .encodeNative | .encodeCompact | .setOpcode | .isNativeEncoded | .isCompactEncoded
  | .getSignedField _ | .getUnsignedField _ | .getSigned64Field _ | .getUnsigned64Field _ | .getRawField _
  | .getFieldSize _ | .setSignedField _ | .setUnsignedField _ | .setSigned64Field _ | .setUnsigned64Field _
  | .countCompacted | .retrieveAllCompactedFormats | .queryFieldBitLocation _ | .printFieldBitLocation _
  | .interpretPosition _ | .reinterpretEnum _ | .collectFields _ => false

/-- The command codes of R172. -/
def assignedCodes : List Nat :=
  [0x01, 0x02, 0x03, 0x04, 0x05, 0x06, 0x07, 0x10, 0x11, 0x12, 0x13, 0x14, 0x15, 0x18, 0x19, 0x1A, 0x1B,
   0x20, 0x21, 0x28, 0x29, 0x30, 0x31, 0x32]

/-- The command codes whose commands take no id (R172). -/
def idlessCodes : List Nat := [0x01, 0x02, 0x03, 0x04, 0x05, 0x06, 0x07, 0x20, 0x21]

/-- Word `i` of a host buffer, little-endian (R80). -/
def hostWord (bytes : List Byte) (i : Nat) : Word :=
  le32 (bytes.getD (4 * i) 0) (bytes.getD (4 * i + 1) 0) (bytes.getD (4 * i + 2) 0) (bytes.getD (4 * i + 3) 0)

/-- The bytes of a buffer, if the request has an output buffer (R84). -/
def delivered {n : Nat} (s : State) (ws : Vector Word n) : List Byte :=
  if s.request.outReq then (List.range (4 * n)).map (byteAt ws) else []

/-- The status word as a number: `NV` 1, `CV` 2, `NE` 4, `CE` 8 (R46). -/
def statusNumber (e : Engine) : Nat := e.nv.toNat + 2 * e.cv.toNat + 4 * e.ne.toNat + 8 * e.ce.toNat

/-- A response is a refusal. -/
def isRefused : Response → Bool
  | .refused _ => true
  | .done _ _ _ _ => false

/-- A response is `InternalError`. -/
def isInternal : Response → Bool
  | .done .internalError _ _ _ => true
  | .done _ _ _ _ => false
  | .refused _ => false

end Sys2Proof.Claims

open Sys2Proof Sys2Proof.Machine Sys2Proof.Claims

/-! ## Reset and the step -/

/-- R550: a newly created instance is Uninitialised with both marks clear, and a machine with no pending
command does nothing (R533). -/
def Obligations.PowerOnIsUninitialisedAndIdle : Prop :=
  (State.reset.eng.init = false ∧ State.reset.faultMark = false ∧ State.reset.refusedMark = false)
    ∧ step State.reset = .next State.reset
    ∧ ∀ s : State, s.requests.length ≤ s.index → step s = .next s

/-- Both invariants hold at power-on. -/
def Obligations.PowerOnMeetsTheInvariants : Prop := State.reset.statusInv ∧ State.reset.formatInv

/-- The step takes the request at the index and runs the instruction it asks for; each meaning moves the
index past the request itself. Derived (R50, R170). -/
def Obligations.StepRunsTheDecodedRequest : Prop :=
  ∀ (s : State) (r : Request) (i : Instr),
    s.requests[s.index]? = some r → decodeRequest r = .ok i → step s = exec i s

/-- R171: the code in bits 7..0, reserved bits 15..8 and the id in bits 31..16 of a command word; an
unassigned code or nonzero reserved bits make the command refused, and a nonzero id on a command that
takes none is ignored. -/
def Obligations.CommandWordsAreCheckedAndReadAsR171Says : Prop :=
  (∀ (s : State) (r : Request), s.requests[s.index]? = some r →
    (r.cmd.extractLsb' 8 8 ≠ 0 ∨ (r.cmd.extractLsb' 0 8).toNat ∉ assignedCodes) →
    ∃ why, step s = .next (refusal s why))
  ∧ (∀ w : Word, w.extractLsb' 8 8 = 0 → (w.extractLsb' 0 8).toNat ∈ assignedCodes →
    ∃ i, decodeCommand w = .ok i)
  ∧ (∀ (w : Word) (i : Instr), decodeCommand w = .ok i → (w.extractLsb' 0 8).toNat ∉ idlessCodes →
    encode i = [commandWord (w.extractLsb' 0 8) (w.extractLsb' 16 16)])
  ∧ ∀ (id : BitVec 16) (code : BitVec 8), code.toNat ∈ idlessCodes →
    decodeCommand (commandWord code id) = decodeCommand (commandWord code 0)

/-! ## Encodings -/

/-- Words written out from R171, R172, R121 and R122 decode to the instructions they stand for. -/
def Obligations.WrittenOutWordsDecode : Prop :=
  decodeWords .command [0x00000001] = .ok .init
    ∧ decodeWords .command [0x00020011] = .ok (.getUnsignedField 2)
    ∧ decodeWords .command [0x00040018] = .ok (.setSignedField 4)
    ∧ decodeWords .command [0x00000021] = .ok .retrieveAllCompactedFormats
    ∧ decodeWords .command [0x00050029] = .ok (.printFieldBitLocation 5)
    ∧ decodeWords .command [0x00010030] = .ok (.interpretPosition 1)
    ∧ decodeWords .command [0x00000111] = .error .reservedBits
    ∧ decodeWords .instruction [0x002A0001, 0, 0, 0] = .ok (.nativeInstruction 0x002A0001 0 0 0)
    ∧ decodeWords .instruction [0x20020101, 0xFFFE] = .ok (.compactInstruction 0x20020101 0xFFFE)

/-- Decode and encode agree on every well-formed instruction, every id at every value. Derived (R120 to
R123, R171, R172). -/
def Obligations.DecodeOfEncodeIsTheInstruction : Prop :=
  ∀ i : Instr, i.wf = true → decodeWords i.port (encode i) = .ok i

/-- The request made for an instruction asks for it, whatever the request's other operands; a `DECODE`
without a buffer stays a `DECODE`. Derived (R170, R432). -/
def Obligations.RequestForAnInstructionAsksForIt : Prop :=
  ∀ (r : Request) (i : Instr), i.wf = true → (i = .decode → r.inBuf = none) →
    decodeRequest (requestFor r i) = .ok i

/-! ## The whole machine -/

/-- The status bits' invariant holds after every step that starts with it (R47 items 1 and 2). -/
def Obligations.EveryStepKeepsTheStatusInvariant : Prop :=
  ∀ s t : State, s.statusInv → step s = .next t → t.statusInv

/-- The format bit's invariant (R47 item 3) holds after every step that starts with it, on a ROM whose
masks leave bit 29 as the format says. -/
def Obligations.EveryStepKeepsTheFormatInvariant : Prop :=
  ∀ s t : State, romKeepsFormat s.rom = true → s.statusInv → s.formatInv → step s = .next t → t.formatInv

/-- Every instruction gives a next state with one more response; the ROM, the parameters and the host's
commands stay as they are, and the index advances by one. Derived (R50, R92, R170). -/
def Obligations.EveryInstructionAnswersOnceAndKeepsTheRom : Prop :=
  ∀ (i : Instr) (s : State), ∃ t r, exec i s = .next t ∧ t.rom = s.rom ∧ t.validationMode = s.validationMode
    ∧ t.maskSense = s.maskSense ∧ t.requests = s.requests ∧ t.index = s.index + 1 ∧ answered s t r

/-- R49: the marks are clear at power-on and sticky, and record exactly the `InternalError`s and the
refusals, of every instruction and of every step, a command word that does not decode among them. -/
def Obligations.MarksRecordInternalErrorsAndRefusals : Prop :=
  (State.reset.faultMark = false ∧ State.reset.refusedMark = false) ∧
    ∀ (s t : State) (r : Response), answered s t r → (step s = .next t ∨ ∃ i, exec i s = .next t) →
      t.faultMark = (s.faultMark || isInternal r) ∧ t.refusedMark = (s.refusedMark || isRefused r)

/-- R38 and R39: a refused command changes no architectural state and sets `refusedMark`; a command that
raises `InternalError` changes no architectural state but `faultMark`. -/
def Obligations.RefusalsAndInternalErrorsOnlySetTheirMark : Prop :=
  ∀ (i : Instr) (s t : State), exec i s = .next t →
    (∀ why, answered s t (.refused why) → t = refusal s why)
    ∧ ∀ (v : U64) (bytes : List Byte) (ranges : List (Nat × Nat)),
      answered s t (.done .internalError v bytes ranges) →
      t = { coded s s.eng .internalError with faultMark := true }

/-- A response other than `Success` carries only its code. Derived (R502). -/
def Obligations.ErrorsCarryOnlyTheirCode : Prop :=
  ∀ (i : Instr) (s t : State) (c : ResultCode) (v : U64) (bytes : List Byte) (ranges : List (Nat × Nat)),
    exec i s = .next t → answered s t (.done c v bytes ranges) → c ≠ .success →
    v = 0 ∧ bytes = [] ∧ ranges = []

/-- R41: every command other than `INIT` and `DECODE` is refused while `init = false`. That the validation-mode
commands report this reason where `VALIDATION_MODE` is false too is the model's choice (log entry 25). -/
def Obligations.UninitialisedInstancesRefuse : Prop :=
  ∀ (i : Instr) (s : State), isLoad i = false → s.eng.init = false →
    exec i s = .next (refusal s .uninitialised)

/-- R506: a failed `INIT` or `DECODE`, other than by `InternalError`, leaves the instance
Uninitialised. -/
def Obligations.FailedLoadsLeaveTheInstanceUninitialised : Prop :=
  ∀ (i : Instr) (s t : State) (c : ResultCode) (v : U64) (bytes : List Byte) (ranges : List (Nat × Nat)),
    isLoad i = true → exec i s = .next t → answered s t (.done c v bytes ranges) →
    c ≠ .success → c ≠ .internalError →
    t.eng.init = false ∧ t.faultMark = s.faultMark ∧ t.refusedMark = s.refusedMark

/-- Machines alike but for the words of stale buffers, or for anything in an Uninitialised instance,
give the same responses to every instruction and stay alike. Derived (R54, R55, R506). -/
def Obligations.StaleAndUninitialisedContentsAreUnobservable : Prop :=
  ∀ (i : Instr) (s1 s2 t1 t2 : State), s1.statusInv → s2.statusInv → s1.sameVisible s2 →
    exec i s1 = .next t1 → exec i s2 = .next t2 → t1.sameVisible t2

/-- R90: a read may rebuild a stale native buffer from the Valid compact one, which sets `NV`, and changes
nothing else of the instance; a second read of the same field then returns the same response and changes
nothing more. -/
def Obligations.ReadsOnlyRebuildAStaleNativeBuffer : Prop :=
  ∀ (i : Instr) (s t : State) (r : Response), isRead i = true → exec i s = .next t → answered s t r →
    (t.eng = s.eng ∨
      ∃ env w, Ready s env ∧ s.eng.nv = false ∧ s.eng.cv = true ∧ buildNative env s.eng.cw = .ok w
        ∧ t.eng = { s.eng with nw := w, nv := true, ne := false })
    ∧ ∃ u, exec i t = .next u ∧ answered t u r ∧ u.eng = t.eng

/-! ## Creating and loading an instance -/

/-- `INIT` (R56, R430): the values after a success; `InvalidModel` before `OpcodeNotSupported`, either of
which leaves the instance Uninitialised (R504, R506). -/
def Obligations.InitGivesAFreshInstance : Prop :=
  ∀ s : State,
    (∀ md tabs, findModel s.rom s.request.a0.toNat = some md → s.request.a1.toNat ≤ 127 →
      findTables md (s.request.a1.setWidth 7) = some tabs →
      exec .init s = .next (answer s
        { init := true, model := s.request.a0.setWidth 32, opc := s.request.a1.setWidth 7,
          nw := #v[s.request.a1.setWidth 32, 0, 0, 0], cw := #v[0, 0], nv := true, cv := false, ne := false,
          ce := false } 0 [] []))
    ∧ (findModel s.rom s.request.a0.toNat = none →
      ∃ t, exec .init s = .next t ∧ answered s t (.done .invalidModel 0 [] []) ∧ t.eng.init = false)
    ∧ ∀ md, findModel s.rom s.request.a0.toNat = some md →
      (127 < s.request.a1.toNat ∨ findTables md (s.request.a1.setWidth 7) = none) →
      ∃ t, exec .init s = .next t ∧ answered s t (.done .opcodeNotSupported 0 [] []) ∧ t.eng.init = false

/-- An instruction word loaded through `DECODE`: the first 16 bytes of a native input become the native
buffer; the first 8 bytes of a compact input become the compact buffer, and the native buffer is their
decompaction (R83, R121 to R123, R340, R432). -/
def Obligations.DecodeLoadsTheInstructionItIsGiven : Prop :=
  ∀ (s : State) (bytes : List Byte) (md : ModelData) (tabs : OpcodeTables),
    s.request.inBuf = some bytes → s.request.a1.toNat ≤ bytes.length →
    findModel s.rom s.request.a0.toNat = some md →
    findTables md ((hostWord bytes 0).extractLsb' 0 7) = some tabs →
    (16 ≤ s.request.a1.toNat → (hostWord bytes 0).getLsbD 29 = false →
      exec .decode s = .next (answer s
        { init := true, model := s.request.a0.setWidth 32, opc := (hostWord bytes 0).extractLsb' 0 7,
          nw := #v[hostWord bytes 0, hostWord bytes 1, hostWord bytes 2, hostWord bytes 3], cw := #v[0, 0],
          nv := true, cv := false, ne := false, ce := false } 0 [] []))
    ∧ (8 ≤ s.request.a1.toNat → (hostWord bytes 0).getLsbD 29 = true →
      ∀ w, buildNative ⟨md, tabs, s.maskSense⟩ #v[hostWord bytes 0, hostWord bytes 1] = .ok w →
      exec .decode s = .next (answer s
        { init := true, model := s.request.a0.setWidth 32, opc := (hostWord bytes 0).extractLsb' 0 7, nw := w,
          cw := #v[hostWord bytes 0, hostWord bytes 1], nv := true, cv := true, ne := false, ce := false }
        0 [] []))

/-- The well-formed instruction words of R121 and R122 as `DECODE` loads them, from any state (R432). -/
def Obligations.InstructionWordsLoad : Prop :=
  ∀ (s : State) (w0 w1 w2 w3 : Word) (md : ModelData) (tabs : OpcodeTables),
    findModel s.rom s.request.a0.toNat = some md → findTables md (w0.extractLsb' 0 7) = some tabs →
    (w0.getLsbD 29 = false → exec (.nativeInstruction w0 w1 w2 w3) s = .next (answer s
      { init := true, model := s.request.a0.setWidth 32, opc := w0.extractLsb' 0 7, nw := #v[w0, w1, w2, w3],
        cw := #v[0, 0], nv := true, cv := false, ne := false, ce := false } 0 [] []))
    ∧ (w0.getLsbD 29 = true → ∀ w, buildNative ⟨md, tabs, s.maskSense⟩ #v[w0, w1] = .ok w →
      exec (.compactInstruction w0 w1) s = .next (answer s
        { init := true, model := s.request.a0.setWidth 32, opc := w0.extractLsb' 0 7, nw := w,
          cw := #v[w0, w1], nv := true, cv := true, ne := false, ce := false } 0 [] []))

/-- `DECODE` of a request that carries a whole instruction word is the load of that word. Derived (R123,
R432). -/
def Obligations.DecodeIsTheLoadOfTheCarriedWord : Prop :=
  ∀ (s : State) (i : Instr), carriedInstruction s.request = some i → exec .decode s = exec i s

/-- The checks of `DECODE` in their order, and how each ends (R83, R432, R504): `NullPointer`, the host
buffer's refusal, `InvalidModel`, `BufferTooShort`, `OpcodeNotSupported`, and for a compact word the failed
decompaction. -/
def Obligations.DecodeChecksInOrder : Prop :=
  ∀ s : State,
    (s.request.inBuf = none →
      ∃ t, exec .decode s = .next t ∧ answered s t (.done .nullPointer 0 [] []) ∧ t.eng.init = false)
    ∧ ∀ bytes, s.request.inBuf = some bytes →
      (bytes.length < s.request.a1.toNat → exec .decode s = .next (refusal s .hostBufferShort))
      ∧ (s.request.a1.toNat ≤ bytes.length →
        (findModel s.rom s.request.a0.toNat = none →
          ∃ t, exec .decode s = .next t ∧ answered s t (.done .invalidModel 0 [] []) ∧ t.eng.init = false)
        ∧ ∀ md, findModel s.rom s.request.a0.toNat = some md →
          ((s.request.a1.toNat < 8 ∨ (s.request.a1.toNat < 16 ∧ (hostWord bytes 0).getLsbD 29 = false)) →
            ∃ t, exec .decode s = .next t ∧ answered s t (.done .bufferTooShort 0 [] []) ∧ t.eng.init = false)
          ∧ ((16 ≤ s.request.a1.toNat ∨ (8 ≤ s.request.a1.toNat ∧ (hostWord bytes 0).getLsbD 29 = true)) →
            (findTables md ((hostWord bytes 0).extractLsb' 0 7) = none →
              ∃ t, exec .decode s = .next t ∧ answered s t (.done .opcodeNotSupported 0 [] [])
                ∧ t.eng.init = false)
            ∧ ∀ tabs, findTables md ((hostWord bytes 0).extractLsb' 0 7) = some tabs →
              (hostWord bytes 0).getLsbD 29 = true →
              (buildNative ⟨md, tabs, s.maskSense⟩ #v[hostWord bytes 0, hostWord bytes 1]
                  = .error (.raise .badCompactEncoding) →
                ∃ t, exec .decode s = .next t ∧ answered s t (.done .badCompactEncoding 0 [] [])
                  ∧ t.eng.init = false)
              ∧ (buildNative ⟨md, tabs, s.maskSense⟩ #v[hostWord bytes 0, hostWord bytes 1]
                  = .error (.raise .internalError) →
                exec .decode s = .next { coded s s.eng .internalError with faultMark := true })))

/-! ## Encoding, the opcode and the status -/

/-- `ENCODE_NATIVE`: the native buffer made Valid and Encoded, its bytes delivered, the compact buffer
untouched; a stale native buffer whose rebuild fails gives `BadCompactEncoding` and leaves the instance as it
was (R396, R433, R434, R505). -/
def Obligations.EncodeNativeDeliversTheMaskedWords : Prop :=
  ∀ (s : State) (env : Env), Ready s env →
    (∀ w m, MaskedWords s env w m →
      exec .encodeNative s = .next (answer s { s.eng with nw := m, nv := true, ne := true } 0 (delivered s m) []))
    ∧ (RebuildFails s env → exec .encodeNative s = .next (coded s s.eng .badCompactEncoding))

/-- `ENCODE_COMPACT` on a Valid compact buffer only masks it if it is not Encoded, and touches nothing
native (R395, R435, R436). -/
def Obligations.EncodeCompactMasksAValidBuffer : Prop :=
  ∀ (s : State) (env : Env) (m : Vector Word 2), Ready s env → s.eng.cv = true →
    (if s.eng.ce then m = s.eng.cw else applyCompactMasks env s.eng.cw = .ok m) →
    exec .encodeCompact s = .next (answer s { s.eng with cw := m, cv := true, ce := true } 0 (delivered s m) [])

/-- `ENCODE_COMPACT` on a stale compact buffer compacts the masked native words and masks the result
(R350, R435, R436). -/
def Obligations.EncodeCompactRebuildsAStaleBuffer : Prop :=
  ∀ (s : State) (env : Env) (w m : Vector Word 4) (c k : Vector Word 2), Ready s env → s.eng.cv = false →
    MaskedWords s env w m → buildCompact env m = .ok c → applyCompactMasks env c = .ok k →
    exec .encodeCompact s = .next (answer s
      { s.eng with nw := m, nv := true, ne := true, cw := k, cv := true, ce := true } 0 (delivered s k) [])

/-- A compaction that fails answers its code and keeps what the preparation of the native buffer did;
the compact buffer stays as it was (R435, R436, R505 item 3). -/
def Obligations.FailedCompactionKeepsThePreparation : Prop :=
  ∀ (s : State) (env : Env) (w m : Vector Word 4) (c : ResultCode), Ready s env → s.eng.cv = false →
    MaskedWords s env w m → buildCompact env m = .error (.raise c) → c ≠ .internalError →
    exec .encodeCompact s = .next (coded s { s.eng with nw := m, nv := true, ne := true } c)

/-- Decoding compact bytes, encoding natively and encoding compactly delivers the input after its
compact masks (R437). -/
def Obligations.CompactBytesRoundTrip : Prop :=
  ∀ (s t u : State) (w0 w1 : Word) (env : Env) (m : Vector Word 2) (v1 v2 : U64) (b1 b2 : List Byte)
    (r1 r2 : List (Nat × Nat)),
    exec (.compactInstruction w0 w1) s = .next t → answered s t (.done .success v1 b1 r1) →
    exec .encodeNative t = .next u → answered t u (.done .success v2 b2 r2) →
    u.env = some env → applyCompactMasks env #v[w0, w1] = .ok m → u.request.outReq = true →
    ∃ x, exec .encodeCompact u = .next x ∧ answered u x (.done .success 0 ((List.range 8).map (byteAt m)) [])
      ∧ x.eng.cw = m ∧ x.eng.ce = true

/-- `SET_OPCODE`: the opcode bits of the native words and `opc` take the new opcode, every other native
bit is kept, the compact buffer becomes stale; an opcode the model has no tables for changes nothing, and
neither does a supported one where a stale native buffer cannot be rebuilt (R440, R505, R565). -/
def Obligations.SetOpcodeKeepsEveryOtherNativeBit : Prop :=
  ∀ (s : State) (env : Env), Ready s env →
    (∀ (w : Vector Word 4) (tabs : OpcodeTables), NativeWords s env w → s.request.a0.toNat ≤ 127 →
      findTables env.md (s.request.a0.setWidth 7) = some tabs →
      ∃ n : Vector Word 4,
        exec .setOpcode s = .next (answer s
          { s.eng with
            nw := n, opc := s.request.a0.setWidth 7, nv := true, cv := false, ne := false, ce := false }
          0 [] [])
        ∧ (wordAt n 0).extractLsb' 0 7 = s.request.a0.setWidth 7
        ∧ ∀ b, 7 ≤ b → b < 128 → bitAt n b = bitAt w b)
    ∧ ((127 < s.request.a0.toNat ∨ findTables env.md (s.request.a0.setWidth 7) = none) →
      exec .setOpcode s = .next (coded s s.eng .opcodeNotSupported))
    ∧ (RebuildFails s env → s.request.a0.toNat ≤ 127 →
      (∃ tabs, findTables env.md (s.request.a0.setWidth 7) = some tabs) →
      exec .setOpcode s = .next (coded s s.eng .badCompactEncoding))

/-- R442 and R443: the queried bit, with the status word in bits 11..8; nothing changes. -/
def Obligations.StatusQueriesReportTheStatusWord : Prop :=
  ∀ s : State, s.eng.init = true →
    exec .isNativeEncoded s
      = .next (answer s s.eng (BitVec.ofNat 64 (s.eng.ne.toNat + 256 * statusNumber s.eng)) [] [])
    ∧ exec .isCompactEncoded s
      = .next (answer s s.eng (BitVec.ofNat 64 (s.eng.ce.toNat + 256 * statusNumber s.eng)) [] [])

/-! ## Reading fields -/

/-- R208: the two ways to say a fragment's contribution are the same. -/
def Obligations.FragmentContributionsAgree : Prop :=
  ∀ (n : Nat) (ws : Vector Word n) (p : Fragment), fragOk n p = true →
    fragValue (wordAt ws p.wordIndex) p = piece ws p

/-- `GET_RAW_FIELD` of a field with a native position: the OR of its fragments, or its fixed value (R203,
R209, R241, R249). -/
def Obligations.GetRawFieldReadsTheNativeBits : Prop :=
  ∀ (s : State) (env : Env) (w : Vector Word 4) (f : BitVec 16) (t : Terminal), Ready s env →
    Readable s env w → NativeField env w f.toNat t →
    exec (.getRawField f) s = .next (answer s (afterRead s w) (rawValue w t) [] [])

/-- The PROCESSED getters answer what the decode pipeline makes of the field's raw bits, `InvalidValue` where
it fails so: of the native bits where the field has a native position, else of the compact bits of a Valid
compact buffer, else `InvalidField`; a 32-bit getter refuses a value that does not fit (R241 to R248). -/
def Obligations.GettersReadTheProcessedValue : Prop :=
  ∀ (s : State) (env : Env) (f : BitVec 16), Ready s env →
    (∀ w t, Readable s env w → NativeField env w f.toNat t →
      GettersProcess s env f (afterRead s w) t (rawValue w t))
    ∧ ∀ e, NoNativeRead s env f.toNat e →
      (s.eng.cv = false → GettersRaise s f e .invalidField)
      ∧ (s.eng.cv = true →
        (resolve (compactCtx env s.eng.cw) env.md.numberOfFields f.toNat = .ok .absent →
          GettersRaise s f e .invalidField)
        ∧ ∀ t, CompactField env s.eng.cw f.toNat t → GettersProcess s env f e t (rawValue s.eng.cw t))

/-- A field with no native position, or any field where the native buffer cannot be rebuilt, is read from the
compact buffer if that is Valid, else the read ends with `InvalidField` (R241, R243). -/
def Obligations.RawReadsFallBackToTheCompactBuffer : Prop :=
  ∀ (s : State) (env : Env) (f : BitVec 16) (e : Engine), Ready s env → NoNativeRead s env f.toNat e →
    (s.eng.cv = false → exec (.getRawField f) s = .next (coded s e .invalidField))
    ∧ (s.eng.cv = true →
      (resolve (compactCtx env s.eng.cw) env.md.numberOfFields f.toNat = .ok .absent →
        exec (.getRawField f) s = .next (coded s e .invalidField))
      ∧ ∀ t, CompactField env s.eng.cw f.toNat t →
        exec (.getRawField f) s = .next (answer s e (rawValue s.eng.cw t) [] []))

/-- `GET_FIELD_SIZE`: the size of the native entry, else of the compact entry of a Valid buffer, else 0
(R262). -/
def Obligations.GetFieldSizeReportsTheEntrySize : Prop :=
  ∀ (s : State) (env : Env) (f : BitVec 16), Ready s env →
    (∀ w t, Readable s env w → resolve (nativeCtx env w) env.md.numberOfFields f.toNat = .ok (.found t) →
      exec (.getFieldSize f) s = .next (answer s (afterRead s w) (BitVec.ofNat 64 t.bitSize) [] []))
    ∧ ∀ e, NoNativeRead s env f.toNat e →
      (s.eng.cv = false → exec (.getFieldSize f) s = .next (answer s e 0 [] []))
      ∧ (s.eng.cv = true →
        (∀ t, resolve (compactCtx env s.eng.cw) env.md.numberOfFields f.toNat = .ok (.found t) →
          exec (.getFieldSize f) s = .next (answer s e (BitVec.ofNat 64 t.bitSize) [] []))
        ∧ (resolve (compactCtx env s.eng.cw) env.md.numberOfFields f.toNat = .ok .absent →
          exec (.getFieldSize f) s = .next (answer s e 0 [] [])))

/-- R205: a fragment is deferred only for a bit it covers that is not yet written; without a build in
progress a walk finds an entry, finds none, or raises `InternalError`, and no read is deferred. -/
def Obligations.NothingIsDeferredOutsideABuild : Prop :=
  (∀ (n : Nat) (c : Ctx n) (p : Fragment), frag c p = .ok .deferred →
    ∃ u b, c.unwritten = some u ∧ covers p b = true ∧ u.getLsbD b = true)
  ∧ ∀ (n : Nat) (c : Ctx n) (depth : Nat) (f : FieldId), c.unwritten = none →
    ((∃ t, resolve c depth f = .ok (.found t)) ∨ resolve c depth f = .ok .absent
      ∨ resolve c depth f = .error (.raise .internalError))
    ∧ readRaw c depth f ≠ .ok .deferred

/-- R206: on a well-formed ROM no walk of a field, in either buffer, raises an error. -/
def Obligations.WellFormedRomsNeverSpendTheBudget : Prop :=
  ∀ (rom : Rom) (m : Nat) (md : ModelData) (op : BitVec 7) (tabs : OpcodeTables) (sense : MaskSense)
    (nw : Vector Word 4) (cw : Vector Word 2) (f : FieldId),
    romOk rom = true → findModel rom m = some md → findTables md op = some tabs →
    (∃ look, resolve (nativeCtx ⟨md, tabs, sense⟩ nw) md.numberOfFields f = .ok look)
    ∧ ∃ look, resolve (compactCtx ⟨md, tabs, sense⟩ cw) md.numberOfFields f = .ok look

/-! ## Writing fields -/

/-- The bits of a buffer after an insertion: the last fragment that covers a bit decides it, and every
other bit keeps its value (R212, R213). -/
def Obligations.InsertionWritesOnlyTheFragments : Prop :=
  ∀ (n : Nat) (ws : Vector Word n) (ps : List Fragment) (raw : U64), (∀ p ∈ ps, fragOk n p = true) →
    ∃ ws', insertFrags ws ps raw = .ok ws' ∧ ∀ b, b < 32 * n → bitAt ws' b = bitAfterInsert ws ps raw b

/-- R214: extraction after insertion gives back the bits the fragments carry, where the fragments cover
disjoint buffer bits and disjoint value bits. -/
def Obligations.ExtractionAfterInsertion : Prop :=
  ∀ (n : Nat) (ws ws' : Vector Word n) (ps : List Fragment) (raw : U64),
    (∀ p ∈ ps, fragOk n p = true) →
    ps.Pairwise (fun p q => p.highBit < q.lowBit ∨ q.highBit < p.lowBit) →
    ps.Pairwise (fun p q => fragDst p + fragWidth p ≤ fragDst q ∨ fragDst q + fragWidth q ≤ fragDst p) →
    insertFrags ws ps raw = .ok ws' →
    (∀ c : Ctx n, c.words = ws' → c.unwritten = none →
      extractFrags c ps 0 = .ok (.found (raw &&& ps.foldl
        (fun m p => m ||| (BitVec.ofNat 64 (2 ^ fragWidth p - 1) <<< (fragDst p).toNat)) 0)))
      ∧ ∀ b, b < 32 * n → (∀ p ∈ ps, covers p b = false) → bitAt ws' b = bitAt ws b

/-- The setters on an instance of which one buffer alone is Valid (R252 to R254, R257 to R260): the encoded
value goes to the bits of the field's fragments and to no other bit, and the buffer loses its Encoded bit; a
fixed entry admits its own value only and no bit changes; an absent field is `InvalidField`, a value the
encode pipeline rejects is `InvalidValue`. The stale buffer is neither rebuilt nor written. -/
def Obligations.SettersWriteTheEncodedValue : Prop :=
  ∀ (s : State) (env : Env) (i : Instr) (f : BitVec 16) (v : U64), Ready s env →
    setterValue s.request.a0 i = some (f, v) →
    (s.eng.nv = true → s.eng.cv = false →
      (resolve (nativeCtx env s.eng.nw) env.md.numberOfFields f.toNat = .ok .absent →
        exec i s = .next (coded s s.eng .invalidField))
      ∧ ∀ t, NativeField env s.eng.nw f.toNat t → (∀ ps, t.place = .fragments ps → Unprotected ps) →
        (encodePipeline s.maskSense (fieldSignInfo env f.toNat t) t.rs v = .error (.raise .invalidValue) →
          exec i s = .next (coded s s.eng .invalidValue))
        ∧ ∀ raw, encodePipeline s.maskSense (fieldSignInfo env f.toNat t) t.rs v = .ok raw →
          (∀ x, t.place = .fixed x → exec i s = .next
            (if raw = x then answer s { s.eng with ne := false } 0 [] [] else coded s s.eng .invalidValue))
          ∧ ∀ ps, t.place = .fragments ps → ∃ n : Vector Word 4,
            exec i s = .next (answer s { s.eng with nw := n, ne := false } 0 [] [])
            ∧ ∀ b, b < 128 → bitAt n b = bitAfterInsert s.eng.nw ps raw b)
    ∧ (s.eng.nv = false → s.eng.cv = true →
      (resolve (compactCtx env s.eng.cw) env.md.numberOfFields f.toNat = .ok .absent →
        exec i s = .next (coded s s.eng .invalidField))
      ∧ ∀ t, CompactField env s.eng.cw f.toNat t → (∀ ps, t.place = .fragments ps → Unprotected ps) →
        (encodePipeline s.maskSense (fieldSignInfo env f.toNat t) t.rs v = .error (.raise .invalidValue) →
          exec i s = .next (coded s s.eng .invalidValue))
        ∧ ∀ raw, encodePipeline s.maskSense (fieldSignInfo env f.toNat t) t.rs v = .ok raw →
          (∀ x, t.place = .fixed x → exec i s = .next
            (if raw = x then answer s { s.eng with ce := false } 0 [] [] else coded s s.eng .invalidValue))
          ∧ ∀ ps, t.place = .fragments ps → ∃ c : Vector Word 2,
            exec i s = .next (answer s { s.eng with cw := c, ce := false } 0 [] [])
            ∧ ∀ b, b < 64 → bitAt c b = bitAfterInsert s.eng.cw ps raw b)

/-- A write with both buffers Valid commits each buffer it succeeds in and makes the other stale (R253,
R254). -/
def Obligations.WritesCommitEachBufferThatSucceeds : Prop :=
  ∀ (s : State) (env : Env) (i : Instr) (f : BitVec 16) (v : U64), Ready s env → s.eng.nv = true →
    s.eng.cv = true → setterValue s.request.a0 i = some (f, v) →
    (∀ n c, writeIn env (nativeCtx env s.eng.nw) f.toNat v = .ok n →
      writeIn env (compactCtx env s.eng.cw) f.toNat v = .ok c →
      exec i s = .next (answer s { s.eng with nw := n, ne := false, cw := c, ce := false } 0 [] []))
    ∧ (∀ n k, writeIn env (nativeCtx env s.eng.nw) f.toNat v = .ok n →
      writeIn env (compactCtx env s.eng.cw) f.toNat v = .error (.raise k) →
      (k = .invalidField ∨ k = .invalidValue) →
      exec i s = .next (answer s { s.eng with nw := n, ne := false, cv := false, ce := false } 0 [] []))
    ∧ (∀ c k, writeIn env (nativeCtx env s.eng.nw) f.toNat v = .error (.raise k) →
      writeIn env (compactCtx env s.eng.cw) f.toNat v = .ok c → (k = .invalidField ∨ k = .invalidValue) →
      exec i s = .next (answer s { s.eng with nv := false, ne := false, cw := c, ce := false } 0 [] []))
    ∧ (∀ k1 k2, writeIn env (nativeCtx env s.eng.nw) f.toNat v = .error (.raise k1) →
      writeIn env (compactCtx env s.eng.cw) f.toNat v = .error (.raise k2) →
      (k1 = .invalidField ∨ k1 = .invalidValue) → (k2 = .invalidField ∨ k2 = .invalidValue) →
      exec i s = .next (coded s s.eng
        (if k1 = .invalidValue ∨ k2 = .invalidValue then .invalidValue else .invalidField)))

/-- R256: a write whose fragments cover an opcode bit or the compaction-control bit of a Valid native buffer
is refused, and so is one whose fragments cover such a bit of a Valid compact buffer, where the write tried
on a Valid native buffer did not end the command itself. -/
def Obligations.WritesToProtectedBitsAreRefused : Prop :=
  ∀ (s : State) (env : Env) (i : Instr) (f : BitVec 16) (v : U64) (ps : List Fragment) (size : Nat)
    (rs : List Restriction) (p : Fragment) (b : Nat), Ready s env →
    setterValue s.request.a0 i = some (f, v) → p ∈ ps → covers p b = true → (b ≤ 6 ∨ b = 29) →
    (s.eng.nv = true → NativeField env s.eng.nw f.toNat ⟨.fragments ps, size, rs⟩ →
      exec i s = .next (refusal s .protectedBits))
    ∧ (s.eng.cv = true → CompactField env s.eng.cw f.toNat ⟨.fragments ps, size, rs⟩ →
      (s.eng.nv = true → ∀ stop, writeIn env (nativeCtx env s.eng.nw) f.toNat v = .error stop →
        stop = .raise .invalidField ∨ stop = .raise .invalidValue) →
      exec i s = .next (refusal s .protectedBits))

/-- R255: a write that does not succeed leaves every buffer and status bit as it was. -/
def Obligations.FailedWritesChangeNothing : Prop :=
  ∀ (s t : State) (i : Instr) (f : BitVec 16) (v : U64) (r : Response),
    setterValue s.request.a0 i = some (f, v) → exec i s = .next t → answered s t r →
    (∀ x bytes ranges, r ≠ .done .success x bytes ranges) → t.eng = s.eng

/-! ## Restrictions -/

/-- The decode pipeline (R291 to R295). Sign extension comes first; then the restrictions in the order of the list,
each on the value the ones before it left: `Padding` ORs its pattern in, `FieldType` trims all but negative values,
`Enum` gives the slot's value, or `InvalidValue` for a null slot and one past the end; `None`, `Value`, `Range` and
`Mask` make no difference. The only decode failure a restriction's content can cause is that `InvalidValue`; the
pipeline ends with `InternalError` only where the sign width of a signed field or the width of a `FieldType` is out
of its range. Derived: which widths of a `FieldType` count as out of range is the model's reading of R23, R24 and
R291 (log entry 13). -/
def Obligations.DecodeChecksOnlyEnums : Prop :=
  (∀ (rs1 rs2 : List Restriction) (r : Restriction) (raw x y m : U64) (si : SignInfo),
    r = .none ∨ r = .value x ∨ r = .range x y ∨ r = .mask m →
    decodePipeline si (rs1 ++ r :: rs2) raw = decodePipeline si (rs1 ++ rs2) raw)
  ∧ (∀ (n : Nat) (raw : U64),
    decodePipeline ⟨false, n⟩ [] raw = .ok raw
    ∧ (1 ≤ n → n ≤ 64 → decodePipeline ⟨true, n⟩ [] raw
      = .ok (if raw.getLsbD (n - 1) then raw ||| ~~~ (BitVec.ofNat 64 (2 ^ n - 1)) else raw)))
  ∧ (∀ (si : SignInfo) (rs1 rs2 : List Restriction) (raw : U64),
    decodePipeline si (rs1 ++ rs2) raw
      = (match decodePipeline si rs1 raw with
         | .ok v => decodePipeline ⟨false, 0⟩ rs2 v
         | .error stop => .error stop))
  ∧ (∀ (si : SignInfo) (raw v pv pm : U64) (table : List (Option U64)) (bits : Nat) (signed dup : Bool),
    decodePipeline si [] raw = .ok v →
    decodePipeline si [.padding pv pm] raw = .ok (v ||| pv)
    ∧ (∀ x, table[v.toNat]? = some (some x) → decodePipeline si [.enum table] raw = .ok x)
    ∧ ((∀ x, table[v.toNat]? ≠ some (some x)) →
      decodePipeline si [.enum table] raw = .error (.raise .invalidValue))
    ∧ (bits ≤ 64 → (signed = true → 1 ≤ bits) → decodePipeline si [.fieldType bits signed dup] raw
      = .ok (if signed = true ∧ v.getLsbD 63 = true then v else v &&& BitVec.ofNat 64 (2 ^ bits - 1))))
  ∧ ∀ (rs : List Restriction) (raw : U64) (si : SignInfo) (stop : Stop),
    decodePipeline si rs raw = .error stop →
    (stop = .raise .invalidValue ∧ ∃ table, Restriction.enum table ∈ rs)
    ∨ (stop = .raise .internalError
      ∧ ((si.signed = true ∧ (si.width = 0 ∨ 64 < si.width))
        ∨ ∃ bits signed dup, Restriction.fieldType bits signed dup ∈ rs
          ∧ ((signed = true ∧ bits = 0) ∨ 64 < bits)))

/-- The bound check on encode of a field with no restrictions, that is with none that is not `None`: the
two's-complement range of the width for a signed field, `0 .. MaxValue` for an unsigned one, and `InternalError`
for a width outside 1 to 64, or outside 0 to 64 (R300). -/
def Obligations.UnrestrictedWritesAreBounded : Prop :=
  ∀ (sense : MaskSense) (n : Nat) (rs : List Restriction) (v : U64), (∀ r ∈ rs, r = .none) →
    (1 ≤ n → n ≤ 64 → encodePipeline sense ⟨true, n⟩ rs v
      = (if -(2 ^ (n - 1)) ≤ v.toInt ∧ v.toInt < 2 ^ (n - 1) then .ok (v &&& BitVec.ofNat 64 (2 ^ n - 1))
         else .error (.raise .invalidValue)))
    ∧ (n ≤ 64 → encodePipeline sense ⟨false, n⟩ rs v
      = (if v.toNat < 2 ^ n then .ok v else .error (.raise .invalidValue)))
    ∧ ∀ signed, ((signed = true ∧ n = 0) ∨ 64 < n) →
      encodePipeline sense ⟨signed, n⟩ rs v = .error (.raise .internalError)

/-- A sole `Enum` encodes a value as the least slot that holds it, and fails if none does (R300, R306). -/
def Obligations.EnumEncodesAsTheLeastSlot : Prop :=
  ∀ (sense : MaskSense) (si : SignInfo) (table : List (Option U64)) (v : U64),
    (∀ k : Nat, table[k]? = some (some v) → (∀ j : Nat, j < k → table[j]? ≠ some (some v)) →
      encodePipeline sense si [.enum table] v = .ok (BitVec.ofNat 64 k))
    ∧ ((∀ k : Nat, table[k]? ≠ some (some v)) →
      encodePipeline sense si [.enum table] v = .error (.raise .invalidValue))

/-- The restrictions on encode (R300 to R307). Each content restriction alone in its list, the two senses of
`Mask` among them, and a `FieldType` alone: the values it accepts and the raw value it gives, duplicated or not.
Of two slots that are no `Enum` the second sees what the first left, `None` slots are skipped, and slots past
the second are ignored (R301). An `Enum` that is not sole, or not first, is `InternalError` (R511). Which
widths of a `FieldType` are `InternalError` too is the model's reading of R23 and R511 (log entry 13). -/
def Obligations.ContentRestrictionsOnEncode : Prop :=
  (∀ (si : SignInfo) (sense : MaskSense) (v x lo hi m pv pm : U64),
    encodePipeline sense si [.value x] v = (if v = x then .ok v else .error (.raise .invalidValue))
    ∧ encodePipeline sense si [.range lo hi] v
      = (if (if si.signed then lo.toInt ≤ v.toInt ∧ v.toInt ≤ hi.toInt
             else lo.toInt ≤ v.toNat ∧ (v.toNat : Int) ≤ hi.toInt) then .ok v
         else .error (.raise .invalidValue))
    ∧ encodePipeline .forbiddenBits si [.mask m] v
      = (if v &&& m = 0 then .ok v else .error (.raise .invalidValue))
    ∧ encodePipeline .allowedBits si [.mask m] v
      = (if v &&& ~~~ m = 0 then .ok v else .error (.raise .invalidValue))
    ∧ encodePipeline sense si [.padding pv pm] v
      = (if v &&& pm = pv then .ok v else .error (.raise .invalidValue)))
  ∧ (∀ (si : SignInfo) (sense : MaskSense) (bits : Nat) (dup : Bool) (v : U64),
    (1 ≤ bits → bits ≤ 64 → encodePipeline sense si [.fieldType bits true dup] v
      = (if -(2 ^ (bits - 1)) ≤ v.toInt ∧ v.toInt < 2 ^ (bits - 1) then
           .ok (if dup then (v &&& BitVec.ofNat 64 (2 ^ bits - 1)) ||| ((v &&& BitVec.ofNat 64 (2 ^ bits - 1)) <<< bits)
                else v &&& BitVec.ofNat 64 (2 ^ bits - 1))
         else .error (.raise .invalidValue)))
    ∧ (bits ≤ 64 → encodePipeline sense si [.fieldType bits false dup] v
      = (if v.toNat < 2 ^ bits then .ok (if dup then v ||| (v <<< bits) else v)
         else .error (.raise .invalidValue)))
    ∧ ∀ signed, (64 < bits ∨ (signed = true ∧ bits = 0)) →
      encodePipeline sense si [.fieldType bits signed dup] v = .error (.raise .internalError))
  ∧ (∀ (si : SignInfo) (sense : MaskSense) (r1 r2 : Restriction) (rest : List Restriction) (v : U64),
    isEnum r1 = false → isEnum r2 = false →
    (isNone r1 = false → isNone r2 = false → encodePipeline sense si (r1 :: r2 :: rest) v
      = (match encodePipeline sense si [r1] v with
         | .ok v' => encodePipeline sense si [r2] v'
         | .error stop => .error stop))
    ∧ (isNone r1 = true → isNone r2 = false →
      encodePipeline sense si (r1 :: r2 :: rest) v = encodePipeline sense si [r2] v)
    ∧ (isNone r1 = false → isNone r2 = true →
      encodePipeline sense si (r1 :: r2 :: rest) v = encodePipeline sense si [r1] v)
    ∧ (isNone r1 = true → isNone r2 = true → rest.all isNone = false →
      encodePipeline sense si (r1 :: r2 :: rest) v = .ok v))
  ∧ ∀ (si : SignInfo) (sense : MaskSense) (table : List (Option U64)) (r : Restriction) (rest : List Restriction)
      (v : U64),
    (rest.all isNone = true →
      encodePipeline sense si (.enum table :: rest) v = encodePipeline sense si [.enum table] v)
    ∧ (rest.all isNone = false →
      encodePipeline sense si (.enum table :: rest) v = .error (.raise .internalError))
    ∧ (isEnum r = false → (isNone r = true ∨ ∃ v', encodePipeline sense si [r] v = .ok v') →
      encodePipeline sense si (r :: .enum table :: rest) v = .error (.raise .internalError))
    ∧ (isEnum r = false → isNone r = false → ∀ stop, encodePipeline sense si [r] v = .error stop →
      encodePipeline sense si (r :: .enum table :: rest) v = .error stop)

/-- A value a field with no restriction, with a `FieldType` or with a sole `Enum` accepts comes back from the decode
pipeline (R308 items a to c); for the `Enum`, where the index is one that the field's sign extension leaves as it is,
as every index is in an unsigned field. -/
def Obligations.AcceptedValuesDecodeBack : Prop :=
  (∀ (sense : MaskSense) (signed dup : Bool) (bits : Nat) (si : SignInfo) (v raw : U64), 1 ≤ bits → bits ≤ 64 →
    (dup = true → 2 * bits ≤ 64) →
    (encodePipeline sense ⟨signed, bits⟩ [] v = .ok raw → decodePipeline ⟨signed, bits⟩ [] raw = .ok v)
    ∧ (encodePipeline sense si [.fieldType bits signed dup] v = .ok raw →
      decodePipeline ⟨signed, bits⟩ [.fieldType bits signed dup] raw = .ok v))
  ∧ ∀ (sense : MaskSense) (si : SignInfo) (table : List (Option U64)) (v raw : U64), table.length ≤ 2 ^ 64 →
    encodePipeline sense si [.enum table] v = .ok raw → decodePipeline si [] raw = .ok raw →
    decodePipeline si [.enum table] raw = .ok v

/-! ## Compaction and decompaction -/

/-- A build that ends applies every field exactly once, in the order it answers, and its result is what those
applications in turn make of the start; one in which some field stays deferred whatever the others write
fails with `BadCompactEncoding` (R333, R334). -/
def Obligations.BuildsApplyEveryFieldOnceOrFail : Prop :=
  ∀ (σ : Type) (fields : Nat) (apply : FieldId → σ → Res (Option σ)) (start : σ),
    (∀ final order, runFixedPoint fields apply start = .ok (final, order) →
      order.Perm (List.range fields) ∧ Replay apply order start final)
    ∧ ∀ f, f < fields → (∀ g t, ∃ r, apply g t = .ok r) → (∀ t, apply f t = .ok none) →
      runFixedPoint fields apply start = .error (.raise .badCompactEncoding)

/-- After decompaction a native bit is 0 unless a fragment of the mapping that some field resolved to when it
was applied covers it, and 0 in any case where no fragment of any entry of the map covers it; bit 29 is 0
(R343, R344). -/
def Obligations.DecompactionLeavesUnmappedBitsZero : Prop :=
  ∀ (env : Env) (maps : List MapEntry) (cw : Vector Word 2) (nw : Vector Word 4),
    env.tabs.compaction = some maps → buildNative env cw = .ok nw →
    bitAt nw 29 = false
    ∧ (∀ b, b < 128 →
        (∀ e ∈ maps, ∀ m ∈ mapTerminals e, ∀ mf ∈ mapFrags m, b < mf.dstLow ∨ mf.dstHigh < b) →
        bitAt nw b = false)
    ∧ ∃ t order, decompact env maps cw = .ok (t, order) ∧
      ∀ b, b < 128 → bitAt nw b = true →
        ∃ before f after tf m mf, order = before ++ f :: after
          ∧ Replay (buildStep env (nativeTarget env) maps (applyDecompact env cw)) before (Target.fresh 4) tf
          ∧ resolveMap env (nativeTarget env tf) maps f = .ok (.found m)
          ∧ mf ∈ mapFrags m ∧ mf.dstLow ≤ b ∧ b ≤ mf.dstHigh

/-- Gathering what was scattered gives back the source bits the fragments carry, where the fragments'
native ranges are disjoint (R341, R345, R351, R355, R359). -/
def Obligations.GatherAfterScatter : Prop :=
  ∀ (t t' : Target 4) (frags : List MapFragment) (x : U64), (∀ mf ∈ frags, mapFragOk mf = true) →
    frags.Pairwise (fun a b => a.dstHigh < b.dstLow ∨ b.dstHigh < a.dstLow) →
    scatterAll t frags x = .ok t' →
    gatherAll t'.words frags 0 = .ok (x &&& frags.foldl (fun m mf =>
      if mf.type = .fixed then m
      else m ||| (BitVec.ofNat 64 (2 ^ (mf.srcHi - mf.srcLo + 1) - 1) <<< mf.srcLo)) 0)

/-- The index a gathered value is compacted to is the least whose entry matches under the or-mask, and
there is no compact form if none matches or the index does not fit the source mask (R351, R352, R356).
Where forms are counted, the candidates are all matching indices that fit the source mask, ascending, and
the first is used (R360); that there is no compact form if there is none is the model's choice (log
entry 12). -/
def Obligations.CompactionUsesTheLeastMatchingIndex : Prop :=
  ∀ (frags : List MapFragment) (sm om x : U64) (table : CompactionTable),
    (∀ k y, table.entries[k]? = some y → y ||| om = x ||| om →
      (∀ j z, j < k → table.entries[j]? = some z → z ||| om ≠ x ||| om) →
      (compactValue false (.index frags sm table om) x).map (·.1)
        = if BitVec.ofNat 64 k &&& ~~~ sm = 0 then .ok (BitVec.ofNat 64 k) else .error (.raise .noCompactForm))
    ∧ ((∀ y ∈ table.entries, y ||| om ≠ x ||| om) →
      compactValue false (.index frags sm table om) x = .error (.raise .noCompactForm))
    ∧ compactValue true (.index frags sm table om) x
      = match candidateIndices table.entries sm om x with
        | [] => .error (.raise .noCompactForm)
        | i :: rest => .ok (BitVec.ofNat 64 i, some (i :: rest))

/-- The builders fail only with the codes the rules name: decompaction with `BadCompactEncoding`,
compaction with `NoCompactForm` or `BadCompactEncoding`, either with `InternalError` (R334, R340, R350,
R354). -/
def Obligations.BuildersFailOnlyByTheirCodes : Prop :=
  ∀ (env : Env) (nw : Vector Word 4) (cw : Vector Word 2) (stop : Stop),
    (buildNative env cw = .error stop → stop = .raise .badCompactEncoding ∨ stop = .raise .internalError)
    ∧ (buildCompact env nw = .error stop →
      stop = .raise .noCompactForm ∨ stop = .raise .badCompactEncoding ∨ stop = .raise .internalError)

/-! ## Masks -/

/-- One masks step on each word the format has: OR first, then AND; applied twice it does no more (R392,
R393, R394). The whole pass outside a build: the groups in list order on the words the ones before them
left, up to a top-level `NoMasks`, or to a failed dependee or missing slot, which keeps the groups already
applied; it fails only with `InternalError` (R390, R391). -/
def Obligations.MaskStepsAreOrThenAnd : Prop :=
  (∀ (n : Nat) (ws : Vector Word n) (o a : Vector Word 4),
    (∀ i, i < n → wordAt (maskWords ws o a) i = (wordAt ws i ||| wordAt o i) &&& wordAt a i)
    ∧ maskWords (maskWords ws o a) o a = maskWords ws o a)
  ∧ ∀ (n : Nat) (c : Ctx n) (gs : List MaskEntry) (ws : Vector Word n), c.unwritten = none →
    (∀ ws', applyMasks c gs ws = .ok ws' ↔ PassGives c gs ws ws')
    ∧ ∀ stop, applyMasks c gs ws = .error stop → stop = .raise .internalError

/-! ## Validation mode -/

/-- `COUNT_COMPACTED`: the product of the candidate counts of the index-mapped fields of the scratch build, one
for each field of the build's order whose mapping is an `IndexMapping` at its turn; only the native preparation
is kept, and it is kept too where the scratch build fails, which ends the command with its code (R360, R505 item
3). A stale native buffer whose rebuild fails changes nothing (R433). That a build in which some field has no
candidate fails is the model's choice (log entry 12). -/
def Obligations.CountCompactedCountsTheForms : Prop :=
  ∀ (s : State) (env : Env), Ready s env → s.validationMode = true →
    (∀ w m, MaskedWords s env w m →
      (∀ t, buildCompactTarget env true m = .ok t →
        (∃ maps order b, env.tabs.compaction = some maps ∧ order.Perm (List.range env.md.numberOfFields)
          ∧ PicksAlong env maps m order (Target.fresh 2) b t.picks
          ∧ ∀ k, k < 64 → k ≠ 29 → bitAt t.words k = bitAt b.words k)
        ∧ ((t.picks.map (·.candidates.length)).prod < 2 ^ 64 →
          exec .countCompacted s = .next (answer s { s.eng with nw := m, nv := true, ne := true }
            (BitVec.ofNat 64 (t.picks.map (·.candidates.length)).prod) [] [])))
      ∧ ∀ c, buildCompactTarget env true m = .error (.raise c) → c ≠ .internalError →
        exec .countCompacted s = .next (coded s { s.eng with nw := m, nv := true, ne := true } c))
    ∧ (RebuildFails s env → exec .countCompacted s = .next (coded s s.eng .badCompactEncoding))

/-- `RETRIEVE_ALL_COMPACTED_FORMATS`: every form's eight bytes, in the odometer's order, if the output buffer
holds them all, else `BufferTooShort`. A form is the scratch words with its indices written through the
fields' compact fragments, after the compact masks (R85, R361, R362). Where the scratch build fails, its code,
with the native preparation kept (R505 item 3); a stale native buffer whose rebuild fails changes nothing. -/
def Obligations.RetrieveDeliversEightBytesPerForm : Prop :=
  ∀ (s : State) (env : Env), Ready s env → s.validationMode = true →
    (∀ w m, MaskedWords s env w m →
      (∀ t bytes, buildCompactTarget env true m = .ok t → allForms env t (combinations t.picks) = .ok bytes →
        (t.picks.map (·.candidates.length)).prod < 2 ^ 64 →
        bytes.length = 8 * (t.picks.map (·.candidates.length)).prod
        ∧ (∀ k, k < (t.picks.map (·.candidates.length)).prod → ∃ c form : Vector Word 2,
          ChoicesInserted t.picks (formChoice t.picks k) t.words c ∧ applyCompactMasks env c = .ok form
          ∧ (bytes.drop (8 * k)).take 8 = (List.range 8).map (byteAt form))
        ∧ (bytes.length ≤ s.request.outCap →
          exec .retrieveAllCompactedFormats s = .next (answer s { s.eng with nw := m, nv := true, ne := true }
            (BitVec.ofNat 64 (t.picks.map (·.candidates.length)).prod) bytes []))
        ∧ (s.request.outCap < bytes.length →
          exec .retrieveAllCompactedFormats s
            = .next (coded s { s.eng with nw := m, nv := true, ne := true } .bufferTooShort)))
      ∧ ∀ c, buildCompactTarget env true m = .error (.raise c) → c ≠ .internalError →
        exec .retrieveAllCompactedFormats s = .next (coded s { s.eng with nw := m, nv := true, ne := true } c))
    ∧ (RebuildFails s env → exec .retrieveAllCompactedFormats s = .next (coded s s.eng .badCompactEncoding))

/-- R520: outside validation mode both commands are refused (in a state that meets the status invariant), as
not in this build where the instance is set up. -/
def Obligations.ValidationCommandsNeedValidationMode : Prop :=
  ∀ s : State, s.statusInv → s.validationMode = false →
    ∃ why, exec .countCompacted s = .next (refusal s why)
      ∧ exec .retrieveAllCompactedFormats s = .next (refusal s why)
      ∧ (s.eng.init = true → why = .notInThisBuild)

/-! ## Bit locations and interpreters -/

/-- The bit-location commands: nonempty ranges in rising order with gaps between them that hold exactly the
native bits the field's fragments cover, none for a fixed value, and no bytes; `InvalidField` for a field that
a read does not find in the native buffer (R445, R446). -/
def Obligations.BitLocationsCoverTheFieldsBits : Prop :=
  ∀ (s : State) (env : Env) (f : BitVec 16), Ready s env →
    (∀ w t, Readable s env w → NativeField env w f.toNat t →
      ∃ ranges : List (Nat × Nat),
        exec (.queryFieldBitLocation f) s = .next (answer s (afterRead s w) 0 [] ranges)
        ∧ exec (.printFieldBitLocation f) s = .next (answer s (afterRead s w) 0 [] ranges)
        ∧ (∀ r ∈ ranges, r.1 ≤ r.2)
        ∧ (∀ x, t.place = .fixed x → ranges = [])
        ∧ ranges.Pairwise (fun a b => a.2 + 1 < b.1)
        ∧ ∀ b, (∃ r ∈ ranges, r.1 ≤ b ∧ b ≤ r.2)
            ↔ (∃ ps p, t.place = .fragments ps ∧ p ∈ ps ∧ covers p b = true))
    ∧ ∀ e, NoNativeRead s env f.toNat e →
      exec (.queryFieldBitLocation f) s = .next (coded s e .invalidField)
      ∧ exec (.printFieldBitLocation f) s = .next (coded s e .invalidField)

/-- `INTERPRET_POSITION`: the base field's raw value, native or compact, re-sliced, and decoded where the
descriptor has restrictions, `InvalidValue` where that fails so; `InvalidField` for an id past the list and for
a base field that is in neither buffer (R411, R412, R416). -/
def Obligations.InterpretPositionReslicesTheRawValue : Prop :=
  ∀ (s : State) (env : Env) (p : BitVec 16), Ready s env →
    (env.md.positionInterpreters[p.toNat]? = none →
      exec (.interpretPosition p) s = .next (coded s s.eng .invalidField))
    ∧ ∀ d, env.md.positionInterpreters[p.toNat]? = some d →
      (∀ e, NoRead s env d.base e → exec (.interpretPosition p) s = .next (coded s e .invalidField))
      ∧ ∀ e raw, RawRead s env d.base e raw → (∀ q ∈ d.frags, fragOk 2 q = true) →
        (d.rs = none → exec (.interpretPosition p) s = .next (answer s e
          (fieldBits #v[raw.extractLsb' 0 32, raw.extractLsb' 32 32] d.frags) [] []))
        ∧ ∀ rs, d.rs = some rs →
          (∀ v, decodePipeline (signInfo d.signed d.bitSize rs) rs
              (fieldBits #v[raw.extractLsb' 0 32, raw.extractLsb' 32 32] d.frags) = .ok v →
            exec (.interpretPosition p) s = .next (answer s e v [] []))
          ∧ (decodePipeline (signInfo d.signed d.bitSize rs) rs
              (fieldBits #v[raw.extractLsb' 0 32, raw.extractLsb' 32 32] d.frags) = .error (.raise .invalidValue) →
            exec (.interpretPosition p) s = .next (coded s e .invalidValue))

/-- `REINTERPRET_ENUM`: the source field's raw value, native or compact, looked up; a null or missing slot is
`InvalidValue`; `InvalidField` for an id past the list and for a source field that is in neither buffer (R413,
R414, R416). -/
def Obligations.ReinterpretEnumLooksUpTheRawValue : Prop :=
  ∀ (s : State) (env : Env) (r : BitVec 16), Ready s env →
    (env.md.enumReinterpreters[r.toNat]? = none →
      exec (.reinterpretEnum r) s = .next (coded s s.eng .invalidField))
    ∧ ∀ d, env.md.enumReinterpreters[r.toNat]? = some d →
      (∀ e, NoRead s env d.source e → exec (.reinterpretEnum r) s = .next (coded s e .invalidField))
      ∧ ∀ e raw, RawRead s env d.source e raw →
        (∀ v, d.table[raw.toNat]? = some (some v) → exec (.reinterpretEnum r) s = .next (answer s e v [] []))
        ∧ ((∀ v, d.table[raw.toNat]? ≠ some (some v)) →
          exec (.reinterpretEnum r) s = .next (coded s e .invalidValue))

/-- `COLLECT_FIELDS`: the OR of the parts' raw values at their offsets, each part native or compact, and 0
without parts; `InvalidField` for an id past the list, and as a whole where a part is in neither buffer (R415,
R416). -/
def Obligations.CollectFieldsOrsItsParts : Prop :=
  ∀ (s : State) (env : Env) (k : BitVec 16), Ready s env →
    (env.md.collectors[k.toNat]? = none → exec (.collectFields k) s = .next (coded s s.eng .invalidField))
    ∧ ∀ d, env.md.collectors[k.toNat]? = some d →
      (d.parts = [] → exec (.collectFields k) s = .next (answer s s.eng 0 [] []))
      ∧ ∀ (e : Engine) (raw : FieldId → U64),
        (d.parts ≠ [] → (∀ part ∈ d.parts, RawRead s env part.1 e (raw part.1)) →
          exec (.collectFields k) s = .next (answer s e
            (d.parts.foldl (fun v part => v ||| (raw part.1 <<< part.2)) 0) [] []))
        ∧ ∀ before part after, d.parts = before ++ part :: after →
          (∀ q ∈ before, RawRead s env q.1 e (raw q.1)) → NoRead s env part.1 e →
          exec (.collectFields k) s = .next (coded s e .invalidField)
end

