-- ==== Sys2Proof/Laws/Bits.lean ====
section
/-! SUPPORT. What the bit-field helpers do, bit by bit. -/

namespace Sys2Proof.Laws

open Sys2Proof Sys2Proof.Machine

/-- `maxValue n` has its low `n` bits set. -/
theorem getLsbD_maxValue (n i : Nat) : (maxValue n).getLsbD i = (decide (i < 64) && decide (i < n)) := by
  simp [maxValue, BitVec.getLsbD_ofNat]

/-- `ones n` has its low `n` bits set. -/
theorem getLsbD_ones (n i : Nat) : (ones n).getLsbD i = (decide (i < 32) && decide (i < n)) := by
  simp [ones, BitVec.getLsbD_ofNat]

/-- A bit range of a word as a value. -/
theorem getLsbD_getBits (w : Word) (lo width i : Nat) :
    (getBits w lo width).getLsbD i = (decide (i < width) && w.getLsbD (lo + i)) := by
  have h : ∀ j, 32 ≤ j → w.getLsbD j = false := fun j hj => BitVec.getLsbD_of_ge w j hj
  simp only [getBits, BitVec.getLsbD_setWidth, BitVec.getLsbD_and, BitVec.getLsbD_ushiftRight, getLsbD_ones]
  by_cases h1 : i < 32
  · by_cases h2 : i < width <;> simp [h1, h2]; omega
  · have h3 := h (lo + i) (by omega)
    simp [h3]

/-- A bit range of a word replaced: its bits come from the value, every other bit stays. -/
theorem getLsbD_putBits (w : Word) (lo width : Nat) (x : U64) (i : Nat) :
    (putBits w lo width x).getLsbD i
      = if lo ≤ i ∧ i < lo + width ∧ i < 32 then x.getLsbD (i - lo) else w.getLsbD i := by
  have hw : ∀ j, 32 ≤ j → w.getLsbD j = false := fun j hj => BitVec.getLsbD_of_ge w j hj
  simp only [putBits, BitVec.getLsbD_or, BitVec.getLsbD_and, BitVec.getLsbD_not, BitVec.getLsbD_shiftLeft,
    BitVec.getLsbD_setWidth, getLsbD_ones]
  by_cases h1 : i < 32
  · by_cases h2 : lo ≤ i
    · by_cases h3 : i < lo + width
      · have h4 : i - lo < width := by omega
        have h5 : i - lo < 32 := by omega
        have h6 : ¬ i < lo := by omega
        simp [h1, h2, h3, h4, h5, h6]
      · have h4 : ¬ (i - lo < width) := by omega
        simp [h1, h2, h3, h4]
    · have h3 : i < lo := by omega
      simp [h1, h2, h3]
  · have h4 := hw i (by omega)
    simp [h1, h4]

/-- Reading a word after writing one. -/
theorem wordAt_setWord {n : Nat} (ws : Vector Word n) (i j : Nat) (x : Word) (hi : i < n) :
    wordAt (setWord ws i x) j = if j = i then x else wordAt ws j := by
  simp only [wordAt, setWord, Vector.getElem?_setIfInBounds]
  by_cases h : i = j
  · subst h; simp [hi]
  · have h' : ¬ j = i := fun e => h e.symm
    simp [h, h']

/-- Writing past a buffer's end changes nothing. -/
theorem setWord_of_ge {n : Nat} (ws : Vector Word n) (i : Nat) (x : Word) (hi : n ≤ i) : setWord ws i x = ws := by
  apply Vector.ext
  intro k hk
  have h : ¬ i = k := by omega
  simp [setWord, h]

/-- One bit of a buffer after a word is written. -/
theorem bitAt_setWord {n : Nat} (ws : Vector Word n) (i : Nat) (x : Word) (b : Nat) (hi : i < n) :
    bitAt (setWord ws i x) b = if b / 32 = i then x.getLsbD (b % 32) else bitAt ws b := by
  simp only [bitAt, wordAt_setWord ws i _ x hi]
  split <;> rfl

/-- One bit of a buffer after a bit range inside one word is replaced. -/
theorem bitAt_putRange {n : Nat} (ws : Vector Word n) (lo hi : Nat) (x : U64) (b : Nat) (hlh : lo ≤ hi)
    (hword : lo / 32 = hi / 32) (hn : hi < 32 * n) :
    bitAt (setWord ws (lo / 32) (putBits (wordAt ws (lo / 32)) (lo % 32) (hi - lo + 1) x)) b
      = if lo ≤ b ∧ b ≤ hi then x.getLsbD (b - lo) else bitAt ws b := by
  rw [bitAt_setWord _ _ _ _ (by omega)]
  by_cases h1 : b / 32 = lo / 32
  · rw [if_pos h1, getLsbD_putBits]
    by_cases h2 : lo ≤ b ∧ b ≤ hi
    · rw [if_pos h2, if_pos (by omega)]
      congr 1
      omega
    · rw [if_neg h2, if_neg (by omega)]
      simp only [bitAt, h1]
  · rw [if_neg h1, if_neg (by omega)]

/-- Two buffers with the same bits are equal. -/
theorem words_ext {n : Nat} {ws vs : Vector Word n} (h : ∀ b, b < 32 * n → bitAt ws b = bitAt vs b) : ws = vs := by
  ext i hi j hj
  have := h (32 * i + j) (by omega)
  simp only [bitAt, wordAt] at this
  have e1 : (32 * i + j) / 32 = i := by omega
  have e2 : (32 * i + j) % 32 = j := by omega
  simp only [Config.wordBits] at this
  rw [e1, e2] at this
  simpa [hi, BitVec.getLsbD_eq_getElem, hj] using this

/-- The bits of a map that a range covers. -/
theorem getLsbD_bitRange (m lo hi b : Nat) (h : lo ≤ hi) :
    (bitRange m lo hi).getLsbD b = (decide (b < m) && decide (lo ≤ b) && decide (b ≤ hi)) := by
  simp only [bitRange, BitVec.getLsbD_shiftLeft, BitVec.getLsbD_ofNat, Nat.testBit_two_pow_sub_one]
  by_cases h1 : b < m
  · by_cases h2 : lo ≤ b
    · have h3 : ¬ b < lo := by omega
      have h4 : b - lo < m := by omega
      simp [h1, h2, h3, h4]; omega
    · have h3 : b < lo := by omega
      simp [h2, h3]
  · simp [h1]

/-- The compaction-control bit of word 0 is written, and no other bit. -/
theorem bitAt_setCmptCtrl {n : Nat} (ws : Vector Word n) (v : Bool) (b : Nat) (hn : 0 < n) :
    bitAt (setCmptCtrl ws v) b = if b = 29 then v else bitAt ws b := by
  have := bitAt_putRange ws 29 29 (if v then 1 else 0) b (by omega) rfl (by omega)
  simp only [setCmptCtrl]
  refine this.trans ?_
  by_cases h : b = 29
  · subst h; cases v <;> simp
  · rw [if_neg (by omega), if_neg h]

/-- The opcode bits of word 0 are written, and no other bit. -/
theorem bitAt_setOpcodeBits {n : Nat} (ws : Vector Word n) (op : BitVec 7) (b : Nat) (hn : 0 < n) :
    bitAt (setOpcodeBits ws op) b = if b ≤ 6 then op.getLsbD b else bitAt ws b := by
  have := bitAt_putRange ws 0 6 (op.setWidth 64) b (by omega) rfl (by omega)
  simp only [setOpcodeBits]
  refine this.trans ?_
  by_cases h : b ≤ 6
  · simp [h]; intro h'; omega
  · simp [h]

/-- Bit 29 of word 0 as a bit of the buffer. -/
theorem cmptCtrl_wordAt {n : Nat} (ws : Vector Word n) : cmptCtrl (wordAt ws 0) = bitAt ws 29 := rfl

end Sys2Proof.Laws
end

