-- ==== Sys2Proof/Laws/Operands.lean ====
section
/-! SUPPORT. Fragments, the chain walk, extraction and insertion: one lemma for what each can do. -/

namespace Sys2Proof.Laws

open Sys2Proof Sys2Proof.Machine

/-- What a well-formed fragment is, as propositions (R130). -/
theorem fragOk_iff (n : Nat) (p : Fragment) : fragOk n p = true ↔
    p.lowBit ≤ p.highBit ∧ p.lowBit / 32 = p.wordIndex ∧ p.highBit / 32 = p.wordIndex ∧ p.wordIndex < n
      ∧ 0 ≤ fragDst p ∧ fragDst p + fragWidth p ≤ 64 := by
  simp [fragOk, and_assoc, Config.wordBits, Config.maxFieldBits]

/-- One fragment inserted: the fragment's bits come from the value, every other bit stays (R212). -/
theorem insertFrag_spec {n : Nat} (ws : Vector Word n) {p : Fragment} (raw : U64) (hp : fragOk n p = true) :
    ∃ ws', insertFrag ws p raw = .ok ws' ∧ ∀ b, bitAt ws' b
      = if p.lowBit ≤ b ∧ b ≤ p.highBit then raw.getLsbD ((fragDst p).toNat + (b - p.lowBit)) else bitAt ws b := by
  obtain ⟨h1, h2, h3, h4, -, -⟩ := (fragOk_iff n p).1 hp
  refine ⟨_, by simp only [insertFrag, hp]; rfl, fun b => ?_⟩
  have := bitAt_putRange ws p.lowBit p.highBit (raw >>> (fragDst p).toNat) b h1 (by omega) (by omega)
  have hl : fragLow p = p.lowBit % 32 := by simp only [fragLow, Config.wordBits]; omega
  rw [hl, ← h2, show fragWidth p = p.highBit - p.lowBit + 1 from rfl, this]
  simp

/-- A malformed fragment is never inserted (R200). -/
theorem insertFrag_malformed {n : Nat} (ws : Vector Word n) {p : Fragment} (raw : U64) (hp : fragOk n p = false) :
    insertFrag ws p raw = broken := by
  simp [insertFrag, hp]

/-- Well-formed fragments are always inserted. -/
theorem insertFrags_ok {n : Nat} (ps : List Fragment) (raw : U64) :
    ∀ ws : Vector Word n, (∀ p ∈ ps, fragOk n p = true) → ∃ ws', insertFrags ws ps raw = .ok ws' := by
  induction ps with
  | nil => exact fun ws _ => ⟨ws, rfl⟩
  | cons p ps ih =>
    intro ws h
    obtain ⟨w1, h1, -⟩ := insertFrag_spec ws raw (h p (by simp))
    obtain ⟨w2, h2⟩ := ih w1 fun q hq => h q (by simp [hq])
    exact ⟨w2, by simp only [insertFrags, h1, h2]⟩

/-- Insertion changes no bit outside the fragments (R212, R213). -/
theorem insertFrags_frame {n : Nat} (ps : List Fragment) (raw : U64) (b : Nat) :
    ∀ ws ws' : Vector Word n, insertFrags ws ps raw = .ok ws' →
      (∀ p ∈ ps, ¬(p.lowBit ≤ b ∧ b ≤ p.highBit)) → bitAt ws' b = bitAt ws b := by
  induction ps with
  | nil => intro ws ws' h _; simp only [insertFrags, Except.ok.injEq] at h; rw [h]
  | cons p ps ih =>
    intro ws ws' h hb
    by_cases hp : fragOk n p = true
    · obtain ⟨w1, h1, hbit⟩ := insertFrag_spec ws raw hp
      simp only [insertFrags, h1] at h
      rw [ih w1 ws' h fun q hq => hb q (by simp [hq]), hbit, if_neg (hb p (by simp))]
    · simp [insertFrags, insertFrag_malformed ws raw (by simpa using hp), broken, fail] at h

/-- Where no build is in progress, well-formed fragments are extracted, each OR-ed to what came before
(R208, R209). -/
theorem extractFrags_settled {n : Nat} (c : Ctx n) (hu : c.unwritten = none) (ps : List Fragment) :
    ∀ acc : U64, (∀ p ∈ ps, fragOk n p = true) →
      extractFrags c ps acc
        = .ok (.found (ps.foldl (fun v p => v ||| fragValue (wordAt c.words p.wordIndex) p) acc)) := by
  induction ps with
  | nil => intro acc _; rfl
  | cons p ps ih =>
    intro acc h
    have hp := h p (by simp)
    have hf : frag c p = .ok (.found (fragValue (wordAt c.words p.wordIndex) p)) := by
      simp [frag, hp, rangeUnwritten, hu]
    simp only [extractFrags, hf, List.foldl_cons]
    exact ih _ fun q hq => h q (by simp [hq])

/-- Extraction never finds a field absent: it finds bits, defers, or meets a malformed fragment. -/
theorem extractFrags_not_absent {n : Nat} (c : Ctx n) (ps : List Fragment) :
    ∀ acc : U64, extractFrags c ps acc ≠ .ok .absent := by
  induction ps with
  | nil => intro acc; simp [extractFrags]
  | cons p ps ih =>
    intro acc
    simp only [extractFrags]
    cases hf : frag c p with
    | error e => simp
    | ok look =>
      cases look with
      | found x => exact ih _
      | absent => simp only [frag, broken, fail] at hf; split at hf <;> (try split at hf) <;> simp at hf
      | deferred => simp

/-- The only way a fragment's extraction ends a command is `InternalError` (R208). -/
theorem extractFrags_error {n : Nat} (c : Ctx n) (ps : List Fragment) (stop : Stop) :
    ∀ acc : U64, extractFrags c ps acc = .error stop → stop = .raise .internalError := by
  induction ps with
  | nil => intro acc h; simp [extractFrags] at h
  | cons p ps ih =>
    intro acc h
    simp only [extractFrags] at h
    cases hf : frag c p with
    | error e =>
      rw [hf] at h
      simp only [frag, broken, fail] at hf
      split at hf <;> (try split at hf) <;> simp at hf h
      rw [← h, ← hf]
    | ok look => cases look <;> rw [hf] at h <;> first | exact ih _ h | simp at h

mutual
/-- The chain walk raises only what its reads of dependees raise (R202). -/
theorem walk_error {read : FieldId → Res (Look U64)} {stop : Stop} (hr : ∀ d, read d ≠ .error stop) :
    ∀ e : FieldEntry, walk read e ≠ .error stop
  | .notSupported => by simp [walk]
  | .consecutive _ _ _ => by simp [walk]
  | .fragmented _ _ _ => by simp [walk]
  | .fixedValue _ _ _ => by simp [walk]
  | .nextTable d child => by
    simp only [walk]
    cases hd : read d with
    | error e => intro h; rw [Except.error.injEq] at h; subst h; exact hr d hd
    | ok look =>
      cases look with
      | found k => exact walkChild_error hr child k.toNat
      | absent => simp
      | deferred => simp
/-- The same for a child table. -/
theorem walkChild_error {read : FieldId → Res (Look U64)} {stop : Stop} (hr : ∀ d, read d ≠ .error stop) :
    ∀ (t : FieldTable) (k : Nat), walkChild read t k ≠ .error stop
  | .nil, _ => by simp [walkChild]
  | .cons e _, 0 => by simp only [walkChild]; exact walk_error hr e
  | .cons _ rest, k + 1 => by simp only [walkChild]; exact walkChild_error hr rest k
end

/-- All that the look-up of a top-level entry can do (R202, R511). -/
theorem topEntry_cases {α : Type} (table : Option (List α)) (fields : Nat) (f : FieldId) :
    (∃ t e, table = some t ∧ t[f]? = some e ∧ topEntry table fields f = .ok (.found e))
    ∨ topEntry table fields f = .ok .absent
    ∨ (f < fields ∧ topEntry table fields f = .error (.raise .internalError)) := by
  cases table with
  | none => exact .inr (.inl rfl)
  | some t =>
    cases he : t[f]? with
    | some e => exact .inl ⟨t, e, rfl, he, by simp only [topEntry, he]⟩
    | none =>
      by_cases hf : f < fields
      · exact .inr (.inr ⟨hf, by simp only [topEntry, he, hf, if_true]; rfl⟩)
      · exact .inr (.inl (by simp only [topEntry, he, hf, if_false]))

/-- All that a walk given its dependees can do. -/
theorem resolveWith_cases {n : Nat} (c : Ctx n) (read : FieldId → Res (Look U64)) (f : FieldId) :
    (∃ t e, c.table = some t ∧ t[f]? = some e ∧ resolveWith c read f = walk read e)
    ∨ resolveWith c read f = .ok .absent
    ∨ (f < c.fields ∧ resolveWith c read f = .error (.raise .internalError)) := by
  rcases topEntry_cases c.table c.fields f with ⟨t, e, h1, h2, h3⟩ | h | ⟨h1, h2⟩
  · exact .inl ⟨t, e, h1, h2, by simp only [resolveWith, h3]⟩
  · exact .inr (.inl (by simp only [resolveWith, h]))
  · exact .inr (.inr ⟨h1, by simp only [resolveWith, h2]⟩)

/-- A read of a field given its dependees ends only as they do, or by `InternalError` (R203). -/
theorem rawWith_error {n : Nat} {c : Ctx n} {read : FieldId → Res (Look U64)} {stop : Stop} {f : FieldId}
    (hr : ∀ d, read d ≠ .error stop) (hs : stop ≠ .raise .internalError) : rawWith c read f ≠ .error stop := by
  intro h
  rcases resolveWith_cases c read f with ⟨t, e, -, -, h3⟩ | h3 | ⟨-, h3⟩
  · cases hw : walk read e with
    | error x =>
      simp only [rawWith, h3, hw, Except.error.injEq] at h
      subst h; exact walk_error hr e hw
    | ok look =>
      cases look with
      | absent => simp [rawWith, h3, hw] at h
      | deferred => simp [rawWith, h3, hw] at h
      | found tm =>
        simp only [rawWith, h3, hw, rawOf] at h
        cases hp : tm.place with
        | fixed v => simp [hp] at h
        | fragments ps => rw [hp] at h; exact hs (extractFrags_error c ps stop 0 h)
  · simp [rawWith, h3] at h
  · simp only [rawWith, h3, Except.error.injEq] at h
    exact hs h.symm

/-- A read of a dependee ends a command only by `InternalError` (R202, R204, R206). -/
theorem dependee_error {n : Nat} (c : Ctx n) (depth : Nat) (f : FieldId) (stop : Stop)
    (h : dependee c depth f = .error stop) : stop = .raise .internalError := by
  by_contra hs
  induction depth generalizing f with
  | zero => simp [dependee, broken, fail] at h; exact hs h.symm
  | succ depth ih => exact rawWith_error (fun d hd => ih d hd) hs h

/-- A raw read ends a command only by `InternalError` (R203, R511). -/
theorem readRaw_error {n : Nat} (c : Ctx n) (depth : Nat) (f : FieldId) (stop : Stop)
    (h : readRaw c depth f = .error stop) : stop = .raise .internalError :=
  dependee_error c (depth + 1) f stop h

/-- A walk to a terminal entry ends a command only by `InternalError` (R202, R511). -/
theorem resolve_error {n : Nat} (c : Ctx n) (depth : Nat) (f : FieldId) (stop : Stop)
    (h : resolve c depth f = .error stop) : stop = .raise .internalError :=
  readRaw_error c depth f stop (by simp only [resolve] at h; simp only [readRaw, rawWith, h])

end Sys2Proof.Laws
end

