-- ==== Sys2Proof/Laws/Builds.lean ====
section
/-! SUPPORT. Decompaction and compaction: the walk of the mapping tables, the writes of a mapping fragment,
and what a finished build is made of. -/

namespace Sys2Proof.Laws

open Sys2Proof Sys2Proof.Machine

mutual
/-- A walk of a mapping chain ends in one of the chain's terminal mappings (R331). -/
theorem mapWalk_found {read : FieldId → Res (Look U64)} {m : Mapping} :
    ∀ e : MapEntry, mapWalk read e = .ok (.found m) → m ∈ mapTerminals e
  | .notSupported, h => by simp [mapWalk] at h
  | .noMapping, h => by simp [mapWalk] at h
  | .valueMapping frags sm, h => by
    simp only [mapWalk, Except.ok.injEq, Look.found.injEq] at h
    simp [mapTerminals, h]
  | .indexMapping frags sm table om, h => by
    simp only [mapWalk, Except.ok.injEq, Look.found.injEq] at h
    simp [mapTerminals, h]
  | .nextTable d child, h => by
    simp only [mapWalk] at h
    cases hd : read d with
    | error e => simp [hd] at h
    | ok look =>
      cases look with
      | found k => rw [hd] at h; exact mapWalkChild_found child k.toNat h
      | absent => simp [hd] at h
      | deferred => simp [hd] at h
/-- The same for a child table. -/
theorem mapWalkChild_found {read : FieldId → Res (Look U64)} {m : Mapping} :
    ∀ (t : MapTable) (k : Nat), mapWalkChild read t k = .ok (.found m) → m ∈ mapTableTerminals t
  | .nil, _, h => by simp [mapWalkChild] at h
  | .cons e rest, 0, h => by
    simp only [mapWalkChild] at h
    simp [mapTableTerminals, mapWalk_found e h]
  | .cons e rest, k + 1, h => by
    simp only [mapWalkChild] at h
    simp [mapTableTerminals, mapWalkChild_found rest k h]
end

mutual
/-- The walk of a mapping chain raises only what its reads of dependees raise (R331). -/
theorem mapWalk_error {read : FieldId → Res (Look U64)} {stop : Stop} (hr : ∀ d, read d ≠ .error stop) :
    ∀ e : MapEntry, mapWalk read e ≠ .error stop
  | .notSupported => by simp [mapWalk]
  | .noMapping => by simp [mapWalk]
  | .valueMapping _ _ => by simp [mapWalk]
  | .indexMapping _ _ _ _ => by simp [mapWalk]
  | .nextTable d child => by
    simp only [mapWalk]
    cases hd : read d with
    | error e => intro h; rw [Except.error.injEq] at h; subst h; exact hr d hd
    | ok look =>
      cases look with
      | found k => exact mapWalkChild_error hr child k.toNat
      | absent => simp
      | deferred => simp
/-- The same for a child table. -/
theorem mapWalkChild_error {read : FieldId → Res (Look U64)} {stop : Stop} (hr : ∀ d, read d ≠ .error stop) :
    ∀ (t : MapTable) (k : Nat), mapWalkChild read t k ≠ .error stop
  | .nil, _ => by simp [mapWalkChild]
  | .cons e _, 0 => by simp only [mapWalkChild]; exact mapWalk_error hr e
  | .cons _ rest, k + 1 => by simp only [mapWalkChild]; exact mapWalkChild_error hr rest k
end

/-- All that the walk of a field's mapping can do (R331, R511). -/
theorem resolveMap_cases {n : Nat} (env : Env) (c : Ctx n) (maps : List MapEntry) (f : FieldId) :
    (∃ e m, e ∈ maps ∧ m ∈ mapTerminals e ∧ resolveMap env c maps f = .ok (.found m))
    ∨ resolveMap env c maps f = .ok .absent
    ∨ resolveMap env c maps f = .ok .deferred
    ∨ resolveMap env c maps f = .error (.raise .internalError) := by
  rcases topEntry_cases (some maps) env.md.numberOfFields f with ⟨t, e, ht, he, h⟩ | h | ⟨-, h⟩
  · cases ht
    have hm : resolveMap env c maps f = mapWalk (dependee c env.budget) e := by simp only [resolveMap, h]
    rw [hm]
    cases hw : mapWalk (dependee c env.budget) e with
    | error stop =>
      by_cases hs : stop = .raise .internalError
      · exact .inr (.inr (.inr (by rw [hs])))
      · exact absurd hw (mapWalk_error (fun d hd => hs (dependee_error c _ d stop hd)) e)
    | ok look =>
      cases look with
      | found m => exact .inl ⟨e, m, List.mem_of_getElem? he, mapWalk_found e hw, rfl⟩
      | absent => exact .inr (.inl rfl)
      | deferred => exact .inr (.inr (.inl rfl))
  · exact .inr (.inl (by simp only [resolveMap, h]))
  · exact .inr (.inr (.inr (by simp only [resolveMap, h])))

/-- A native range inside one word, written: its bits come from the value, every other bit stays (R342). -/
theorem bitAt_writeRange (t : Target 4) (lo hi : Nat) (x : U64) (b : Nat) (hlh : lo ≤ hi)
    (hword : lo / 32 = hi / 32) (hn : hi < 128) :
    bitAt (writeRange t lo hi x).words b = if lo ≤ b ∧ b ≤ hi then x.getLsbD (b - lo) else bitAt t.words b :=
  bitAt_putRange t.words lo hi x b hlh hword (by omega)

/-- What a well-formed native range of a mapping fragment is, as propositions (R149). -/
theorem dstOk_iff (mf : MapFragment) : dstOk mf = true ↔
    mf.dstLow ≤ mf.dstHigh ∧ mf.dstHigh < 128 ∧ mf.dstLow / 32 = mf.dstHigh / 32 := by
  simp [dstOk, and_assoc, Config.wordBits, Config.nativeWords]

/-- A copy of a replicated source lies inside the fragment's native range (R150). -/
theorem copy_inside {mf : MapFragment} {j : Nat} (hd : mf.dstLow ≤ mf.dstHigh)
    (hk : dstWidth mf % srcWidth mf = 0) (hj : j < copies mf) :
    mf.dstLow ≤ copyLow mf j ∧ copyLow mf j + srcWidth mf - 1 ≤ mf.dstHigh := by
  have h1 : copies mf * srcWidth mf = dstWidth mf := by
    simp only [copies]; exact Nat.div_mul_cancel (Nat.dvd_of_mod_eq_zero hk)
  have h2 : (j + 1) * srcWidth mf ≤ copies mf * srcWidth mf := Nat.mul_le_mul_right _ hj
  have h3 : (j + 1) * srcWidth mf = j * srcWidth mf + srcWidth mf := by ring
  have h4 : dstWidth mf = mf.dstHigh - mf.dstLow + 1 := rfl
  simp only [copyLow]
  omega

/-- A finished decompaction: the tables it used, the target it built, and bit 29 cleared (R340). -/
theorem buildNative_ok {env : Env} {cw : Vector Word 2} {nw : Vector Word 4} (h : buildNative env cw = .ok nw) :
    ∃ maps t order, env.tabs.compaction = some maps ∧ env.tabs.compactDecoding.isSome = true
      ∧ decompact env maps cw = .ok (t, order) ∧ nw = setCmptCtrl t.words false := by
  simp only [buildNative] at h
  cases hm : env.tabs.compaction with
  | none => simp [hm, fail] at h
  | some maps =>
    cases hd : env.tabs.compactDecoding with
    | none => simp [hm, hd, fail] at h
    | some cd =>
      simp only [hm, hd] at h
      cases hr : decompact env maps cw with
      | error stop => simp [hr] at h
      | ok r =>
        obtain ⟨t, order⟩ := r
        simp only [hr, Except.ok.injEq] at h
        exact ⟨maps, t, order, rfl, rfl, hr, h.symm⟩

/-- A finished compaction: the tables it used, the target it built, and bit 29 set (R350). -/
theorem buildCompactTarget_ok {env : Env} {all : Bool} {nw : Vector Word 4} {t : Target 2}
    (h : buildCompactTarget env all nw = .ok t) :
    ∃ maps t' order, env.tabs.compaction = some maps ∧ env.tabs.compactDecoding.isSome = true
      ∧ compact env all maps nw = .ok (t', order) ∧ t = { t' with words := setCmptCtrl t'.words true } := by
  simp only [buildCompactTarget] at h
  cases hm : env.tabs.compaction with
  | none => simp [hm, fail] at h
  | some maps =>
    cases hd : env.tabs.compactDecoding with
    | none => simp [hm, hd, fail] at h
    | some cd =>
      simp only [hm, hd] at h
      cases hr : compact env all maps nw with
      | error stop => simp [hr] at h
      | ok r =>
        obtain ⟨t', order⟩ := r
        simp only [hr, Except.ok.injEq] at h
        exact ⟨maps, t', order, rfl, rfl, hr, h.symm⟩

/-- `matchIndices` finds all matching places of the list, ascending (R356). -/
theorem matchIndices_eq (s om : U64) (l : List U64) (k : Nat) :
    matchIndices s om l k = ((List.range l.length).filter fun i => l.getD i 0 ||| om == s ||| om).map (· + k) := by
  induction l generalizing k with
  | nil => rfl
  | cons a l ih =>
    simp only [matchIndices, List.length_cons, List.range_succ_eq_map, List.filter_cons, List.filter_map, ih]
    have tail : List.filter ((fun i => (a :: l).getD i 0 ||| om == s ||| om) ∘ Nat.succ) (List.range l.length)
        = List.filter (fun i => l.getD i 0 ||| om == s ||| om) (List.range l.length) := rfl
    simp only [tail, List.getD_cons_zero]
    split <;> simp_all [Function.comp_def, Nat.add_comm, Nat.add_left_comm]

end Sys2Proof.Laws
end

