-- ==== Sys2Proof/Laws/State.lean ====
section
/-! SUPPORT. One equation per field per update of the state and of the instance, so that no later proof
unfolds a record update. -/

namespace Sys2Proof.Laws

open Sys2Proof Sys2Proof.Machine

/-! ## `State.respond` -/

@[simp] theorem State_respond_rom (s : State) (r : Response) : (s.respond r).rom = s.rom := rfl
@[simp] theorem State_respond_validationMode (s : State) (r : Response) : (s.respond r).validationMode = s.validationMode := rfl
@[simp] theorem State_respond_maskSense (s : State) (r : Response) : (s.respond r).maskSense = s.maskSense := rfl
@[simp] theorem State_respond_eng (s : State) (r : Response) : (s.respond r).eng = s.eng := rfl
@[simp] theorem State_respond_faultMark (s : State) (r : Response) : (s.respond r).faultMark = s.faultMark := rfl
@[simp] theorem State_respond_refusedMark (s : State) (r : Response) : (s.respond r).refusedMark = s.refusedMark := rfl
@[simp] theorem State_respond_requests (s : State) (r : Response) : (s.respond r).requests = s.requests := rfl
@[simp] theorem State_respond_index (s : State) (r : Response) : (s.respond r).index = s.index + 1 := rfl
@[simp] theorem State_respond_responses (s : State) (r : Response) : (s.respond r).responses = s.responses ++ [r] := rfl
@[simp] theorem State_respond_failedLoads (s : State) (r : Response) : (s.respond r).failedLoads = s.failedLoads := rfl

/-! ## `complete` -/

@[simp] theorem complete_rom (s : State) (e : Engine) (a : Answer) : (complete s e a).rom = s.rom := rfl
@[simp] theorem complete_validationMode (s : State) (e : Engine) (a : Answer) : (complete s e a).validationMode = s.validationMode := rfl
@[simp] theorem complete_maskSense (s : State) (e : Engine) (a : Answer) : (complete s e a).maskSense = s.maskSense := rfl
@[simp] theorem complete_eng (s : State) (e : Engine) (a : Answer) : (complete s e a).eng = e := rfl
@[simp] theorem complete_faultMark (s : State) (e : Engine) (a : Answer) : (complete s e a).faultMark = s.faultMark := rfl
@[simp] theorem complete_refusedMark (s : State) (e : Engine) (a : Answer) : (complete s e a).refusedMark = s.refusedMark := rfl
@[simp] theorem complete_requests (s : State) (e : Engine) (a : Answer) : (complete s e a).requests = s.requests := rfl
@[simp] theorem complete_index (s : State) (e : Engine) (a : Answer) : (complete s e a).index = s.index + 1 := rfl
@[simp] theorem complete_responses (s : State) (e : Engine) (a : Answer) : (complete s e a).responses = s.responses ++ [.done .success a.value a.bytes a.ranges] := rfl
@[simp] theorem complete_failedLoads (s : State) (e : Engine) (a : Answer) : (complete s e a).failedLoads = s.failedLoads := rfl

/-! ## `raiseCode` -/

@[simp] theorem raiseCode_rom (s : State) (e : Engine) (c : ResultCode) : (raiseCode s e c).rom = s.rom := rfl
@[simp] theorem raiseCode_validationMode (s : State) (e : Engine) (c : ResultCode) : (raiseCode s e c).validationMode = s.validationMode := rfl
@[simp] theorem raiseCode_maskSense (s : State) (e : Engine) (c : ResultCode) : (raiseCode s e c).maskSense = s.maskSense := rfl
@[simp] theorem raiseCode_eng (s : State) (e : Engine) (c : ResultCode) : (raiseCode s e c).eng = e := rfl
@[simp] theorem raiseCode_faultMark (s : State) (e : Engine) (c : ResultCode) : (raiseCode s e c).faultMark = s.faultMark := rfl
@[simp] theorem raiseCode_refusedMark (s : State) (e : Engine) (c : ResultCode) : (raiseCode s e c).refusedMark = s.refusedMark := rfl
@[simp] theorem raiseCode_requests (s : State) (e : Engine) (c : ResultCode) : (raiseCode s e c).requests = s.requests := rfl
@[simp] theorem raiseCode_index (s : State) (e : Engine) (c : ResultCode) : (raiseCode s e c).index = s.index + 1 := rfl
@[simp] theorem raiseCode_responses (s : State) (e : Engine) (c : ResultCode) : (raiseCode s e c).responses = s.responses ++ [.done c 0 [] []] := rfl
@[simp] theorem raiseCode_failedLoads (s : State) (e : Engine) (c : ResultCode) : (raiseCode s e c).failedLoads = s.failedLoads := rfl

/-! ## `raiseInternal` -/

@[simp] theorem raiseInternal_rom (s : State) : (raiseInternal s).rom = s.rom := rfl
@[simp] theorem raiseInternal_validationMode (s : State) : (raiseInternal s).validationMode = s.validationMode := rfl
@[simp] theorem raiseInternal_maskSense (s : State) : (raiseInternal s).maskSense = s.maskSense := rfl
@[simp] theorem raiseInternal_eng (s : State) : (raiseInternal s).eng = s.eng := rfl
@[simp] theorem raiseInternal_faultMark (s : State) : (raiseInternal s).faultMark = true := rfl
@[simp] theorem raiseInternal_refusedMark (s : State) : (raiseInternal s).refusedMark = s.refusedMark := rfl
@[simp] theorem raiseInternal_requests (s : State) : (raiseInternal s).requests = s.requests := rfl
@[simp] theorem raiseInternal_index (s : State) : (raiseInternal s).index = s.index + 1 := rfl
@[simp] theorem raiseInternal_responses (s : State) : (raiseInternal s).responses = s.responses ++ [.done .internalError 0 [] []] := rfl
@[simp] theorem raiseInternal_failedLoads (s : State) : (raiseInternal s).failedLoads = s.failedLoads := rfl

/-! ## `refuse` -/

@[simp] theorem refuse_rom (s : State) (why : RefuseReason) : (refuse s why).rom = s.rom := rfl
@[simp] theorem refuse_validationMode (s : State) (why : RefuseReason) : (refuse s why).validationMode = s.validationMode := rfl
@[simp] theorem refuse_maskSense (s : State) (why : RefuseReason) : (refuse s why).maskSense = s.maskSense := rfl
@[simp] theorem refuse_eng (s : State) (why : RefuseReason) : (refuse s why).eng = s.eng := rfl
@[simp] theorem refuse_faultMark (s : State) (why : RefuseReason) : (refuse s why).faultMark = s.faultMark := rfl
@[simp] theorem refuse_refusedMark (s : State) (why : RefuseReason) : (refuse s why).refusedMark = true := rfl
@[simp] theorem refuse_requests (s : State) (why : RefuseReason) : (refuse s why).requests = s.requests := rfl
@[simp] theorem refuse_index (s : State) (why : RefuseReason) : (refuse s why).index = s.index + 1 := rfl
@[simp] theorem refuse_responses (s : State) (why : RefuseReason) : (refuse s why).responses = s.responses ++ [.refused why] := rfl
@[simp] theorem refuse_failedLoads (s : State) (why : RefuseReason) : (refuse s why).failedLoads = s.failedLoads := rfl

/-! ## `failLoad` -/

@[simp] theorem failLoad_rom (s : State) (c : ResultCode) : (failLoad s c).rom = s.rom := rfl
@[simp] theorem failLoad_validationMode (s : State) (c : ResultCode) : (failLoad s c).validationMode = s.validationMode := rfl
@[simp] theorem failLoad_maskSense (s : State) (c : ResultCode) : (failLoad s c).maskSense = s.maskSense := rfl
@[simp] theorem failLoad_eng (s : State) (c : ResultCode) : (failLoad s c).eng = leftoverEngine (Config.leftover s.failedLoads) := rfl
@[simp] theorem failLoad_faultMark (s : State) (c : ResultCode) : (failLoad s c).faultMark = s.faultMark := rfl
@[simp] theorem failLoad_refusedMark (s : State) (c : ResultCode) : (failLoad s c).refusedMark = s.refusedMark := rfl
@[simp] theorem failLoad_requests (s : State) (c : ResultCode) : (failLoad s c).requests = s.requests := rfl
@[simp] theorem failLoad_index (s : State) (c : ResultCode) : (failLoad s c).index = s.index + 1 := rfl
@[simp] theorem failLoad_responses (s : State) (c : ResultCode) : (failLoad s c).responses = s.responses ++ [.done c 0 [] []] := rfl
@[simp] theorem failLoad_failedLoads (s : State) (c : ResultCode) : (failLoad s c).failedLoads = s.failedLoads + 1 := rfl

/-! ## `State.withRequest` -/

@[simp] theorem State_withRequest_rom (s : State) (r : Request) : (s.withRequest r).rom = s.rom := rfl
@[simp] theorem State_withRequest_validationMode (s : State) (r : Request) : (s.withRequest r).validationMode = s.validationMode := rfl
@[simp] theorem State_withRequest_maskSense (s : State) (r : Request) : (s.withRequest r).maskSense = s.maskSense := rfl
@[simp] theorem State_withRequest_eng (s : State) (r : Request) : (s.withRequest r).eng = s.eng := rfl
@[simp] theorem State_withRequest_faultMark (s : State) (r : Request) : (s.withRequest r).faultMark = s.faultMark := rfl
@[simp] theorem State_withRequest_refusedMark (s : State) (r : Request) : (s.withRequest r).refusedMark = s.refusedMark := rfl
@[simp] theorem State_withRequest_requests (s : State) (r : Request) : (s.withRequest r).requests = placeAt s.requests s.index r := rfl
@[simp] theorem State_withRequest_index (s : State) (r : Request) : (s.withRequest r).index = s.index := rfl
@[simp] theorem State_withRequest_responses (s : State) (r : Request) : (s.withRequest r).responses = s.responses := rfl
@[simp] theorem State_withRequest_failedLoads (s : State) (r : Request) : (s.withRequest r).failedLoads = s.failedLoads := rfl

/-! ## `Engine.rebuiltNative` -/

@[simp] theorem Engine_rebuiltNative_init (e : Engine) (ws : Vector Word 4) : (e.rebuiltNative ws).init = e.init := rfl
@[simp] theorem Engine_rebuiltNative_model (e : Engine) (ws : Vector Word 4) : (e.rebuiltNative ws).model = e.model := rfl
@[simp] theorem Engine_rebuiltNative_opc (e : Engine) (ws : Vector Word 4) : (e.rebuiltNative ws).opc = e.opc := rfl
@[simp] theorem Engine_rebuiltNative_nw (e : Engine) (ws : Vector Word 4) : (e.rebuiltNative ws).nw = ws := rfl
@[simp] theorem Engine_rebuiltNative_cw (e : Engine) (ws : Vector Word 4) : (e.rebuiltNative ws).cw = e.cw := rfl
@[simp] theorem Engine_rebuiltNative_nv (e : Engine) (ws : Vector Word 4) : (e.rebuiltNative ws).nv = true := rfl
@[simp] theorem Engine_rebuiltNative_cv (e : Engine) (ws : Vector Word 4) : (e.rebuiltNative ws).cv = e.cv := rfl
@[simp] theorem Engine_rebuiltNative_ne (e : Engine) (ws : Vector Word 4) : (e.rebuiltNative ws).ne = false := rfl
@[simp] theorem Engine_rebuiltNative_ce (e : Engine) (ws : Vector Word 4) : (e.rebuiltNative ws).ce = e.ce := rfl

/-! ## `Engine.rebuiltCompact` -/

@[simp] theorem Engine_rebuiltCompact_init (e : Engine) (ws : Vector Word 2) : (e.rebuiltCompact ws).init = e.init := rfl
@[simp] theorem Engine_rebuiltCompact_model (e : Engine) (ws : Vector Word 2) : (e.rebuiltCompact ws).model = e.model := rfl
@[simp] theorem Engine_rebuiltCompact_opc (e : Engine) (ws : Vector Word 2) : (e.rebuiltCompact ws).opc = e.opc := rfl
@[simp] theorem Engine_rebuiltCompact_nw (e : Engine) (ws : Vector Word 2) : (e.rebuiltCompact ws).nw = e.nw := rfl
@[simp] theorem Engine_rebuiltCompact_cw (e : Engine) (ws : Vector Word 2) : (e.rebuiltCompact ws).cw = ws := rfl
@[simp] theorem Engine_rebuiltCompact_nv (e : Engine) (ws : Vector Word 2) : (e.rebuiltCompact ws).nv = e.nv := rfl
@[simp] theorem Engine_rebuiltCompact_cv (e : Engine) (ws : Vector Word 2) : (e.rebuiltCompact ws).cv = true := rfl
@[simp] theorem Engine_rebuiltCompact_ne (e : Engine) (ws : Vector Word 2) : (e.rebuiltCompact ws).ne = e.ne := rfl
@[simp] theorem Engine_rebuiltCompact_ce (e : Engine) (ws : Vector Word 2) : (e.rebuiltCompact ws).ce = false := rfl

/-! ## `Engine.maskedNative` -/

@[simp] theorem Engine_maskedNative_init (e : Engine) (ws : Vector Word 4) : (e.maskedNative ws).init = e.init := rfl
@[simp] theorem Engine_maskedNative_model (e : Engine) (ws : Vector Word 4) : (e.maskedNative ws).model = e.model := rfl
@[simp] theorem Engine_maskedNative_opc (e : Engine) (ws : Vector Word 4) : (e.maskedNative ws).opc = e.opc := rfl
@[simp] theorem Engine_maskedNative_nw (e : Engine) (ws : Vector Word 4) : (e.maskedNative ws).nw = ws := rfl
@[simp] theorem Engine_maskedNative_cw (e : Engine) (ws : Vector Word 4) : (e.maskedNative ws).cw = e.cw := rfl
@[simp] theorem Engine_maskedNative_nv (e : Engine) (ws : Vector Word 4) : (e.maskedNative ws).nv = e.nv := rfl
@[simp] theorem Engine_maskedNative_cv (e : Engine) (ws : Vector Word 4) : (e.maskedNative ws).cv = e.cv := rfl
@[simp] theorem Engine_maskedNative_ne (e : Engine) (ws : Vector Word 4) : (e.maskedNative ws).ne = true := rfl
@[simp] theorem Engine_maskedNative_ce (e : Engine) (ws : Vector Word 4) : (e.maskedNative ws).ce = e.ce := rfl

/-! ## `Engine.maskedCompact` -/

@[simp] theorem Engine_maskedCompact_init (e : Engine) (ws : Vector Word 2) : (e.maskedCompact ws).init = e.init := rfl
@[simp] theorem Engine_maskedCompact_model (e : Engine) (ws : Vector Word 2) : (e.maskedCompact ws).model = e.model := rfl
@[simp] theorem Engine_maskedCompact_opc (e : Engine) (ws : Vector Word 2) : (e.maskedCompact ws).opc = e.opc := rfl
@[simp] theorem Engine_maskedCompact_nw (e : Engine) (ws : Vector Word 2) : (e.maskedCompact ws).nw = e.nw := rfl
@[simp] theorem Engine_maskedCompact_cw (e : Engine) (ws : Vector Word 2) : (e.maskedCompact ws).cw = ws := rfl
@[simp] theorem Engine_maskedCompact_nv (e : Engine) (ws : Vector Word 2) : (e.maskedCompact ws).nv = e.nv := rfl
@[simp] theorem Engine_maskedCompact_cv (e : Engine) (ws : Vector Word 2) : (e.maskedCompact ws).cv = e.cv := rfl
@[simp] theorem Engine_maskedCompact_ne (e : Engine) (ws : Vector Word 2) : (e.maskedCompact ws).ne = e.ne := rfl
@[simp] theorem Engine_maskedCompact_ce (e : Engine) (ws : Vector Word 2) : (e.maskedCompact ws).ce = true := rfl

/-! ## `Engine.wroteNative` -/

@[simp] theorem Engine_wroteNative_init (e : Engine) (ws : Vector Word 4) : (e.wroteNative ws).init = e.init := rfl
@[simp] theorem Engine_wroteNative_model (e : Engine) (ws : Vector Word 4) : (e.wroteNative ws).model = e.model := rfl
@[simp] theorem Engine_wroteNative_opc (e : Engine) (ws : Vector Word 4) : (e.wroteNative ws).opc = e.opc := rfl
@[simp] theorem Engine_wroteNative_nw (e : Engine) (ws : Vector Word 4) : (e.wroteNative ws).nw = ws := rfl
@[simp] theorem Engine_wroteNative_cw (e : Engine) (ws : Vector Word 4) : (e.wroteNative ws).cw = e.cw := rfl
@[simp] theorem Engine_wroteNative_nv (e : Engine) (ws : Vector Word 4) : (e.wroteNative ws).nv = e.nv := rfl
@[simp] theorem Engine_wroteNative_cv (e : Engine) (ws : Vector Word 4) : (e.wroteNative ws).cv = e.cv := rfl
@[simp] theorem Engine_wroteNative_ne (e : Engine) (ws : Vector Word 4) : (e.wroteNative ws).ne = false := rfl
@[simp] theorem Engine_wroteNative_ce (e : Engine) (ws : Vector Word 4) : (e.wroteNative ws).ce = e.ce := rfl

/-! ## `Engine.wroteCompact` -/

@[simp] theorem Engine_wroteCompact_init (e : Engine) (ws : Vector Word 2) : (e.wroteCompact ws).init = e.init := rfl
@[simp] theorem Engine_wroteCompact_model (e : Engine) (ws : Vector Word 2) : (e.wroteCompact ws).model = e.model := rfl
@[simp] theorem Engine_wroteCompact_opc (e : Engine) (ws : Vector Word 2) : (e.wroteCompact ws).opc = e.opc := rfl
@[simp] theorem Engine_wroteCompact_nw (e : Engine) (ws : Vector Word 2) : (e.wroteCompact ws).nw = e.nw := rfl
@[simp] theorem Engine_wroteCompact_cw (e : Engine) (ws : Vector Word 2) : (e.wroteCompact ws).cw = ws := rfl
@[simp] theorem Engine_wroteCompact_nv (e : Engine) (ws : Vector Word 2) : (e.wroteCompact ws).nv = e.nv := rfl
@[simp] theorem Engine_wroteCompact_cv (e : Engine) (ws : Vector Word 2) : (e.wroteCompact ws).cv = e.cv := rfl
@[simp] theorem Engine_wroteCompact_ne (e : Engine) (ws : Vector Word 2) : (e.wroteCompact ws).ne = e.ne := rfl
@[simp] theorem Engine_wroteCompact_ce (e : Engine) (ws : Vector Word 2) : (e.wroteCompact ws).ce = false := rfl

/-! ## `Engine.staleNative` -/

@[simp] theorem Engine_staleNative_init (e : Engine) : (e.staleNative).init = e.init := rfl
@[simp] theorem Engine_staleNative_model (e : Engine) : (e.staleNative).model = e.model := rfl
@[simp] theorem Engine_staleNative_opc (e : Engine) : (e.staleNative).opc = e.opc := rfl
@[simp] theorem Engine_staleNative_nw (e : Engine) : (e.staleNative).nw = e.nw := rfl
@[simp] theorem Engine_staleNative_cw (e : Engine) : (e.staleNative).cw = e.cw := rfl
@[simp] theorem Engine_staleNative_nv (e : Engine) : (e.staleNative).nv = false := rfl
@[simp] theorem Engine_staleNative_cv (e : Engine) : (e.staleNative).cv = e.cv := rfl
@[simp] theorem Engine_staleNative_ne (e : Engine) : (e.staleNative).ne = false := rfl
@[simp] theorem Engine_staleNative_ce (e : Engine) : (e.staleNative).ce = e.ce := rfl

/-! ## `Engine.staleCompact` -/

@[simp] theorem Engine_staleCompact_init (e : Engine) : (e.staleCompact).init = e.init := rfl
@[simp] theorem Engine_staleCompact_model (e : Engine) : (e.staleCompact).model = e.model := rfl
@[simp] theorem Engine_staleCompact_opc (e : Engine) : (e.staleCompact).opc = e.opc := rfl
@[simp] theorem Engine_staleCompact_nw (e : Engine) : (e.staleCompact).nw = e.nw := rfl
@[simp] theorem Engine_staleCompact_cw (e : Engine) : (e.staleCompact).cw = e.cw := rfl
@[simp] theorem Engine_staleCompact_nv (e : Engine) : (e.staleCompact).nv = e.nv := rfl
@[simp] theorem Engine_staleCompact_cv (e : Engine) : (e.staleCompact).cv = false := rfl
@[simp] theorem Engine_staleCompact_ne (e : Engine) : (e.staleCompact).ne = e.ne := rfl
@[simp] theorem Engine_staleCompact_ce (e : Engine) : (e.staleCompact).ce = false := rfl

/-! ## `reopcoded` -/

@[simp] theorem reopcoded_init (e : Engine) (op : BitVec 7) : (reopcoded e op).init = e.init := rfl
@[simp] theorem reopcoded_model (e : Engine) (op : BitVec 7) : (reopcoded e op).model = e.model := rfl
@[simp] theorem reopcoded_opc (e : Engine) (op : BitVec 7) : (reopcoded e op).opc = op := rfl
@[simp] theorem reopcoded_nw (e : Engine) (op : BitVec 7) : (reopcoded e op).nw = setOpcodeBits e.nw op := rfl
@[simp] theorem reopcoded_cw (e : Engine) (op : BitVec 7) : (reopcoded e op).cw = e.cw := rfl
@[simp] theorem reopcoded_nv (e : Engine) (op : BitVec 7) : (reopcoded e op).nv = e.nv := rfl
@[simp] theorem reopcoded_cv (e : Engine) (op : BitVec 7) : (reopcoded e op).cv = false := rfl
@[simp] theorem reopcoded_ne (e : Engine) (op : BitVec 7) : (reopcoded e op).ne = false := rfl
@[simp] theorem reopcoded_ce (e : Engine) (op : BitVec 7) : (reopcoded e op).ce = false := rfl

end Sys2Proof.Laws
end

