-- ==== Sys2Proof/Laws/Ops.lean ====
section
/-! SUPPORT. What the endings of a command can do, once each, for later proofs to cite. -/

namespace Sys2Proof.Laws

open Sys2Proof Sys2Proof.Machine

/-- The four ways a command ends. -/
theorem finish_cases (s : State) (e : Engine) (out : Res Answer) :
    (∃ a, out = .ok a ∧ finish s e out = complete s e a)
    ∨ (∃ why, out = .error (.refuse why) ∧ finish s e out = refuse s why)
    ∨ (out = .error (.raise .internalError) ∧ finish s e out = raiseInternal s)
    ∨ (∃ c, c ≠ .internalError ∧ out = .error (.raise c) ∧ finish s e out = raiseCode s e c) := by
  rcases out with (c | why) | a
  · by_cases h : c = .internalError
    · subst h; exact .inr (.inr (.inl ⟨rfl, rfl⟩))
    · refine .inr (.inr (.inr ⟨c, h, rfl, ?_⟩))
      cases c <;> first | rfl | exact absurd rfl h
  · exact .inr (.inl ⟨why, rfl, rfl⟩)
  · exact .inl ⟨a, rfl, rfl⟩

/-- A command of a set-up instance whose tables the ROM has. -/
theorem command_ready {s : State} {env : Env} (hi : s.eng.init = true) (he : s.env = some env)
    (body : Env → Engine × Res Answer) : command s body = finish s (body env).1 (body env).2 := by
  simp only [command, hi, he, if_true]

/-- A command while the instance is not set up. -/
theorem command_uninitialised {s : State} (hi : s.eng.init = false) (body : Env → Engine × Res Answer) :
    command s body = refuse s .uninitialised := by
  simp [command, hi]

/-- The three ways a command other than a load can go. -/
theorem command_cases (s : State) (body : Env → Engine × Res Answer) :
    (s.eng.init = false ∧ command s body = refuse s .uninitialised)
    ∨ (s.eng.init = true ∧ s.env = none ∧ command s body = raiseInternal s)
    ∨ (∃ env, s.eng.init = true ∧ s.env = some env ∧ command s body = finish s (body env).1 (body env).2) := by
  cases hi : s.eng.init with
  | false => exact .inl ⟨rfl, command_uninitialised hi body⟩
  | true =>
    cases he : s.env with
    | none => exact .inr (.inl ⟨rfl, rfl, by simp [command, hi, he]⟩)
    | some env => exact .inr (.inr ⟨env, rfl, rfl, command_ready hi he body⟩)

/-- The command completes. -/
theorem finish_ok (s : State) (e : Engine) (a : Answer) : finish s e (.ok a) = complete s e a := rfl

/-- The command ends as a refusal. -/
theorem finish_refuse (s : State) (e : Engine) (why : RefuseReason) :
    finish s e (.error (.refuse why)) = refuse s why := rfl

/-- The command ends with a code other than `InternalError`. -/
theorem finish_raise (s : State) (e : Engine) {c : ResultCode} (h : c ≠ .internalError) :
    finish s e (.error (.raise c)) = raiseCode s e c := by
  cases c <;> first | rfl | exact absurd rfl h

/-- The tables the ROM has under the current model and opcode, found as the load found them. -/
theorem env_eq_some {s : State} {env : Env} (h : s.env = some env) :
    findModel s.rom s.eng.model.toNat = some env.md ∧ findTables env.md s.eng.opc = some env.tabs
      ∧ env.maskSense = s.maskSense := by
  simp only [State.env, tablesOf] at h
  cases hm : findModel s.rom s.eng.model.toNat with
  | none => simp [hm] at h
  | some md =>
    cases ht : findTables md s.eng.opc with
    | none => simp [hm, ht] at h
    | some tabs =>
      simp [hm, ht] at h
      subst h
      exact ⟨rfl, ht, rfl⟩

/-- A model the ROM has is listed under that id. -/
theorem findModel_mem {rom : Rom} {m : Nat} {md : ModelData} (h : findModel rom m = some md) :
    ∃ id, (id, md) ∈ rom.models ∧ id.toNat = m := by
  simp only [findModel, Option.map_eq_some_iff] at h
  obtain ⟨⟨id, md'⟩, hf, rfl⟩ := h
  exact ⟨id, List.mem_of_find?_eq_some hf, by simpa using List.find?_some hf⟩

/-- An opcode's tables are listed under that opcode. -/
theorem findTables_mem {md : ModelData} {op : BitVec 7} {tabs : OpcodeTables} (h : findTables md op = some tabs) :
    (op, tabs) ∈ md.opcodes := by
  simp only [findTables, Option.map_eq_some_iff] at h
  obtain ⟨⟨op', tabs'⟩, hf, rfl⟩ := h
  have h1 : op' = op := by simpa using List.find?_some hf
  subst h1
  exact List.mem_of_find?_eq_some hf

/-- The result codes have different numbers (R500). -/
theorem ResultCode.number_injective : Function.Injective ResultCode.number := by
  intro a b; cases a <;> cases b <;> simp [ResultCode.number]

end Sys2Proof.Laws
end

