-- ==== Sys2Proof/Laws/Fields.lean ====
section
/-! SUPPORT. The read and write of one field, the regeneration before a read and the preparation of the
native buffer: one lemma for what each can do. -/

namespace Sys2Proof.Laws

open Sys2Proof Sys2Proof.Machine

/-! ## Regeneration (R241) -/

/-- A Valid native buffer is not rebuilt. -/
theorem refresh_valid (env : Env) {e : Engine} (h : e.nv = true) : refresh env e = .ok e := by
  simp [refresh, h]

/-- With neither buffer Valid nothing is rebuilt. -/
theorem refresh_neither (env : Env) {e : Engine} (hc : e.cv = false) : refresh env e = .ok e := by
  simp [refresh, hc]

/-- A stale native buffer is rebuilt from a Valid compact one. -/
theorem refresh_rebuilt {env : Env} {e : Engine} {w : Vector Word 4} (hn : e.nv = false) (hc : e.cv = true)
    (hw : buildNative env e.cw = .ok w) : refresh env e = .ok (e.rebuiltNative w) := by
  simp [refresh, hn, hc, regenerateNative, hw]

/-- All that the regeneration before a read can do: nothing, a rebuild, or `InternalError`. -/
theorem refresh_cases (env : Env) (e : Engine) :
    refresh env e = .ok e
    ∨ (∃ w, e.nv = false ∧ e.cv = true ∧ buildNative env e.cw = .ok w ∧ refresh env e = .ok (e.rebuiltNative w))
    ∨ refresh env e = .error (.raise .internalError) := by
  cases hn : e.nv with
  | true => exact .inl (refresh_valid env hn)
  | false =>
    cases hc : e.cv with
    | false => exact .inl (refresh_neither env hc)
    | true =>
      cases hw : buildNative env e.cw with
      | ok w => exact .inr (.inl ⟨w, rfl, rfl, rfl, refresh_rebuilt hn hc hw⟩)
      | error stop =>
        simp only [refresh, hn, hc, regenerateNative, hw, Bool.not_false, Bool.and_self, if_true]
        rcases stop with c | why
        · cases c <;> first | exact .inl rfl | exact .inr (.inr rfl)
        · exact .inl rfl

/-- After the regeneration, a second one does nothing (R90). -/
theorem refresh_again {env : Env} {e e' : Engine} (h : refresh env e = .ok e') : refresh env e' = .ok e' := by
  rcases refresh_cases env e with h1 | ⟨w, -, -, -, h1⟩ | h1
  · rw [h] at h1; cases h1; exact h
  · rw [h] at h1; cases h1; exact refresh_valid env rfl
  · rw [h] at h1; cases h1

/-- The instance a read leaves: what the regeneration leaves, or the instance unchanged (R505 item 2). -/
theorem readField_cases (env : Env) (e : Engine) (f : FieldId) (mode : Mode) :
    (∃ e', refresh env e = .ok e' ∧ readField env e f mode = (e', readBuffers env e' f mode))
    ∨ (refresh env e = .error (.raise .internalError)
      ∧ readField env e f mode = (e, .error (.raise .internalError))) := by
  rcases refresh_cases env e with h | ⟨w, -, -, -, h⟩ | h
  · exact .inl ⟨_, h, by simp [readField, h]⟩
  · exact .inl ⟨_, h, by simp [readField, h]⟩
  · exact .inr ⟨h, by simp [readField, h]⟩

/-! ## One buffer (R242, R252) -/

/-- A field with a position whose fragments are well-formed is read in the mode asked for (R242). -/
theorem readIn_fragments {n : Nat} {env : Env} {c : Ctx n} {f : FieldId} {mode : Mode} {ps : List Fragment}
    {size : Nat} {rs : List Restriction} (hu : c.unwritten = none)
    (hr : resolve c env.budget f = .ok (.found ⟨.fragments ps, size, rs⟩)) (hp : ∀ p ∈ ps, fragOk n p = true) :
    readIn env c f mode = inMode env f ⟨.fragments ps, size, rs⟩ mode
      (ps.foldl (fun v p => v ||| fragValue (wordAt c.words p.wordIndex) p) 0) := by
  simp only [readIn, hr, rawOf, extractFrags_settled c hu ps 0 hp]

/-- A field whose value is fixed is read in the mode asked for (R242). -/
theorem readIn_fixed {n : Nat} {env : Env} {c : Ctx n} {f : FieldId} {mode : Mode} {x : U64} {size : Nat}
    {rs : List Restriction} (hr : resolve c env.budget f = .ok (.found ⟨.fixed x, size, rs⟩)) :
    readIn env c f mode = inMode env f ⟨.fixed x, size, rs⟩ mode x := by
  simp only [readIn, hr, rawOf]

/-- A field with no position in a buffer is `InvalidField` there (R242). -/
theorem readIn_absent {n : Nat} {env : Env} {c : Ctx n} {f : FieldId} {mode : Mode}
    (hr : resolve c env.budget f = .ok .absent) : readIn env c f mode = fail .invalidField := by
  simp only [readIn, hr]

/-- A write to a field with well-formed, unprotected fragments (R252). -/
theorem writeIn_fragments {n : Nat} {env : Env} {c : Ctx n} {f : FieldId} {v : U64} {ps : List Fragment}
    {size : Nat} {rs : List Restriction}
    (hr : resolve c env.budget f = .ok (.found ⟨.fragments ps, size, rs⟩)) (hp : ∀ p ∈ ps, fragOk n p = true)
    (hq : ∀ p ∈ ps, fragProtected p = false) :
    writeIn env c f v
      = match encodePipeline env.maskSense (fieldSignInfo env f ⟨.fragments ps, size, rs⟩) rs v with
        | .error e => .error e
        | .ok raw => insertFrags c.words ps raw := by
  have h1 : ps.all (fragOk n) = true := List.all_eq_true.2 hp
  have h2 : ps.any fragProtected = false := by
    rw [List.any_eq_false]; intro p h; simp [hq p h]
  simp only [writeIn, hr, h1, h2]
  rfl

/-- A write to a field with a protected bit is refused (R256). -/
theorem writeIn_protected {n : Nat} {env : Env} {c : Ctx n} {f : FieldId} {v : U64} {ps : List Fragment}
    {size : Nat} {rs : List Restriction} {p : Fragment}
    (hr : resolve c env.budget f = .ok (.found ⟨.fragments ps, size, rs⟩)) (hp : ∀ p ∈ ps, fragOk n p = true)
    (hm : p ∈ ps) (hq : fragProtected p = true) : writeIn env c f v = .error (.refuse .protectedBits) := by
  have h1 : ps.all (fragOk n) = true := List.all_eq_true.2 hp
  have h2 : ps.any fragProtected = true := List.any_eq_true.2 ⟨p, hm, hq⟩
  simp only [writeIn, hr, h1, h2]
  rfl

/-- All that a write over both buffers can do when it succeeds: at least one buffer took it, each that did
loses its Encoded bit, and a Valid one that did not becomes stale (R253, R254). -/
theorem setField_ok {env : Env} {e e' : Engine} {f : FieldId} {v : U64} (h : setField env e f v = .ok e') :
    ∃ a b, tryWrite e.nv (writeIn env (nativeCtx env e.nw) f v) = .ok a
      ∧ tryWrite e.cv (writeIn env (compactCtx env e.cw) f v) = .ok b
      ∧ (a.wrote? = true ∨ b.wrote? = true) ∧ e' = commitCompact (commitNative e a) b := by
  simp only [setField] at h
  cases ha : tryWrite e.nv (writeIn env (nativeCtx env e.nw) f v) with
  | error stop => simp [ha] at h
  | ok a =>
    cases hb : tryWrite e.cv (writeIn env (compactCtx env e.cw) f v) with
    | error stop => simp [ha, hb] at h
    | ok b =>
      simp only [ha, hb, settleWrite, fail] at h
      by_cases hw : (a.wrote? || b.wrote?) = true
      · simp only [hw, if_true, Except.ok.injEq] at h
        exact ⟨a, b, rfl, rfl, by simpa using hw, h.symm⟩
      · simp only [Bool.not_eq_true] at hw
        simp only [hw, Bool.false_eq_true, if_false] at h
        split at h <;> simp at h

/-- A buffer is written only if it is Valid (R253). -/
theorem tryWrite_wrote {n : Nat} {valid : Bool} {w : Res (Vector Word n)} {ws : Vector Word n}
    (h : tryWrite valid w = .ok (.wrote ws)) : valid = true ∧ w = .ok ws := by
  cases valid with
  | false => simp [tryWrite] at h
  | true =>
    refine ⟨rfl, ?_⟩
    rcases w with (c | why) | ws'
    · cases c <;> simp [tryWrite] at h
    · simp [tryWrite] at h
    · simpa [tryWrite] using h

/-! ## Preparing the native buffer (R433) -/

/-- A Valid and Encoded native buffer is used as it is. -/
theorem prepareNative_encoded (env : Env) {e : Engine} (hn : e.nv = true) (he : e.ne = true) :
    prepareNative env e = .ok e := by
  simp [prepareNative, hn, encodeNativeBuffer, he]

/-- A Valid native buffer is masked. -/
theorem prepareNative_masked {env : Env} {e : Engine} {m : Vector Word 4} (hn : e.nv = true) (he : e.ne = false)
    (hm : applyNativeMasks env e.nw = .ok m) : prepareNative env e = .ok (e.maskedNative m) := by
  simp [prepareNative, hn, encodeNativeBuffer, he, hm]

/-- A stale native buffer is rebuilt and masked. -/
theorem prepareNative_rebuilt {env : Env} {e : Engine} {w m : Vector Word 4} (hn : e.nv = false)
    (hw : buildNative env e.cw = .ok w) (hm : applyNativeMasks env w = .ok m) :
    prepareNative env e = .ok ((e.rebuiltNative w).maskedNative m) := by
  simp [prepareNative, hn, regenerateNative, hw, encodeNativeBuffer, hm]

/-- All that the preparation can do when it succeeds: the native buffer is Valid and Encoded, and nothing but
the native buffer and its bits has changed. -/
theorem prepareNative_ok {env : Env} {e e' : Engine} (h : prepareNative env e = .ok e') :
    e'.ne = true ∧ (e.nv = true ∨ e'.nv = true) ∧ e' = { e with nw := e'.nw, nv := e'.nv, ne := e'.ne } := by
  simp only [prepareNative] at h
  cases hn : e.nv with
  | true =>
    simp only [hn, if_true, encodeNativeBuffer] at h
    cases he : e.ne with
    | true => simp only [he, if_true, Except.ok.injEq] at h; subst h; exact ⟨he, .inl rfl, by simp⟩
    | false =>
      cases hm : applyNativeMasks env e.nw with
      | error stop => simp [he, hm] at h
      | ok m =>
        simp only [he, hm, Bool.false_eq_true, if_false, Except.ok.injEq] at h
        subst h; exact ⟨rfl, .inl rfl, by simp [Engine.maskedNative]⟩
  | false =>
    cases hw : buildNative env e.cw with
    | error stop => simp [hn, regenerateNative, hw] at h
    | ok w =>
      simp only [hn, Bool.false_eq_true, if_false, regenerateNative, hw, encodeNativeBuffer,
        Engine.rebuiltNative] at h
      cases hm : applyNativeMasks env w with
      | error stop => simp [hm] at h
      | ok m =>
        simp only [hm, Except.ok.injEq] at h
        subst h; exact ⟨rfl, .inr rfl, by simp [Engine.maskedNative]⟩

end Sys2Proof.Laws
end

