-- ==== Sys2Proof/Laws/Instance.lean ====
section
/-! SUPPORT. The mask pass, the preparation of the compact buffer and the loads: one lemma for what each can
do. -/

namespace Sys2Proof.Laws

open Sys2Proof Sys2Proof.Machine

mutual
/-- The masks a group comes to are one of its leaves (R390). -/
theorem maskWalk_apply {read : FieldId → Res (Look U64)} {o a : Vector Word 4} :
    ∀ e : MaskEntry, maskWalk read e = .ok (.apply o a) → (o, a) ∈ maskLeaves e
  | .masks o' a', h => by
    simp only [maskWalk, Except.ok.injEq, GroupOutcome.apply.injEq] at h
    simp [maskLeaves, h]
  | .noMasks, h => by simp [maskWalk] at h
  | .nextTable d child, h => by
    simp only [maskWalk] at h
    cases hd : read d with
    | error e => simp [hd] at h
    | ok look =>
      cases look with
      | found k => rw [hd] at h; exact maskWalkChild_apply child k.toNat h
      | absent => simp [hd] at h
      | deferred => simp [hd] at h
/-- The same for a child table. -/
theorem maskWalkChild_apply {read : FieldId → Res (Look U64)} {o a : Vector Word 4} :
    ∀ (t : MaskTable) (k : Nat), maskWalkChild read t k = .ok (.apply o a) → (o, a) ∈ maskTableLeaves t
  | .nil, _, h => by simp [maskWalkChild] at h
  | .cons e rest, 0, h => by
    simp only [maskWalkChild] at h
    simp [maskTableLeaves, maskWalk_apply e h]
  | .cons e rest, k + 1, h => by
    simp only [maskWalkChild] at h
    simp [maskTableLeaves, maskWalkChild_apply rest k h]
end

/-- A property of a buffer that every mask of a list keeps is kept by the whole pass (R390, R391). -/
theorem applyMasks_induct {n : Nat} (P : Vector Word n → Prop) :
    ∀ (c : Ctx n) (groups : List MaskEntry) (ws ws' : Vector Word n),
      (∀ g ∈ groups, ∀ m ∈ maskLeaves g, ∀ v, P v → P (maskWords v m.1 m.2)) → P ws →
      applyMasks c groups ws = .ok ws' → P ws' := by
  intro c groups
  induction groups with
  | nil => intro ws ws' _ hp h; simp only [applyMasks, Except.ok.injEq] at h; exact h ▸ hp
  | cons g gs ih =>
    intro ws ws' hm hp h
    have hgs : ∀ g' ∈ gs, ∀ m ∈ maskLeaves g', ∀ v, P v → P (maskWords v m.1 m.2) :=
      fun g' hg' => hm g' (by simp [hg'])
    have step : ∀ read, (match maskWalk read g with
        | .error e => (.error e : Res (Vector Word n))
        | .ok (.apply o a) => applyMasks c gs (maskWords ws o a)
        | .ok .skip => applyMasks c gs ws
        | .ok .abandon => .ok ws) = .ok ws' → P ws' := by
      intro read hr
      cases hw : maskWalk read g with
      | error e => simp [hw] at hr
      | ok out =>
        cases out with
        | apply o a =>
          simp only [hw] at hr
          exact ih _ _ hgs (hm g (by simp) (o, a) (maskWalk_apply g hw) ws hp) hr
        | skip => simp only [hw] at hr; exact ih _ _ hgs hp hr
        | abandon => simp only [hw, Except.ok.injEq] at hr; exact hr ▸ hp
    cases g with
    | noMasks => simp only [applyMasks, Except.ok.injEq] at h; exact h ▸ hp
    | masks o a => exact step (readRaw { c with words := ws } c.fields) h
    | nextTable d child => exact step (readRaw { c with words := ws } c.fields) h

/-- All that the preparation of the compact buffer can do (R435, R505 item 3). -/
theorem prepareCompact_cases (env : Env) (e : Engine) :
    (e.cv = true ∧ prepareCompact env e = finishCompact env e)
    ∨ (∃ stop, e.cv = false ∧ prepareNative env e = .error stop ∧ prepareCompact env e = (e, .error stop))
    ∨ (∃ e1 stop, e.cv = false ∧ prepareNative env e = .ok e1 ∧ buildCompact env e1.nw = .error stop
      ∧ prepareCompact env e = (e1, .error stop))
    ∨ (∃ e1 ws, e.cv = false ∧ prepareNative env e = .ok e1 ∧ buildCompact env e1.nw = .ok ws
      ∧ prepareCompact env e = finishCompact env (e1.rebuiltCompact ws)) := by
  cases hc : e.cv with
  | true => exact .inl ⟨rfl, by simp [prepareCompact, hc]⟩
  | false =>
    cases hp : prepareNative env e with
    | error stop => exact .inr (.inl ⟨stop, rfl, rfl, by simp [prepareCompact, hc, hp]⟩)
    | ok e1 =>
      cases hb : buildCompact env e1.nw with
      | error stop =>
        exact .inr (.inr (.inl ⟨e1, stop, rfl, rfl, hb, by simp [prepareCompact, hc, hp, regenerateCompact, hb]⟩))
      | ok ws =>
        exact .inr (.inr (.inr ⟨e1, ws, rfl, rfl, hb, by simp [prepareCompact, hc, hp, regenerateCompact, hb]⟩))

/-- A failed load leaves the instance Uninitialised (R506). -/
theorem failLoad_uninitialised (s : State) (c : ResultCode) : (failLoad s c).eng.init = false := rfl

/-- All that the load of an instruction word can do (R432, R506). -/
theorem loadWord_cases (s : State) (w0 : Word) (load : Env → ModelId → Res Engine) :
    (∃ c, c ≠ .internalError ∧ loadWord s w0 load = failLoad s c)
    ∨ loadWord s w0 load = raiseInternal s
    ∨ (∃ why, loadWord s w0 load = refuse s why)
    ∨ (∃ md tabs e, findModel s.rom s.request.a0.toNat = some md ∧ findTables md (opcodeOf w0) = some tabs
      ∧ load ⟨md, tabs, s.maskSense⟩ (s.request.a0.setWidth 32) = .ok e ∧ loadWord s w0 load = complete s e {}) := by
  cases hm : findModel s.rom s.request.a0.toNat with
  | none => exact .inl ⟨.invalidModel, by decide, by simp [loadWord, hm]⟩
  | some md =>
    cases ht : findTables md (opcodeOf w0) with
    | none => exact .inl ⟨.opcodeNotSupported, by decide, by simp [loadWord, hm, ht]⟩
    | some tabs =>
      cases hl : load ⟨md, tabs, s.maskSense⟩ (s.request.a0.setWidth 32) with
      | ok e => exact .inr (.inr (.inr ⟨md, tabs, e, rfl, ht, hl, by simp [loadWord, hm, ht, hl]⟩))
      | error stop =>
        rcases stop with c | why
        · by_cases hc : c = .internalError
          · subst hc; exact .inr (.inl (by simp [loadWord, hm, ht, hl]))
          · exact .inl ⟨c, hc, by simp [loadWord, hm, ht, hl]⟩
        · exact .inr (.inr (.inl ⟨why, by simp [loadWord, hm, ht, hl]⟩))

end Sys2Proof.Laws
end

