-- ==== Sys2Proof/Laws/PerInstr.lean ====
section
/-! SUPPORT. One lemma per instruction about its encoding: a command is one word with its reserved bits 0
(R171), an instruction word is as long as its bit 29 says (R120, R123). -/

namespace Sys2Proof.Laws

open Sys2Proof

/-- The form of an instruction's words. -/
def EncodedForm.Statement (i : Instr) : Prop :=
  (i.port = .command → ∃ w, encode i = [w] ∧ w.extractLsb' 8 8 = 0)
    ∧ (i.port = .instruction → i.wf = true →
      (encode i).length = if cmptCtrl ((encode i).headD 0) then 2 else 4)

/-- The reserved bits of a command word are 0 (R171). -/
theorem commandWord_reserved (code : BitVec 8) (id : BitVec 16) : (commandWord code id).extractLsb' 8 8 = 0 := by
  ext i hi
  simp only [commandWord, BitVec.getElem_extractLsb', BitVec.getLsbD_append]
  simp
  intro h1
  omega

theorem EncodedForm.init : EncodedForm.Statement .init :=
  ⟨fun _ => ⟨_, rfl, commandWord_reserved _ _⟩, fun h => by simp [Instr.port] at h⟩

theorem EncodedForm.decode : EncodedForm.Statement .decode :=
  ⟨fun _ => ⟨_, rfl, commandWord_reserved _ _⟩, fun h => by simp [Instr.port] at h⟩

theorem EncodedForm.encodeNative : EncodedForm.Statement .encodeNative :=
  ⟨fun _ => ⟨_, rfl, commandWord_reserved _ _⟩, fun h => by simp [Instr.port] at h⟩

theorem EncodedForm.encodeCompact : EncodedForm.Statement .encodeCompact :=
  ⟨fun _ => ⟨_, rfl, commandWord_reserved _ _⟩, fun h => by simp [Instr.port] at h⟩

theorem EncodedForm.setOpcode : EncodedForm.Statement .setOpcode :=
  ⟨fun _ => ⟨_, rfl, commandWord_reserved _ _⟩, fun h => by simp [Instr.port] at h⟩

theorem EncodedForm.isNativeEncoded : EncodedForm.Statement .isNativeEncoded :=
  ⟨fun _ => ⟨_, rfl, commandWord_reserved _ _⟩, fun h => by simp [Instr.port] at h⟩

theorem EncodedForm.isCompactEncoded : EncodedForm.Statement .isCompactEncoded :=
  ⟨fun _ => ⟨_, rfl, commandWord_reserved _ _⟩, fun h => by simp [Instr.port] at h⟩

theorem EncodedForm.getSignedField (f : BitVec 16) : EncodedForm.Statement (.getSignedField f) :=
  ⟨fun _ => ⟨_, rfl, commandWord_reserved _ _⟩, fun h => by simp [Instr.port] at h⟩

theorem EncodedForm.getUnsignedField (f : BitVec 16) : EncodedForm.Statement (.getUnsignedField f) :=
  ⟨fun _ => ⟨_, rfl, commandWord_reserved _ _⟩, fun h => by simp [Instr.port] at h⟩

theorem EncodedForm.getSigned64Field (f : BitVec 16) : EncodedForm.Statement (.getSigned64Field f) :=
  ⟨fun _ => ⟨_, rfl, commandWord_reserved _ _⟩, fun h => by simp [Instr.port] at h⟩

theorem EncodedForm.getUnsigned64Field (f : BitVec 16) : EncodedForm.Statement (.getUnsigned64Field f) :=
  ⟨fun _ => ⟨_, rfl, commandWord_reserved _ _⟩, fun h => by simp [Instr.port] at h⟩

theorem EncodedForm.getRawField (f : BitVec 16) : EncodedForm.Statement (.getRawField f) :=
  ⟨fun _ => ⟨_, rfl, commandWord_reserved _ _⟩, fun h => by simp [Instr.port] at h⟩

theorem EncodedForm.getFieldSize (f : BitVec 16) : EncodedForm.Statement (.getFieldSize f) :=
  ⟨fun _ => ⟨_, rfl, commandWord_reserved _ _⟩, fun h => by simp [Instr.port] at h⟩

theorem EncodedForm.setSignedField (f : BitVec 16) : EncodedForm.Statement (.setSignedField f) :=
  ⟨fun _ => ⟨_, rfl, commandWord_reserved _ _⟩, fun h => by simp [Instr.port] at h⟩

theorem EncodedForm.setUnsignedField (f : BitVec 16) : EncodedForm.Statement (.setUnsignedField f) :=
  ⟨fun _ => ⟨_, rfl, commandWord_reserved _ _⟩, fun h => by simp [Instr.port] at h⟩

theorem EncodedForm.setSigned64Field (f : BitVec 16) : EncodedForm.Statement (.setSigned64Field f) :=
  ⟨fun _ => ⟨_, rfl, commandWord_reserved _ _⟩, fun h => by simp [Instr.port] at h⟩

theorem EncodedForm.setUnsigned64Field (f : BitVec 16) : EncodedForm.Statement (.setUnsigned64Field f) :=
  ⟨fun _ => ⟨_, rfl, commandWord_reserved _ _⟩, fun h => by simp [Instr.port] at h⟩

theorem EncodedForm.countCompacted : EncodedForm.Statement .countCompacted :=
  ⟨fun _ => ⟨_, rfl, commandWord_reserved _ _⟩, fun h => by simp [Instr.port] at h⟩

theorem EncodedForm.retrieveAllCompactedFormats : EncodedForm.Statement .retrieveAllCompactedFormats :=
  ⟨fun _ => ⟨_, rfl, commandWord_reserved _ _⟩, fun h => by simp [Instr.port] at h⟩

theorem EncodedForm.queryFieldBitLocation (f : BitVec 16) : EncodedForm.Statement (.queryFieldBitLocation f) :=
  ⟨fun _ => ⟨_, rfl, commandWord_reserved _ _⟩, fun h => by simp [Instr.port] at h⟩

theorem EncodedForm.printFieldBitLocation (f : BitVec 16) : EncodedForm.Statement (.printFieldBitLocation f) :=
  ⟨fun _ => ⟨_, rfl, commandWord_reserved _ _⟩, fun h => by simp [Instr.port] at h⟩

theorem EncodedForm.interpretPosition (p : BitVec 16) : EncodedForm.Statement (.interpretPosition p) :=
  ⟨fun _ => ⟨_, rfl, commandWord_reserved _ _⟩, fun h => by simp [Instr.port] at h⟩

theorem EncodedForm.reinterpretEnum (e : BitVec 16) : EncodedForm.Statement (.reinterpretEnum e) :=
  ⟨fun _ => ⟨_, rfl, commandWord_reserved _ _⟩, fun h => by simp [Instr.port] at h⟩

theorem EncodedForm.collectFields (k : BitVec 16) : EncodedForm.Statement (.collectFields k) :=
  ⟨fun _ => ⟨_, rfl, commandWord_reserved _ _⟩, fun h => by simp [Instr.port] at h⟩

theorem EncodedForm.nativeInstruction (w0 w1 w2 w3 : Word) : EncodedForm.Statement (.nativeInstruction w0 w1 w2 w3) :=
  ⟨fun h => by simp [Instr.port] at h, fun _ h => by simp [Instr.wf] at h; simp [encode, h]⟩

theorem EncodedForm.compactInstruction (w0 w1 : Word) : EncodedForm.Statement (.compactInstruction w0 w1) :=
  ⟨fun h => by simp [Instr.port] at h, fun _ h => by simp [Instr.wf] at h; simp [encode, h]⟩

end Sys2Proof.Laws
end

