-- ==== Sys2Proof/Tests/Slice0.lean ====
section
/-! SUPPORT. Tests: the well-formedness smoke test, words written out from the spec's encodings, one step per
instruction on the example ROMs of 95_test_vectors.md, and a witness for the hypotheses of each statement.
Every expected value is copied from a vector, a program or a worked example of the spec, named beside it. -/

namespace Sys2Proof.Tests

open Sys2Proof Sys2Proof.Machine Sys2Proof.Claims

set_option maxRecDepth 8000

/-! ## The example ROMs (95_test_vectors.md 1) -/

/-- A decoding child table from a list. -/
def fieldTable : List FieldEntry → FieldTable
  | [] => .nil
  | e :: rest => .cons e (fieldTable rest)

/-- A mapping child table from a list. -/
def mapTable : List MapEntry → MapTable
  | [] => .nil
  | e :: rest => .cons e (mapTable rest)

/-- A masks child table from a list. -/
def maskTable : List MaskEntry → MaskTable
  | [] => .nil
  | e :: rest => .cons e (maskTable rest)

/-- A field in one fragment, with no restriction. -/
def plain (lo hi word : Nat) (shift : Int) (bitSize : Nat) : FieldEntry :=
  .consecutive ⟨lo, hi, word, shift⟩ bitSize []

/-- The restriction of `COND`. -/
def condEnum : List Restriction := [.enum [none, some 0x5, some 0x9]]

/-- A `OneToOne` mapping fragment. -/
def oneToOne (srcLo srcHi dstLow dstHigh : Nat) : MapFragment := ⟨srcLo, srcHi, dstLow, dstHigh, .oneToOne, 0⟩

/-- Opcode 1, `nativeDecoding`. -/
def toyNative : List FieldEntry :=
  [plain 0 6 0 0 7, plain 29 29 0 29 1, plain 16 23 0 16 8, .consecutive ⟨12, 13, 0, 12⟩ 2 condEnum,
   .nextTable 7 (fieldTable
     [plain 32 47 1 0 16, .fragmented [⟨48, 63, 1, 16⟩, ⟨64, 79, 2, -16⟩] 32 []]),
   .consecutive ⟨24, 27, 0, 23⟩ 5 [.padding 0 1], .notSupported, plain 31 31 0 31 1]

/-- Opcode 1, `compactDecoding`. -/
def toyCompact : List FieldEntry :=
  [plain 0 6 0 0 7, plain 29 29 0 29 1, .notSupported, .consecutive ⟨8, 9, 0, 8⟩ 2 condEnum,
   .nextTable 7 (fieldTable [plain 32 47 1 0 16, .notSupported]), .notSupported, plain 16 17 0 16 2,
   .fixedValue 0 1 []]

/-- Opcode 1, `compaction`, its compaction table given. -/
def toyMaps (entries : List U64) : List MapEntry :=
  [.valueMapping [oneToOne 0 6 0 6] 0x7F, .noMapping, .noMapping, .valueMapping [oneToOne 0 1 12 13] 3,
   .nextTable 7 (mapTable [.valueMapping [oneToOne 0 15 32 47] 0xFFFF, .notSupported]), .noMapping,
   .indexMapping [oneToOne 0 7 16 23, oneToOne 8 11 24 27] 3 ⟨.w32, entries⟩ 0,
   .valueMapping [⟨0, 0, 31, 31, .fixed, 0⟩] 0]

/-- `~0`. -/
def allOnes : Word := 0xFFFFFFFF

/-- Opcode 1, `nativeMasks`. -/
def toyNativeMasks : List MaskEntry :=
  [.masks #v[0, 0, 0, 0x80000000] #v[0xAFFF3F7F, allOnes, allOnes, allOnes],
   .nextTable 7 (maskTable
     [.masks #v[0, 0, 0, 0] #v[allOnes, allOnes, 0, allOnes],
      .masks #v[0, 0, 0, 0] #v[allOnes, allOnes, 0xFFFF, allOnes]]), .noMasks]

/-- Opcode 1, `compactMasks`. -/
def toyCompactMasks : List MaskEntry :=
  [.masks #v[0x20000000, 0, 0, 0] #v[0x2003037F, 0x0000FFFF, allOnes, allOnes], .noMasks]

/-- Opcode 1. -/
def toyMov (entries : List U64) : OpcodeTables :=
  ⟨toyNative, some toyCompact, some (toyMaps entries), toyNativeMasks, toyCompactMasks⟩

/-- Opcode 2. -/
def toyNop : OpcodeTables where
  nativeDecoding := [plain 0 6 0 0 7, plain 29 29 0 29 1] ++ List.replicate 6 .notSupported
  compactDecoding := none
  compaction := none
  nativeMasks := [.masks #v[0, 0, 0, 0] #v[0x7F, 0, 0, 0], .noMasks]
  compactMasks := [.noMasks]

/-- `TOY` of 95_test_vectors.md 1.1, its compaction table given (1.3 names variants of it). -/
def toy (entries : List U64) : ModelData where
  numberOfFields := 8
  signedFields := [4]
  fieldNames := ["OPCODE", "CMPT_CTRL", "DST_REG", "COND", "IMM", "SUBREG", "CTRL_INDEX", "IMM_KIND"]
  opcodes := [(1, toyMov entries), (2, toyNop)]
  positionInterpreters := [⟨4, [⟨8, 15, 0, 8⟩], 8, false, none⟩]
  enumReinterpreters := [⟨3, [none, some 1, some 0, none]⟩]
  collectors := [⟨[(2, 0), (5, 8)]⟩]

/-- `TOYCYC`, both decoding tables. -/
def cycDecoding : List FieldEntry := [plain 0 6 0 0 7, plain 29 29 0 29 1, plain 8 9 0 8 2, plain 10 11 0 10 2]

/-- A child table of four equal slots. -/
def four (e : MapEntry) : MapTable := mapTable [e, e, e, e]

/-- `TOYCYC` of 95_test_vectors.md 1.2. -/
def toyCyc : ModelData where
  numberOfFields := 4
  signedFields := []
  fieldNames := ["OPCODE", "CMPT_CTRL", "A", "B"]
  opcodes := [(1, ⟨cycDecoding, some cycDecoding,
    some [.valueMapping [oneToOne 0 6 0 6] 0x7F, .noMapping,
      .nextTable 3 (four (.valueMapping [oneToOne 0 1 8 9] 3)),
      .nextTable 2 (four (.valueMapping [oneToOne 0 1 10 11] 3))], [.noMasks], [.noMasks]⟩)]
  positionInterpreters := []
  enumReinterpreters := []
  collectors := []

/-- A child table of four equal slots. -/
def fourF (e : FieldEntry) : FieldTable := fieldTable [e, e, e, e]

/-- `TOYLOOP` of 95_test_vectors.md 1.3. -/
def toyLoop : ModelData where
  numberOfFields := 4
  signedFields := []
  fieldNames := ["OPCODE", "CMPT_CTRL", "A", "B"]
  opcodes := [(1, ⟨[plain 0 6 0 0 7, plain 29 29 0 29 1, .nextTable 3 (fourF (plain 8 9 0 8 2)),
    .nextTable 2 (fourF (plain 10 11 0 10 2))], none, none, [.noMasks], [.noMasks]⟩)]
  positionInterpreters := []
  enumReinterpreters := []
  collectors := []

/-- The compaction table of `TOY`. -/
def toyEntries : List U64 := [0x000, 0x201, 0x42A, 0x005]

/-- `{1: TOY, 2: TOYCYC}`: the default ROM. -/
def toyRom : Rom := ⟨[(1, toy toyEntries), (2, toyCyc)]⟩

/-- The variants: `TOY3` as model 3, `TOYLOOP` as model 4, `TOYDUP` as model 5. -/
def variantRom : Rom :=
  ⟨[(3, toy [0x000, 0x201, 0x42A]), (4, toyLoop), (5, toy [0x000, 0x42A, 0x42A, 0x005])]⟩

/-! ## Helpers -/

/-- A machine with an instance and one request to answer. -/
def machine (rom : Rom) (e : Engine) (r : Request) : State :=
  { State.reset with
    rom := rom, validationMode := true, maskSense := .forbiddenBits, eng := e, requests := [r] }

/-- The machine of most tests. -/
def on (e : Engine) (r : Request) : State := machine toyRom e r

/-- A command word with its two arguments. -/
def cmd (w : Word) (a0 : U64 := 0) (a1 : U64 := 0) : Request := { cmd := w, a0 := a0, a1 := a1, outReq := true }

/-- A `DECODE` request for bytes. -/
def decodeOf (m : U64) (bytes : List Byte) : Request :=
  { cmd := 0x00000002, a0 := m, a1 := BitVec.ofNat 64 bytes.length, inBuf := some bytes }

/-- The state after one step, if it has one. -/
def after (s : State) : Option State :=
  match step s with
  | .next t => some t
  | .fault _ => none
  | .refused _ => none

/-- The response of one step. -/
def reply (s : State) : Option Response := (after s).bind (·.responses.getLast?)

/-- The instance one step leaves. -/
def left (s : State) : Option Engine := (after s).map (·.eng)

/-- A successful response with a value. -/
def value (v : U64) : Option Response := some (.done .success v [] [])

/-- A response with a code. -/
def code (c : ResultCode) : Option Response := some (.done c 0 [] [])

/-- An instance of `TOY`, opcode 1, with a Valid native buffer only. -/
def mov (w0 w1 w2 w3 : Word) : Engine := nativeEngine 1 w0 w1 w2 w3

/-- P1 after step 5. -/
def assembled : Engine := mov 0x042A1001 0x0000FFFE 0 0

/-- P2's input bytes. -/
def p2Bytes : List Byte := [0x01, 0x01, 0x02, 0x20, 0xFE, 0xFF, 0x00, 0x00]

/-- P2 after step 1: both buffers Valid. -/
def both : Engine := compactEngine 1 0x20020101 0x0000FFFE #v[0x042A1001, 0x0000FFFE, 0, 0]

/-- Vector 28 of 3.2: the native buffer stale, `CTRL_INDEX` 3. -/
def staleNative : Engine :=
  { init := true, model := 1, opc := 1, nw := #v[0x042A1001, 0x0000FFFE, 0, 0], cw := #v[0x20030101, 0x0000FFFE],
    nv := false, cv := true, ne := false, ce := false }

/-- P1's end state. -/
def encoded : Engine :=
  { init := true, model := 1, opc := 1, nw := #v[0x042A1001, 0x0000FFFE, 0, 0x80000000],
    cw := #v[0x20020101, 0x0000FFFE], nv := true, cv := true, ne := true, ce := true }

/-! ## Well-formedness -/

/-- A native word with bit 29 set is ill-formed (R121). -/
theorem test_wf_native_refused : (Instr.nativeInstruction 0x20000001 0 0 0).wf = false := by decide
/-- A compact word with bit 29 clear is ill-formed (R122). -/
theorem test_wf_compact_refused : (Instr.compactInstruction 0x00000001 0).wf = false := by decide
/-- The well-formed neighbours of both. -/
theorem test_wf_accepted : (Instr.nativeInstruction 0x00000001 0 0 0).wf = true
    ∧ (Instr.compactInstruction 0x20000001 0).wf = true ∧ (Instr.getRawField 0xFFFF).wf = true := by decide

/-! ## Words written out from R171, R172, R121 and R122 -/

theorem test_word_init : decodeWords .command [0x00000001] = .ok (.init) := by decide
theorem test_word_decode : decodeWords .command [0x00000002] = .ok (.decode) := by decide
theorem test_word_encodeNative : decodeWords .command [0x00000003] = .ok (.encodeNative) := by decide
theorem test_word_encodeCompact : decodeWords .command [0x00000004] = .ok (.encodeCompact) := by decide
theorem test_word_setOpcode : decodeWords .command [0x00000005] = .ok (.setOpcode) := by decide
theorem test_word_isNativeEncoded : decodeWords .command [0x00000006] = .ok (.isNativeEncoded) := by decide
theorem test_word_isCompactEncoded : decodeWords .command [0x00000007] = .ok (.isCompactEncoded) := by decide
theorem test_word_getSignedField : decodeWords .command [0x00040010] = .ok (.getSignedField 4) := by decide
theorem test_word_getUnsignedField : decodeWords .command [0x00020011] = .ok (.getUnsignedField 2) := by decide
theorem test_word_getSigned64Field : decodeWords .command [0x80010012] = .ok (.getSigned64Field 0x8001) := by decide
theorem test_word_getUnsigned64Field : decodeWords .command [0x00040013] = .ok (.getUnsigned64Field 4) := by decide
theorem test_word_getRawField : decodeWords .command [0x00030014] = .ok (.getRawField 3) := by decide
theorem test_word_getFieldSize : decodeWords .command [0x00040015] = .ok (.getFieldSize 4) := by decide
theorem test_word_setSignedField : decodeWords .command [0x00040018] = .ok (.setSignedField 4) := by decide
theorem test_word_setUnsignedField : decodeWords .command [0x00030019] = .ok (.setUnsignedField 3) := by decide
theorem test_word_setSigned64Field : decodeWords .command [0x0004001A] = .ok (.setSigned64Field 4) := by decide
theorem test_word_setUnsigned64Field : decodeWords .command [0xFFFF001B] = .ok (.setUnsigned64Field 0xFFFF) := by decide
theorem test_word_countCompacted : decodeWords .command [0x00000020] = .ok (.countCompacted) := by decide
theorem test_word_retrieveAllCompactedFormats : decodeWords .command [0x00000021] = .ok (.retrieveAllCompactedFormats) := by decide
theorem test_word_queryFieldBitLocation : decodeWords .command [0x00040028] = .ok (.queryFieldBitLocation 4) := by decide
theorem test_word_printFieldBitLocation : decodeWords .command [0x00050029] = .ok (.printFieldBitLocation 5) := by decide
theorem test_word_interpretPosition : decodeWords .command [0x00010030] = .ok (.interpretPosition 1) := by decide
theorem test_word_reinterpretEnum : decodeWords .command [0x00010031] = .ok (.reinterpretEnum 1) := by decide
theorem test_word_collectFields : decodeWords .command [0x00010032] = .ok (.collectFields 1) := by decide
/-- W1's word 0: opcode 1, bit 29 clear. -/
theorem test_word_nativeInstruction :
    decodeWords .instruction [0x002A0001, 0, 0, 0] = .ok (.nativeInstruction 0x002A0001 0 0 0) := by decide
/-- P2's words: opcode 1, bit 29 set. -/
theorem test_word_compactInstruction :
    decodeWords .instruction [0x20020101, 0x0000FFFE] = .ok (.compactInstruction 0x20020101 0x0000FFFE) := by decide
/-- Vectors 9 and 10 of 3.8: an unassigned code, and nonzero reserved bits. -/
theorem test_word_rejected : decodeWords .command [0x00000008] = .error (.unassignedCode 8)
    ∧ decodeWords .command [0x00000111] = .error .reservedBits
    ∧ decodeWords .instruction [0x00000001, 0, 0] = .error .truncated := by decide
/-- The words of P2's bytes (R80). -/
theorem test_little_endian : leWords p2Bytes = [0x20020101, 0x0000FFFE] := by decide

/-! ## One step each -/

/-- R430 and vector 1 of 3.7, from power-on. -/
theorem test_init : left (on Engine.powerOn (cmd 0x00000001 1 1)) = some (mov 0x00000001 0 0 0) := by decide
/-- Vectors 2 and 3 of 3.7: models 3 and opcodes 3 and 200 do not exist. -/
theorem test_init_unknown : reply (on Engine.powerOn (cmd 0x00000001 3 1)) = code .invalidModel
    ∧ reply (on Engine.powerOn (cmd 0x00000001 1 200)) = code .opcodeNotSupported := by decide
/-- W8 and vectors 1 and 2 of 3.8: seven bytes, no buffer, a size past the buffer. -/
theorem test_decode_short : reply (on Engine.powerOn (decodeOf 1 (p2Bytes.take 7))) = code .bufferTooShort
    ∧ reply (on Engine.powerOn (cmd 0x00000002 1 8)) = code .nullPointer
    ∧ reply (on Engine.powerOn { decodeOf 1 p2Bytes with a1 := 16 }) = some (.refused .hostBufferShort) := by decide
/-- W8: opcode 2 has no compact tables; W6: `TOY3` has no entry 3. -/
theorem test_decode_no_compact : reply (on Engine.powerOn (decodeOf 1 [0x02, 0, 0, 0x20, 0, 0, 0, 0])) = code .badCompactEncoding
    ∧ reply (machine variantRom Engine.powerOn (decodeOf 3 [0x01, 0, 0x03, 0x20, 0, 0, 0, 0]))
      = code .badCompactEncoding := by decide
/-- W1: the bytes `01 00 2A 00` and twelve zeros. -/
theorem test_nativeInstruction : left (on Engine.powerOn (decodeOf 1 [0x01, 0, 0x2A, 0, 0, 0, 0, 0, 0, 0, 0, 0, 0, 0, 0, 0]))
      = some (mov 0x002A0001 0 0 0) := by decide
/-- Vector 4 of 3.8: opcode 3 does not exist. -/
theorem test_nativeInstruction_unknown : reply (on Engine.powerOn (decodeOf 1 (0x03 :: List.replicate 15 0))) = code .opcodeNotSupported := by decide
/-- P2 step 1 and R346. -/
theorem test_compactInstruction : left (on Engine.powerOn (decodeOf 1 p2Bytes)) = some both := by decide
/-- P5 step 1: the mappings of `A` and `B` depend on each other. -/
theorem test_compactInstruction_cyclic : reply (on Engine.powerOn (decodeOf 2 [0x01, 0x05, 0, 0x20, 0, 0, 0, 0])) = code .badCompactEncoding := by decide
/-- P1 step 7. -/
theorem test_encodeNative : reply (on assembled (cmd 0x00000003)) = some (.done .success 0
      [0x01, 0x10, 0x2A, 0x04, 0xFE, 0xFF, 0, 0, 0, 0, 0, 0, 0, 0, 0, 0x80] []) := by decide
/-- Vector 3 of 3.5: `IMM_KIND` 1 selects the second child of the mask chain. -/
theorem test_encodeNative_masks : (left (on (mov 0x842A1081 0x0000FFFE 0x12345678 0) (cmd 0x00000003))).map (·.nw)
      = some #v[0x842A1001, 0x0000FFFE, 0x5678, 0x80000000] := by decide
/-- P1 step 8. -/
theorem test_encodeCompact : reply (on assembled (cmd 0x00000004)) = some (.done .success 0 p2Bytes [])
    ∧ left (on assembled (cmd 0x00000004)) = some encoded := by decide
/-- P3 step 9: `IMM_KIND` 1 has no compact form, and the native masks stay applied. -/
theorem test_encodeCompact_none : reply (on (mov 0x842A1001 0x23450000 1 0) (cmd 0x00000004)) = code .noCompactForm
    ∧ left (on (mov 0x842A1001 0x23450000 1 0) (cmd 0x00000004))
      = some { mov 0x842A1001 0x23450000 1 0x80000000 with ne := true } := by decide
/-- Vector 11 of 3.7. -/
theorem test_setOpcode : left (on both (cmd 0x00000005 2))
      = some { nativeEngine 1 0x042A1002 0x0000FFFE 0 0 with cw := #v[0x20020101, 0x0000FFFE] } := by decide
/-- Vector 10 of 3.7. -/
theorem test_setOpcode_unknown : reply (on assembled (cmd 0x00000005 0x81)) = code .opcodeNotSupported
    ∧ left (on assembled (cmd 0x00000005 3)) = some assembled := by decide
/-- R442 and P1 step 6; vector 6 of 3.7. -/
theorem test_isNativeEncoded : reply (on assembled (cmd 0x00000006)) = value 0x100
    ∧ reply (on { assembled with ne := true } (cmd 0x00000006)) = value 0x501 := by decide
/-- P1 step 9; vector 6 of 3.7. -/
theorem test_isCompactEncoded : reply (on encoded (cmd 0x00000007)) = value 0xF01
    ∧ reply (on { assembled with ne := true } (cmd 0x00000007)) = value 0x500 := by decide
/-- P2 step 4; vector 3 of 3.2. -/
theorem test_getSignedField : reply (on both (cmd 0x00040010)) = value 0xFFFFFFFFFFFFFFFE
    ∧ reply (on (mov 0x80000001 0x23450000 1 0) (cmd 0x00040010)) = value 0x12345 := by decide
/-- R246; vector 7 of 3.2; W2 step 2. -/
theorem test_getUnsignedField : reply (on (mov 0x002A0001 0 0 0) (cmd 0x00020011)) = value 0x2A
    ∧ reply (on (mov 0x80000001 0xFFFF0000 0x0000FFFF 0) (cmd 0x00040011)) = some (.refused .doesNotFit)
    ∧ reply (on (mov 1 0 0 0) (cmd 0x00030011)) = code .invalidValue := by decide
/-- Vector 29 of 3.2: the stale native buffer is rebuilt. -/
theorem test_getUnsignedField_regenerates : reply (on staleNative (cmd 0x00020011)) = value 5
    ∧ left (on staleNative (cmd 0x00020011))
      = some { staleNative with nw := #v[0x00051001, 0x0000FFFE, 0, 0], nv := true } := by decide
/-- R247. -/
theorem test_getSigned64Field : reply (on (mov 1 0x00008000 0 0) (cmd 0x00040012)) = value 0xFFFFFFFFFFFF8000 := by decide
/-- R248. -/
theorem test_getUnsigned64Field : reply (on (mov 1 0x00008000 0 0) (cmd 0x00040013)) = value 0xFFFFFFFFFFFF8000 := by decide
/-- R249; P2 step 6, from the compact buffer. -/
theorem test_getRawField : reply (on (mov 1 0 0 0) (cmd 0x00030014)) = value 0
    ∧ reply (on both (cmd 0x00060014)) = value 2 := by decide
/-- P6 step 3: the cyclic chain of `TOYLOOP`. -/
theorem test_getRawField_loop : reply (machine variantRom (nativeEngine 4 1 0 0 0) (cmd 0x00020014)) = code .internalError := by decide
/-- R262; vector 26 of 3.2. -/
theorem test_getFieldSize : reply (on (mov 1 0 0 0) (cmd 0x00040015)) = value 16
    ∧ reply (on (mov 0x80000001 0 0 0) (cmd 0x00040015)) = value 32
    ∧ reply (on (mov 1 0 0 0) (cmd 0x00080015)) = value 0 := by decide
/-- R257; vector 4 of 3.2. -/
theorem test_setSignedField : left (on (mov 1 0 0 0) (cmd 0x00040018 0xFFFFFFFE)) = some (mov 1 0x0000FFFE 0 0)
    ∧ left (on (mov 0x80000001 0x23450000 1 0) (cmd 0x00040018 0xFFFFFFFF))
      = some (mov 0x80000001 0xFFFF0000 0x0000FFFF 0) := by decide
/-- Vectors 1 and 17 of 3.2. -/
theorem test_setSignedField_wide : reply (on (mov 1 0 0 0) (cmd 0x00040018 0x12345)) = code .invalidValue
    ∧ reply (on (mov 1 0 0 0) (cmd 0x00020018 0xFFFFFFFF)) = code .invalidValue := by decide
/-- R258; vector 34 of 3.2, both buffers. -/
theorem test_setUnsignedField : left (on (mov 1 0 0 0) (cmd 0x00020019 0x2A)) = some (mov 0x002A0001 0 0 0)
    ∧ left (on both (cmd 0x00030019 9))
      = some (compactEngine 1 0x20020201 0x0000FFFE #v[0x042A2001, 0x0000FFFE, 0, 0]) := by decide
/-- Vectors 11, 18, 22 and 24 of 3.2. -/
theorem test_setUnsignedField_refused : reply (on (mov 1 0 0 0) (cmd 0x00040019 0xFFFE)) = code .invalidValue
    ∧ reply (on (mov 1 0 0 0) (cmd 0x00050019 9)) = code .invalidValue
    ∧ reply (on (mov 1 0 0 0) (cmd 0x00010019 0)) = some (.refused .protectedBits)
    ∧ reply (on (mov 1 0 0 0) (cmd 0x00060019 1)) = code .invalidField := by decide
/-- R259. -/
theorem test_setSigned64Field : left (on (mov 1 0 0 0) (cmd 0x0004001A 0xFFFFFFFFFFFF8000)) = some (mov 1 0x00008000 0 0) := by decide
/-- R260; vector 28 of 3.2: only the compact buffer has `CTRL_INDEX`. -/
theorem test_setUnsigned64Field : reply (on (mov 1 0 0 0) (cmd 0x0002001B 0x100)) = code .invalidValue
    ∧ left (on both (cmd 0x0006001B 3)) = some staleNative := by decide
/-- Vectors 13 and 16 of 3.4. -/
theorem test_countCompacted : reply (on both (cmd 0x00000020)) = value 1
    ∧ reply { on both (cmd 0x00000020) with validationMode := false } = some (.refused .notInThisBuild) := by decide
/-- Vector 19 of 3.4: `TOYDUP`. -/
theorem test_countCompacted_two : reply (machine variantRom (nativeEngine 5 0x042A0001 0 0 0) (cmd 0x00000020)) = value 2 := by decide
/-- Vector 20 of 3.4: `TOYDUP`, ascending index. -/
theorem test_retrieveAllCompactedFormats : reply (machine variantRom (nativeEngine 5 0x042A0001 0 0 0) { cmd := 0x00000021, outCap := 16 })
      = some (.done .success 2 [0x01, 0, 0x01, 0x20, 0, 0, 0, 0, 0x01, 0, 0x02, 0x20, 0, 0, 0, 0] []) := by decide
/-- Vector 15 of 3.4. -/
theorem test_retrieveAllCompactedFormats_short : reply (on both { cmd := 0x00000021, outCap := 7 }) = code .bufferTooShort := by decide
/-- R445; vector 14 of 3.7. -/
theorem test_queryFieldBitLocation : reply (on (mov 0x80000001 0 0 0) (cmd 0x00040028)) = some (.done .success 0 [] [(48, 79)])
    ∧ reply (on (mov 1 0 0 0) (cmd 0x00060028)) = code .invalidField := by decide
/-- Vector 15 of 3.7. -/
theorem test_printFieldBitLocation : reply (on (mov 1 0 0 0) (cmd 0x00050029)) = some (.done .success 0 [] [(24, 27)]) := by decide
/-- Vectors 1 and 2 of 3.6. -/
theorem test_interpretPosition : reply (on (mov 1 0x0000FFFE 0 0) (cmd 0x00000030)) = value 0xFF
    ∧ reply (on (mov 1 0 0 0) (cmd 0x00010030)) = code .invalidField := by decide
/-- Vectors 5 and 4 of 3.6. -/
theorem test_reinterpretEnum : reply (on (mov 0x00001001 0 0 0) (cmd 0x00000031)) = value 1
    ∧ reply (on (mov 1 0 0 0) (cmd 0x00000031)) = code .invalidValue := by decide
/-- Vector 9 of 3.6. -/
theorem test_collectFields : reply (on (mov 0x042A0001 0 0 0) (cmd 0x00000032)) = value 0x82A := by decide
/-- R533: with no request pending nothing happens. -/
theorem test_idle : after State.reset = some State.reset := by rfl
/-- Vector 7 of 3.8: refused before the first load, and marked. -/
theorem test_refused_marks : reply (on Engine.powerOn (cmd 0x00000006)) = some (.refused .uninitialised)
    ∧ (after (on Engine.powerOn (cmd 0x00000006))).map (·.refusedMark) = some true := by decide
/-- P6 step 3: `faultMark` is set. -/
theorem test_loop_marks : (after (machine variantRom (nativeEngine 4 1 0 0 0) (cmd 0x00020014))).map (·.faultMark) = some true := by decide

/-- The numbers of R500's table. -/
theorem test_result_numbers : [ResultCode.success, .invalidField, .invalidValue, .noCompactForm, .badCompactEncoding,
    .nullPointer, .invalidModel, .bufferTooShort, .opcodeNotSupported, .internalError].map ResultCode.number
      = List.range 10
    ∧ (reply (on (mov 1 0 0 0) (cmd 0x00030011))).bind Response.resultNumber = some 2 := by decide

/-- R147's bound on an `Enum`, and R156's conditions 2, 3 and 7 where they concern position interpreters and
compact masks: `TOY` meets them, and each of four changes breaks one. -/
theorem test_rom_conditions : modelOk (toy toyEntries) = true
    ∧ terminalOk 4 ⟨.fragments [⟨12, 13, 0, 12⟩], 2, [.enum (List.replicate 5 none)]⟩ = false
    ∧ modelOk { toy toyEntries with positionInterpreters := [⟨4, [⟨64, 71, 2, 0⟩], 8, false, none⟩] } = false
    ∧ modelOk { toy toyEntries with positionInterpreters := [⟨4, [⟨8, 15, 0, 8⟩], 7, false, none⟩] } = false
    ∧ tablesOk 8 { toyMov toyEntries with
        compactMasks := [.nextTable 7 (maskTable [.noMasks, .noMasks, .noMasks])] } = false := by decide

/-! ## Witnesses: each statement's hypotheses are met -/

/-- The tables of `TOY`'s opcode 1. -/
def movEnv : Env := ⟨toy toyEntries, toyMov toyEntries, .forbiddenBits⟩

/-- The tables of `TOYDUP`'s opcode 1. -/
def dupEnv : Env := ⟨toy [0x000, 0x42A, 0x42A, 0x005], toyMov [0x000, 0x42A, 0x42A, 0x005], .forbiddenBits⟩

/-- `TOY3`'s opcode 1, its compaction table one entry short. -/
def shortEnv : Env := ⟨toy [0x000, 0x201, 0x42A], toyMov [0x000, 0x201, 0x42A], .forbiddenBits⟩

/-- An instance of `TOY3` whose stale native buffer cannot be rebuilt: `CTRL_INDEX` 3 is past the table. -/
def unbuildable : State := machine variantRom { staleNative with model := 3 } {}

/-- A ROM with one field, which has a fixed native value. -/
def fixedRom : Rom := ⟨[(6, { toyLoop with numberOfFields := 1, opcodes := [(1, ⟨[.fixedValue 5 3 []], none, none, [], []⟩)] })]⟩

/-- An instance over it, about to write 5. -/
def fixedState : State := machine fixedRom (nativeEngine 6 1 0 0 0) (cmd 0 5)

/-- `TOY` with descriptors over `CTRL_INDEX`, which only the compact buffer has, over `DST_REG`, and over field 8,
which is in neither. -/
def derivedModel : ModelData :=
  { toy toyEntries with
    positionInterpreters := [⟨6, [⟨0, 1, 0, 0⟩], 2, false, none⟩, ⟨6, [⟨0, 1, 0, 0⟩], 2, false, some condEnum⟩,
      ⟨6, [⟨0, 0, 0, 0⟩], 2, false, some condEnum⟩, ⟨8, [], 0, false, none⟩]
    enumReinterpreters := [⟨6, [none, none, some 7]⟩, ⟨8, []⟩]
    collectors := [⟨[]⟩, ⟨[(2, 0), (6, 8)]⟩, ⟨[(2, 0), (8, 0), (6, 8)]⟩] }

/-- An instance over it with both buffers Valid, and its tables. -/
def derivedState : State := machine ⟨[(1, derivedModel)]⟩ both {}
def derivedEnv : Env := ⟨derivedModel, toyMov toyEntries, .forbiddenBits⟩

/-- The machine of most witnesses: an instance and a request without operands. -/
def idle (e : Engine) : State := on e {}

/-- P1's native words before and after the masks. -/
def plainWords : Vector Word 4 := #v[0x042A1001, 0x0000FFFE, 0, 0]
def maskedWords : Vector Word 4 := #v[0x042A1001, 0x0000FFFE, 0, 0x80000000]

/-- `staleNative`'s native words, rebuilt (vector 29 of 3.2). -/
def rebuiltWords : Vector Word 4 := #v[0x00051001, 0x0000FFFE, 0, 0]

/-- `DST_REG`, `COND` and `CTRL_INDEX` as their terminal entries. -/
def dstReg : Terminal := ⟨.fragments [⟨16, 23, 0, 16⟩], 8, []⟩
def cond : Terminal := ⟨.fragments [⟨12, 13, 0, 12⟩], 2, condEnum⟩
def ctrlIndex : Terminal := ⟨.fragments [⟨16, 17, 0, 16⟩], 2, []⟩
def immWide : Terminal := ⟨.fragments [⟨48, 63, 1, 16⟩, ⟨64, 79, 2, -16⟩], 32, []⟩

/-- The three instances most witnesses use: native only, both buffers, native stale. -/
theorem wit_ready (r : Request) : Ready (on assembled r) movEnv ∧ Ready (on both r) movEnv
    ∧ Ready (on staleNative r) movEnv ∧ Ready (on encoded r) movEnv :=
  ⟨⟨rfl, rfl⟩, ⟨rfl, rfl⟩, ⟨rfl, rfl⟩, ⟨rfl, rfl⟩⟩

theorem wit_readable (r : Request) : Readable (on assembled r) movEnv plainWords
    ∧ Readable (on both r) movEnv plainWords ∧ Readable (on staleNative r) movEnv rebuiltWords :=
  ⟨⟨.inl ⟨rfl, rfl⟩, fun h => by cases h⟩, ⟨.inl ⟨rfl, rfl⟩, fun h => by cases h⟩,
    ⟨.inr ⟨rfl, by show buildNative movEnv staleNative.cw = _; decide⟩, fun _ => rfl⟩⟩

theorem wit_maskedWords (r : Request) :
    MaskedWords (on assembled r) movEnv plainWords maskedWords
    ∧ MaskedWords (on encoded r) movEnv maskedWords maskedWords
    ∧ MaskedWords (on staleNative r) movEnv rebuiltWords #v[0x00051001, 0x0000FFFE, 0, 0x80000000] :=
  ⟨⟨.inl ⟨rfl, rfl⟩, .inr ⟨by simp [on, machine, assembled, mov, nativeEngine], by decide⟩⟩,
    ⟨.inl ⟨rfl, rfl⟩, .inl ⟨rfl, rfl, rfl⟩⟩,
    ⟨.inr ⟨rfl, by show buildNative movEnv staleNative.cw = _; decide⟩,
      .inr ⟨by simp [on, machine, staleNative], by decide⟩⟩⟩

theorem wit_nativeField :
    NativeField movEnv plainWords 2 dstReg ∧ NativeField movEnv plainWords 3 cond
    ∧ NativeField movEnv rebuiltWords 2 dstReg ∧ NativeField movEnv #v[0x80000001, 0, 0, 0] 4 immWide :=
  ⟨⟨by decide, by show ∀ p ∈ _, fragOk 4 p = true; decide⟩, ⟨by decide, by show ∀ p ∈ _, fragOk 4 p = true; decide⟩,
    ⟨by decide, by show ∀ p ∈ _, fragOk 4 p = true; decide⟩, ⟨by decide, by show ∀ p ∈ _, fragOk 4 p = true; decide⟩⟩

/-- A field without a native position in three instances, and a native buffer that cannot be rebuilt. -/
theorem wit_noNativeRead : NoNativeRead (idle assembled) movEnv 6 assembled ∧ NoNativeRead (idle both) movEnv 6 both
    ∧ NoNativeRead (idle staleNative) movEnv 6 { staleNative with nw := rebuiltWords, nv := true }
    ∧ Ready unbuildable shortEnv ∧ NoNativeRead unbuildable shortEnv 6 unbuildable.eng
    ∧ CompactField shortEnv unbuildable.eng.cw 6 ⟨.fragments [⟨16, 17, 0, 16⟩], 2, []⟩ :=
  ⟨.inl ⟨plainWords, (wit_readable {}).1, by decide, rfl⟩, .inl ⟨plainWords, (wit_readable {}).2.1, by decide, rfl⟩,
    .inl ⟨rebuiltWords, (wit_readable {}).2.2, by decide, rfl⟩, ⟨rfl, rfl⟩, .inr ⟨⟨rfl, fun _ => by decide⟩, rfl⟩,
    ⟨by decide, by show ∀ p ∈ _, fragOk 2 p = true; decide⟩⟩

/-- The raw values of a compact and of a native field, and a field in neither buffer; the same two fields with a
native buffer that cannot be rebuilt. -/
theorem wit_rawRead : Ready derivedState derivedEnv ∧ RawRead derivedState derivedEnv 6 both 2
    ∧ RawRead derivedState derivedEnv 2 both 0x2A ∧ NoRead derivedState derivedEnv 8 both
    ∧ RawRead unbuildable shortEnv 6 unbuildable.eng 3 ∧ NoRead unbuildable shortEnv 2 unbuildable.eng :=
  have readable : Readable derivedState derivedEnv plainWords := ⟨.inl ⟨rfl, rfl⟩, fun h => by cases h⟩
  ⟨⟨rfl, rfl⟩,
    .inr ⟨.inl ⟨plainWords, readable, by decide, rfl⟩, rfl, ctrlIndex,
      ⟨by decide, by show ∀ p ∈ _, fragOk 2 p = true; decide⟩, by decide⟩,
    .inl ⟨plainWords, dstReg, readable, ⟨by decide, by show ∀ p ∈ _, fragOk 4 p = true; decide⟩, rfl, by decide⟩,
    ⟨.inl ⟨plainWords, readable, by decide, rfl⟩, fun _ => by decide⟩,
    .inr ⟨wit_noNativeRead.2.2.2.2.1, rfl, _, wit_noNativeRead.2.2.2.2.2, by decide⟩,
    ⟨.inr ⟨⟨rfl, fun _ => by decide⟩, rfl⟩, fun _ => by decide⟩⟩

/-- A rebuild that is due and fails. -/
theorem wit_rebuildFails : Ready unbuildable shortEnv ∧ RebuildFails unbuildable shortEnv :=
  ⟨⟨rfl, rfl⟩, rfl, by decide⟩

theorem wit_compactField :
    CompactField movEnv both.cw 6 ctrlIndex ∧ CompactField movEnv staleNative.cw 0 ⟨.fragments [⟨0, 6, 0, 0⟩], 7, []⟩ :=
  ⟨⟨by decide, by show ∀ p ∈ _, fragOk 2 p = true; decide⟩, ⟨by decide, by show ∀ p ∈ _, fragOk 2 p = true; decide⟩⟩

/-- The request list is used up: from power-on, and after one step. -/
theorem wit_PowerOnIsUninitialisedAndIdle : State.reset.requests.length ≤ State.reset.index
    ∧ ({ idle both with index := 1 } : State).requests.length ≤ ({ idle both with index := 1 } : State).index := by
  decide

theorem wit_StepRunsTheDecodedRequest :
    (on assembled (cmd 0x00000007)).requests[0]? = some (cmd 0x00000007)
    ∧ decodeRequest (cmd 0x00000007) = .ok .isCompactEncoded
    ∧ decodeRequest (decodeOf 1 p2Bytes) = .ok (.compactInstruction 0x20020101 0x0000FFFE) := by decide

/-- An unassigned code past the last one, reserved bits at both ends, the least and the largest code. -/
theorem wit_CommandWordsAreCheckedAndReadAsR171Says :
    ((0x00000033 : Word).extractLsb' 0 8).toNat ∉ assignedCodes ∧ ((0x00000000 : Word).extractLsb' 0 8).toNat ∉ assignedCodes
    ∧ (0x00000101 : Word).extractLsb' 8 8 ≠ 0 ∧ (0x00008001 : Word).extractLsb' 8 8 ≠ 0
    ∧ (0xFFFF0001 : Word).extractLsb' 8 8 = 0 ∧ ((0xFFFF0001 : Word).extractLsb' 0 8).toNat ∈ assignedCodes
    ∧ ((0x00000032 : Word).extractLsb' 0 8).toNat ∈ assignedCodes
    ∧ decodeCommand 0xFFFF0032 = .ok (.collectFields 0xFFFF)
    ∧ ((0xFFFF0032 : Word).extractLsb' 0 8).toNat ∉ idlessCodes
    ∧ (0x01 : BitVec 8).toNat ∈ idlessCodes ∧ (0x21 : BitVec 8).toNat ∈ idlessCodes := by decide

theorem wit_DecodeOfEncodeIsTheInstruction : (Instr.nativeInstruction 0xDFFFFFFF 0 0 0).wf = true
    ∧ (Instr.compactInstruction 0xFFFFFFFF 0).wf = true := by decide

theorem wit_RequestForAnInstructionAsksForIt :
    Instr.decode.wf = true ∧ (Instr.decode = .decode → (cmd 0x00000002).inBuf = none) := by decide

theorem wit_EveryStepKeepsTheStatusInvariant :
    (on both (cmd 0x00000003)).statusInv ∧ (after (on both (cmd 0x00000003))).isSome = true :=
  ⟨by unfold State.statusInv; decide, by decide⟩

theorem wit_EveryStepKeepsTheFormatInvariant :
    romKeepsFormat toyRom = true ∧ (on both (cmd 0x00000003)).statusInv ∧ (on both (cmd 0x00000003)).formatInv
    ∧ (after (on both (cmd 0x00000003))).isSome = true :=
  ⟨by decide, by unfold State.statusInv; decide, by unfold State.formatInv; decide, by decide⟩

/-- A success, a code, a refusal and an `InternalError` as responses of `exec`. -/
theorem wit_MarksRecordInternalErrorsAndRefusals :
    (∃ t, exec .isNativeEncoded (idle both) = .next t ∧ answered (idle both) t (.done .success 0x300 [] []))
    ∧ (∃ t, exec (.getUnsignedField 3) (idle (mov 1 0 0 0)) = .next t
      ∧ answered (idle (mov 1 0 0 0)) t (.done .invalidValue 0 [] []))
    ∧ (∃ t, step (on both (cmd 0x00000033)) = .next t
      ∧ answered (on both (cmd 0x00000033)) t (.refused (.rejected (.unassignedCode 0x33)))) :=
  ⟨⟨_, rfl, by unfold answered; decide⟩, ⟨_, rfl, by unfold answered; decide⟩, ⟨_, rfl, by unfold answered; decide⟩⟩

theorem wit_RefusalsAndInternalErrorsOnlySetTheirMark :
    (∃ t, exec (.setUnsignedField 1) (idle both) = .next t ∧ answered (idle both) t (.refused .protectedBits))
    ∧ (∃ t, exec (.getRawField 2) (machine variantRom (nativeEngine 4 1 0 0 0) {}) = .next t
      ∧ answered (machine variantRom (nativeEngine 4 1 0 0 0) {}) t (.done .internalError 0 [] [])) :=
  ⟨⟨_, rfl, by unfold answered; decide⟩, ⟨_, rfl, by unfold answered; decide⟩⟩

theorem wit_ErrorsCarryOnlyTheirCode :
    ∃ t, exec .encodeCompact (idle (mov 0x842A1001 0 0 0)) = .next t
      ∧ answered (idle (mov 0x842A1001 0 0 0)) t (.done .noCompactForm 0 [] []) :=
  ⟨_, rfl, by unfold answered; decide⟩

theorem wit_UninitialisedInstancesRefuse : isLoad .countCompacted = false ∧ (idle Engine.powerOn).eng.init = false := by
  decide

theorem wit_FailedLoadsLeaveTheInstanceUninitialised :
    ∃ t, exec .init (on both (cmd 0x00000001 3 1)) = .next t
      ∧ answered (on both (cmd 0x00000001 3 1)) t (.done .invalidModel 0 [] []) :=
  ⟨_, rfl, by unfold answered; decide⟩

/-- Two instances that differ in the words of the stale native buffer. -/
theorem wit_StaleAndUninitialisedContentsAreUnobservable :
    (idle staleNative).statusInv ∧ (idle { staleNative with nw := #v[7, 7, 7, 7] }).statusInv
    ∧ (idle staleNative).sameVisible (idle { staleNative with nw := #v[7, 7, 7, 7] })
    ∧ (∃ t, exec (.getRawField 2) (idle staleNative) = .next t)
    ∧ ∃ t, exec (.getRawField 2) (idle { staleNative with nw := #v[7, 7, 7, 7] }) = .next t :=
  ⟨by unfold State.statusInv; decide, by unfold State.statusInv; decide,
    ⟨by unfold Engine.sameVisible; decide, rfl⟩, ⟨_, rfl⟩, ⟨_, rfl⟩⟩

theorem wit_ReadsOnlyRebuildAStaleNativeBuffer :
    isRead (.getRawField 2) = true ∧ ∃ t, exec (.getRawField 2) (idle staleNative) = .next t
      ∧ answered (idle staleNative) t (.done .success 5 [] []) :=
  ⟨rfl, _, rfl, by unfold answered; decide⟩

/-- The three clauses: model 1 with opcode 1, no model 3 (and no model past 32 bits), opcodes 3 and 128. -/
theorem wit_InitGivesAFreshInstance :
    findModel toyRom 1 = some (toy toyEntries) ∧ findTables (toy toyEntries) 1 = some (toyMov toyEntries)
    ∧ findModel toyRom 3 = none ∧ findModel toyRom (2 ^ 32 + 1) = none
    ∧ findTables (toy toyEntries) 127 = none ∧ 127 < (128 : U64).toNat := by decide

theorem wit_DecodeLoadsTheInstructionItIsGiven :
    (idle both).rom = toyRom ∧ findModel toyRom (decodeOf 1 p2Bytes).a0.toNat = some (toy toyEntries)
    ∧ (decodeOf 1 p2Bytes).inBuf = some p2Bytes ∧ (decodeOf 1 p2Bytes).a1.toNat = p2Bytes.length
    ∧ findTables (toy toyEntries) ((hostWord p2Bytes 0).extractLsb' 0 7) = some (toyMov toyEntries)
    ∧ (hostWord (0x01 :: List.replicate 15 0) 0).getLsbD 29 = false
    ∧ findTables (toy toyEntries) ((hostWord (0x01 :: List.replicate 15 0) 0).extractLsb' 0 7) = some (toyMov toyEntries)
    ∧ (hostWord p2Bytes 0).getLsbD 29 = true
    ∧ buildNative movEnv #v[hostWord p2Bytes 0, hostWord p2Bytes 1] = .ok plainWords :=
  ⟨rfl, by decide, rfl, by decide, by decide, by decide⟩

theorem wit_InstructionWordsLoad :
    findModel (on both (cmd 0 1)).rom (on both (cmd 0 1)).request.a0.toNat = some (toy toyEntries)
    ∧ findTables (toy toyEntries) ((0x20020101 : Word).extractLsb' 0 7) = some (toyMov toyEntries)
    ∧ (0x002A0001 : Word).getLsbD 29 = false ∧ (0x20020101 : Word).getLsbD 29 = true
    ∧ buildNative movEnv #v[0x20020101, 0x0000FFFE] = .ok plainWords :=
  ⟨by decide, by decide⟩

theorem wit_DecodeIsTheLoadOfTheCarriedWord :
    carriedInstruction (on both (decodeOf 1 p2Bytes)).request = some (.compactInstruction 0x20020101 0x0000FFFE) := by
  decide

/-- P5 step 1's bytes, and a compact word of opcode 3. -/
def cycBytes : List Byte := [0x01, 0x05, 0x00, 0x20, 0, 0, 0, 0]
def opcode3Bytes : List Byte := [0x03, 0x00, 0x00, 0x20, 0, 0, 0, 0]

/-- A ROM whose one field's compact fragment is malformed. -/
def brokenTables : OpcodeTables :=
  ⟨[plain 0 6 0 0 7], some [plain 0 6 1 0 7], some [.valueMapping [oneToOne 0 6 0 6] 0x7F], [], []⟩
def brokenModel : ModelData := { toyLoop with numberOfFields := 1, opcodes := [(1, brokenTables)] }

/-- Each check at a boundary: no buffer, one byte short, model 3, sizes 7 and 15, opcode 3 in both formats, the
cyclic table of P5, and a malformed fragment. -/
theorem wit_DecodeChecksInOrder :
    (cmd 0x00000002 1 8).inBuf = none ∧ p2Bytes.length < (9 : U64).toNat ∧ (8 : U64).toNat ≤ p2Bytes.length
    ∧ findModel toyRom 3 = none ∧ (7 : U64).toNat < 8 ∧ (8 : U64).toNat < 16 ∧ (15 : U64).toNat < 16
    ∧ (hostWord (0x01 :: List.replicate 14 0) 0).getLsbD 29 = false
    ∧ findTables (toy toyEntries) ((hostWord opcode3Bytes 0).extractLsb' 0 7) = none
    ∧ (hostWord opcode3Bytes 0).getLsbD 29 = true ∧ 8 ≤ (decodeOf 1 opcode3Bytes).a1.toNat
    ∧ findTables (toy toyEntries) ((hostWord (0x03 :: List.replicate 15 0) 0).extractLsb' 0 7) = none
    ∧ 16 ≤ (decodeOf 1 (0x03 :: List.replicate 15 0)).a1.toNat
    ∧ findModel toyRom 2 = some toyCyc ∧ (hostWord cycBytes 0).getLsbD 29 = true
    ∧ (findTables toyCyc ((hostWord cycBytes 0).extractLsb' 0 7)).map
        (fun tabs => buildNative ⟨toyCyc, tabs, .forbiddenBits⟩ #v[hostWord cycBytes 0, hostWord cycBytes 1])
      = some (.error (.raise .badCompactEncoding))
    ∧ findModel ⟨[(7, brokenModel)]⟩ 7 = some brokenModel
    ∧ findTables brokenModel ((hostWord cycBytes 0).extractLsb' 0 7) = some brokenTables
    ∧ buildNative ⟨brokenModel, brokenTables, .forbiddenBits⟩ #v[hostWord cycBytes 0, hostWord cycBytes 1]
      = .error (.raise .internalError) := by decide

theorem wit_EncodeCompactMasksAValidBuffer :
    Ready (idle both) movEnv ∧ Ready (idle encoded) movEnv
    ∧ applyCompactMasks movEnv both.cw = .ok both.cw ∧ both.ce = false ∧ encoded.ce = true ∧ both.cv = true :=
  ⟨(wit_ready {}).2.1, (wit_ready {}).2.2.2, by decide⟩

theorem wit_EncodeCompactRebuildsAStaleBuffer :
    Ready (idle assembled) movEnv ∧ MaskedWords (idle assembled) movEnv plainWords maskedWords
    ∧ assembled.cv = false
    ∧ buildCompact movEnv maskedWords = .ok #v[0x20020101, 0x0000FFFE]
    ∧ applyCompactMasks movEnv #v[0x20020101, 0x0000FFFE] = .ok #v[0x20020101, 0x0000FFFE] :=
  ⟨(wit_ready {}).1, (wit_maskedWords {}).1, by decide⟩

theorem wit_FailedCompactionKeepsThePreparation :
    Ready (idle (mov 0x002B0001 0 0 0)) movEnv
    ∧ MaskedWords (idle (mov 0x002B0001 0 0 0)) movEnv #v[0x002B0001, 0, 0, 0] #v[0x002B0001, 0, 0, 0x80000000]
    ∧ buildCompact movEnv #v[0x002B0001, 0, 0, 0x80000000] = .error (.raise .noCompactForm) :=
  ⟨⟨rfl, rfl⟩, ⟨⟨.inl ⟨rfl, rfl⟩, .inr ⟨by decide, by decide⟩⟩, by decide⟩⟩

/-- A machine with three requests that have an output buffer. -/
def threeRequests : State := { on both (cmd 0x00000002 1) with requests := List.replicate 3 (cmd 0x00000002 1) }

/-- P2's steps 1, 8 and 9. -/
theorem wit_CompactBytesRoundTrip :
    ∃ t u, exec (.compactInstruction 0x20020101 0x0000FFFE) threeRequests = .next t
      ∧ answered threeRequests t (.done .success 0 [] [])
      ∧ exec .encodeNative t = .next u
      ∧ answered t u (.done .success 0 [0x01, 0x10, 0x2A, 0x04, 0xFE, 0xFF, 0, 0, 0, 0, 0, 0, 0, 0, 0, 0x80] [])
      ∧ u.env = some movEnv ∧ u.request.outReq = true
      ∧ applyCompactMasks movEnv #v[0x20020101, 0x0000FFFE] = .ok #v[0x20020101, 0x0000FFFE] :=
  ⟨_, _, rfl, by unfold answered; decide, rfl, by unfold answered; decide, by decide, by decide, by decide⟩

theorem wit_SetOpcodeKeepsEveryOtherNativeBit :
    Ready (on assembled (cmd 5 2)) movEnv ∧ Ready (on staleNative (cmd 5 2)) movEnv
    ∧ NativeWords (on assembled (cmd 5 2)) movEnv plainWords ∧ NativeWords (on staleNative (cmd 5 2)) movEnv rebuiltWords
    ∧ findTables movEnv.md 2 = some toyNop ∧ findTables movEnv.md 127 = none
    ∧ RebuildFails unbuildable shortEnv ∧ (∃ tabs, findTables shortEnv.md 2 = some tabs) :=
  ⟨(wit_ready _).1, (wit_ready _).2.2.1, .inl ⟨rfl, rfl⟩, .inr ⟨rfl, by decide⟩, by decide, by decide,
    wit_rebuildFails.2, _, rfl⟩

theorem wit_StatusQueriesReportTheStatusWord : (idle encoded).eng.init = true ∧ (idle (mov 1 0 0 0)).eng.init = true := by
  decide

/-- The widest fragment, one with a negative shift, and one that ends at bit 63 of the value. -/
theorem wit_FragmentContributionsAgree : fragOk 4 ⟨96, 127, 3, 0⟩ = true ∧ fragOk 4 ⟨64, 79, 2, -16⟩ = true
    ∧ fragOk 2 ⟨31, 31, 0, -32⟩ = true := by decide

/-- A value that fits both types, and two that fit one of them; `COND` with the empty slot 0; `CTRL_INDEX`, which
only a Valid compact buffer has, in an instance with one, without one, and with a native buffer that cannot be
rebuilt; `COND` with the empty slot 0 in the compact buffer of the last. -/
theorem wit_GettersReadTheProcessedValue :
    Ready (idle assembled) movEnv ∧ Readable (idle assembled) movEnv plainWords ∧ NativeField movEnv plainWords 2 dstReg
    ∧ decodePipeline (fieldSignInfo movEnv 2 dstReg) dstReg.rs (rawValue plainWords dstReg) = .ok 0x2A
    ∧ decodePipeline (fieldSignInfo movEnv 4 immWide) immWide.rs (rawValue #v[0, 0xFFFF0000, 0xFFFF, 0] immWide)
      = .ok 0xFFFFFFFFFFFFFFFF
    ∧ decodePipeline ⟨false, 32⟩ [] 0xFFFFFFFF = .ok 0xFFFFFFFF
    ∧ decodePipeline (fieldSignInfo movEnv 3 cond) cond.rs (rawValue #v[1, 0, 0, 0] cond) = .error (.raise .invalidValue)
    ∧ NoNativeRead (idle assembled) movEnv 6 assembled ∧ NoNativeRead (idle both) movEnv 6 both
    ∧ CompactField movEnv both.cw 6 ctrlIndex ∧ resolve (compactCtx movEnv both.cw) 8 8 = .ok .absent
    ∧ Ready unbuildable shortEnv ∧ NoNativeRead unbuildable shortEnv 6 unbuildable.eng
    ∧ decodePipeline ⟨false, 2⟩ condEnum (rawValue #v[0x20030001, 0] ⟨.fragments [⟨8, 9, 0, 8⟩], 2, condEnum⟩)
      = .error (.raise .invalidValue) :=
  ⟨(wit_ready {}).1, (wit_readable {}).1, wit_nativeField.1, by decide, by decide, by decide, by decide,
    wit_noNativeRead.1, wit_noNativeRead.2.1, wit_compactField.1, by decide, wit_noNativeRead.2.2.2.1,
    wit_noNativeRead.2.2.2.2.1, by decide⟩

/-- `CTRL_INDEX` with a stale and a Valid compact buffer, field 8 in either buffer, and an instance whose stale
native buffer cannot be rebuilt. -/
theorem wit_RawReadsFallBackToTheCompactBuffer :
    Ready (idle assembled) movEnv ∧ Ready (idle both) movEnv ∧ CompactField movEnv both.cw 6 ctrlIndex
    ∧ NoNativeRead (idle assembled) movEnv 6 assembled ∧ NoNativeRead (idle both) movEnv 6 both
    ∧ NoNativeRead (idle both) movEnv 8 both ∧ resolve (compactCtx movEnv both.cw) 8 8 = .ok .absent
    ∧ Ready unbuildable shortEnv ∧ NoNativeRead unbuildable shortEnv 6 unbuildable.eng
    ∧ unbuildable.eng.cv = true ∧ CompactField shortEnv unbuildable.eng.cw 6 ⟨.fragments [⟨16, 17, 0, 16⟩], 2, []⟩ :=
  ⟨(wit_ready {}).1, (wit_ready {}).2.1, wit_compactField.1, wit_noNativeRead.1, wit_noNativeRead.2.1,
    .inl ⟨plainWords, (wit_readable {}).2.1, by decide, rfl⟩, by decide, wit_noNativeRead.2.2.2.1,
    wit_noNativeRead.2.2.2.2.1, rfl, wit_noNativeRead.2.2.2.2.2⟩

theorem wit_GetFieldSizeReportsTheEntrySize :
    Ready (idle assembled) movEnv ∧ Readable (idle assembled) movEnv plainWords ∧ Ready (idle both) movEnv
    ∧ resolve (nativeCtx movEnv plainWords) 8 2 = .ok (.found dstReg)
    ∧ NoNativeRead (idle assembled) movEnv 6 assembled ∧ NoNativeRead (idle both) movEnv 6 both
    ∧ resolve (compactCtx movEnv both.cw) 8 6 = .ok (.found ctrlIndex)
    ∧ resolve (compactCtx movEnv both.cw) 8 8 = .ok .absent :=
  ⟨(wit_ready {}).1, (wit_readable {}).1, (wit_ready {}).2.1, by decide, wit_noNativeRead.1, wit_noNativeRead.2.1,
    by decide⟩

theorem wit_NothingIsDeferredOutsideABuild : (nativeCtx movEnv plainWords).unwritten = none
    ∧ frag ⟨none, 9, plainWords, some (1 <<< 23)⟩ ⟨16, 23, 0, 16⟩ = .ok .deferred
    ∧ frag ⟨none, 9, plainWords, some (1 <<< 24)⟩ ⟨16, 23, 0, 16⟩ = .ok (.found 0x2A) := by decide

theorem wit_WellFormedRomsNeverSpendTheBudget :
    findModel toyRom 1 = some (toy toyEntries) ∧ findTables (toy toyEntries) 2 = some toyNop
    ∧ romOk toyRom = true ∧ romOk variantRom = false :=
  ⟨by decide, by decide, by decide⟩

theorem wit_ExtractionAfterInsertion :
    (∀ p ∈ [(⟨48, 63, 1, 16⟩ : Fragment), ⟨64, 79, 2, -16⟩], fragOk 4 p = true)
    ∧ [(⟨48, 63, 1, 16⟩ : Fragment), ⟨64, 79, 2, -16⟩].Pairwise
      (fun p q => p.highBit < q.lowBit ∨ q.highBit < p.lowBit)
    ∧ [(⟨48, 63, 1, 16⟩ : Fragment), ⟨64, 79, 2, -16⟩].Pairwise
      (fun p q => fragDst p + fragWidth p ≤ fragDst q ∨ fragDst q + fragWidth q ≤ fragDst p)
    ∧ insertFrags plainWords [(⟨48, 63, 1, 16⟩ : Fragment), ⟨64, 79, 2, -16⟩] 0x12345
      = .ok #v[0x042A1001, 0x2345FFFE, 1, 0]
    ∧ (nativeCtx movEnv #v[0x042A1001, 0x2345FFFE, 1, 0]).unwritten = none := by decide

/-- `DST_REG` natively, `CTRL_INDEX` with the compact buffer alone, the fixed entries of `fixedRom` and of `TOY`'s
compact `IMM_KIND`, absent fields, and a value of no slot in either buffer. -/
theorem wit_SettersWriteTheEncodedValue :
    Ready (on assembled (cmd 0 0x2A)) movEnv ∧ NativeField movEnv assembled.nw 2 dstReg
    ∧ setterValue 0x2A (.setUnsignedField 2) = some (2, 0x2A)
    ∧ setterValue 0xFFFFFFFF (.setSignedField 4) = some (4, 0xFFFFFFFFFFFFFFFF)
    ∧ assembled.nv = true ∧ assembled.cv = false
    ∧ (Unprotected [⟨16, 23, 0, 16⟩] ∧ Unprotected [⟨16, 17, 0, 16⟩])
    ∧ encodePipeline .forbiddenBits (fieldSignInfo movEnv 2 dstReg) dstReg.rs 0x2A = .ok 0x2A
    ∧ encodePipeline .forbiddenBits (fieldSignInfo movEnv 3 cond) cond.rs 7 = .error (.raise .invalidValue)
    ∧ resolve (nativeCtx movEnv assembled.nw) 8 6 = .ok .absent
    ∧ (Ready fixedState ⟨{ toyLoop with numberOfFields := 1, opcodes := [(1, ⟨[.fixedValue 5 3 []], none, none, [], []⟩)] },
        ⟨[.fixedValue 5 3 []], none, none, [], []⟩, .forbiddenBits⟩
      ∧ resolve (nativeCtx ⟨toyLoop, ⟨[.fixedValue 5 3 []], none, none, [], []⟩, .forbiddenBits⟩ fixedState.eng.nw) 1 0
        = .ok (.found ⟨.fixed 5, 3, []⟩)
      ∧ encodePipeline .forbiddenBits ⟨false, 3⟩ [] 5 = .ok 5)
    ∧ Ready (on staleNative (cmd 0 2)) movEnv ∧ CompactField movEnv staleNative.cw 6 ctrlIndex
    ∧ encodePipeline .forbiddenBits (fieldSignInfo movEnv 6 ctrlIndex) ctrlIndex.rs 2 = .ok 2
    ∧ resolve (compactCtx movEnv staleNative.cw) 8 7 = .ok (.found ⟨.fixed 0, 1, []⟩)
    ∧ encodePipeline .forbiddenBits ⟨false, 1⟩ [] 1 = .ok 1
    ∧ resolve (compactCtx movEnv staleNative.cw) 8 2 = .ok .absent
    ∧ staleNative.nv = false ∧ staleNative.cv = true :=
  ⟨(wit_ready _).1, wit_nativeField.1, by decide, by decide, rfl, rfl,
    ⟨by intro p hp b hb; simp at hp; subst hp; simp [covers]; omega,
      by intro p hp b hb; simp at hp; subst hp; simp [covers]; omega⟩,
    by decide, by decide, by decide, ⟨⟨rfl, rfl⟩, by decide, by decide⟩, (wit_ready _).2.2.1,
    ⟨by decide, by show ∀ p ∈ _, fragOk 2 p = true; decide⟩, by decide⟩

/-- `COND`, `DST_REG`, `CTRL_INDEX`, and `COND` with a value of no slot: one field for each clause. -/
theorem wit_WritesCommitEachBufferThatSucceeds :
    Ready (on both (cmd 0 9)) movEnv ∧ both.nv = true ∧ both.cv = true
    ∧ setterValue 9 (.setUnsigned64Field 3) = some (3, 9)
    ∧ writeIn movEnv (nativeCtx movEnv both.nw) 3 9 = .ok #v[0x042A2001, 0x0000FFFE, 0, 0]
    ∧ writeIn movEnv (compactCtx movEnv both.cw) 3 9 = .ok #v[0x20020201, 0x0000FFFE]
    ∧ writeIn movEnv (nativeCtx movEnv both.nw) 2 1 = .ok #v[0x04011001, 0x0000FFFE, 0, 0]
    ∧ writeIn movEnv (compactCtx movEnv both.cw) 2 1 = .error (.raise .invalidField)
    ∧ writeIn movEnv (nativeCtx movEnv both.nw) 6 3 = .error (.raise .invalidField)
    ∧ writeIn movEnv (compactCtx movEnv both.cw) 6 3 = .ok #v[0x20030101, 0x0000FFFE]
    ∧ writeIn movEnv (nativeCtx movEnv both.nw) 3 7 = .error (.raise .invalidValue)
    ∧ writeIn movEnv (compactCtx movEnv both.cw) 3 7 = .error (.raise .invalidValue) :=
  ⟨(wit_ready _).2.1, rfl, rfl, rfl, by decide⟩

/-- The opcode field in both buffers, at the ends of its range, and the compaction-control bit. -/
theorem wit_WritesToProtectedBitsAreRefused :
    Ready (on both (cmd 0 1)) movEnv ∧ Ready (on staleNative (cmd 0 1)) movEnv
    ∧ NativeField movEnv both.nw 0 ⟨.fragments [⟨0, 6, 0, 0⟩], 7, []⟩
    ∧ CompactField movEnv staleNative.cw 0 ⟨.fragments [⟨0, 6, 0, 0⟩], 7, []⟩
    ∧ setterValue 1 (.setSigned64Field 0) = some (0, 1)
    ∧ resolve (nativeCtx movEnv both.nw) 8 0 = .ok (.found ⟨.fragments [⟨0, 6, 0, 0⟩], 7, []⟩)
    ∧ resolve (compactCtx movEnv staleNative.cw) 8 0 = .ok (.found ⟨.fragments [⟨0, 6, 0, 0⟩], 7, []⟩)
    ∧ covers ⟨0, 6, 0, 0⟩ 0 = true ∧ covers ⟨0, 6, 0, 0⟩ 6 = true ∧ covers ⟨29, 29, 0, 29⟩ 29 = true
    ∧ staleNative.nv = false ∧ staleNative.cv = true :=
  ⟨(wit_ready _).2.1, (wit_ready _).2.2.1, ⟨by decide, by show ∀ p ∈ _, fragOk 4 p = true; decide⟩, wit_compactField.2, rfl, by decide⟩

theorem wit_FailedWritesChangeNothing :
    setterValue 7 (.setUnsignedField 3) = some (3, 7)
    ∧ ∃ t, exec (.setUnsignedField 3) (on both (cmd 0x00030019 7)) = .next t
      ∧ answered (on both (cmd 0x00030019 7)) t (.done .invalidValue 0 [] []) :=
  ⟨rfl, ⟨_, rfl, by unfold answered; decide⟩⟩

/-- An empty slot, a signed field of width 0, and `FieldType`s of widths 0 and 65. -/
theorem wit_DecodeChecksOnlyEnums : decodePipeline ⟨false, 2⟩ condEnum 0 = .error (.raise .invalidValue)
    ∧ decodePipeline ⟨true, 0⟩ [] 0 = .error (.raise .internalError)
    ∧ decodePipeline ⟨false, 8⟩ [.fieldType 0 true false] 0 = .error (.raise .internalError)
    ∧ decodePipeline ⟨false, 8⟩ [.fieldType 65 false false] 0 = .error (.raise .internalError)
    ∧ decodePipeline ⟨false, 8⟩ [.fieldType 0 false false] 9 = .ok 0 := by decide

/-- R291's clauses at their bounds, with the examples of R292 to R294: sign widths 1 and 64, the slots of R293's
table, padding, and a trim that leaves a negative value; an `Enum` after a `Padding` sees the padded value. -/
theorem wit_DecodeChecksOnlyEnums_values :
    decodePipeline ⟨true, 1⟩ [] 1 = .ok 0xFFFFFFFFFFFFFFFF
    ∧ decodePipeline ⟨true, 64⟩ [] 0x8000000000000000 = .ok 0x8000000000000000
    ∧ decodePipeline ⟨false, 2⟩ [] 3 = .ok 3
    ∧ decodePipeline ⟨false, 2⟩ [.enum [none, some 5, some 9]] 0 = .error (.raise .invalidValue)
    ∧ decodePipeline ⟨false, 2⟩ [.enum [none, some 5, some 9]] 2 = .ok 9
    ∧ decodePipeline ⟨false, 2⟩ [.enum [none, some 5, some 9]] 3 = .error (.raise .invalidValue)
    ∧ decodePipeline ⟨false, 5⟩ [.padding 1 1] 0x14 = .ok 0x15
    ∧ decodePipeline ⟨true, 8⟩ [] 0xF0 = .ok 0xFFFFFFFFFFFFFFF0
    ∧ decodePipeline ⟨true, 8⟩ [.fieldType 8 true false] 0xF0 = .ok 0xFFFFFFFFFFFFFFF0
    ∧ decodePipeline ⟨true, 8⟩ [.fieldType 8 true false] 0x1170 = .ok 0x70
    ∧ decodePipeline ⟨false, 2⟩ [.padding 2 0, .enum [none, some 5, some 9]] 0 = .ok 9 := by decide

/-- A value in two slots of a table: the least is meant. -/
theorem wit_EnumEncodesAsTheLeastSlot : [none, some (5 : U64), some 5][1]? = some (some 5)
    ∧ (∀ j : Nat, j < 1 → [none, some (5 : U64), some 5][j]? ≠ some (some 5))
    ∧ (∀ k : Nat, ([] : List (Option U64))[k]? ≠ some (some 5)) :=
  ⟨rfl, by decide, by simp⟩

/-- R307's examples; two slots, one of them `None`, a third slot that is ignored; an `Enum` that is not sole, one
that is not first, and one after a slot that rejects the value. -/
theorem wit_ContentRestrictionsOnEncode :
    encodePipeline .forbiddenBits ⟨false, 8⟩ [.fieldType 4 false true] 9 = .ok 0x99
    ∧ encodePipeline .forbiddenBits ⟨false, 8⟩ [.fieldType 4 false true] 0x10 = .error (.raise .invalidValue)
    ∧ encodePipeline .forbiddenBits ⟨false, 8⟩ [.fieldType 4 true true] 0xFFFFFFFFFFFFFFFD = .ok 0xDD
    ∧ encodePipeline .forbiddenBits ⟨false, 8⟩ [.fieldType 4 false true, .padding 0x99 0xFF, .value 0] 9 = .ok 0x99
    ∧ encodePipeline .forbiddenBits ⟨false, 8⟩ [.none, .value 3, .value 4] 3 = .ok 3
    ∧ encodePipeline .forbiddenBits ⟨false, 8⟩ [.none, .none, .value 4] 3 = .ok 3
    ∧ encodePipeline .forbiddenBits ⟨false, 8⟩ [.enum [some 3], .value 3] 3 = .error (.raise .internalError)
    ∧ encodePipeline .forbiddenBits ⟨false, 8⟩ [.value 3, .enum [some 3]] 3 = .error (.raise .internalError)
    ∧ encodePipeline .forbiddenBits ⟨false, 8⟩ [.value 3, .enum [some 3]] 4 = .error (.raise .invalidValue)
    ∧ encodePipeline .forbiddenBits ⟨false, 8⟩ [.enum [some 3], .none] 3 = .ok 0 := by decide

/-- Widths 1 and 64, and a duplicated field of 32 bits. -/
theorem wit_AcceptedValuesDecodeBack : encodePipeline .forbiddenBits ⟨true, 1⟩ [] 0xFFFFFFFFFFFFFFFF = .ok 1
    ∧ encodePipeline .forbiddenBits ⟨true, 64⟩ [] 0x8000000000000000 = .ok 0x8000000000000000
    ∧ encodePipeline .forbiddenBits ⟨false, 1⟩ [.fieldType 32 true true] 0xFFFFFFFF80000000 = .ok 0x8000000080000000
    ∧ encodePipeline .forbiddenBits ⟨false, 2⟩ [.enum [none, some 5, some 9]] 9 = .ok 2
    ∧ decodePipeline ⟨false, 2⟩ [] 2 = .ok 2 := by
  decide

theorem wit_BuildsApplyEveryFieldOnceOrFail :
    (∃ final order, runFixedPoint 3 (fun _ (n : Nat) => .ok (some (n + 1))) 0 = .ok (final, order))
    ∧ (∀ g (t : Nat), ∃ r, (fun (g : FieldId) (t : Nat) => (.ok (if g = 2 then none else some t) : Res (Option Nat))) g t = .ok r)
    ∧ ∀ t : Nat, (fun (g : FieldId) (t : Nat) => (.ok (if g = 2 then none else some t) : Res (Option Nat))) 2 t = .ok none :=
  ⟨⟨_, _, rfl⟩, fun _ _ => ⟨_, rfl⟩, fun _ => rfl⟩

/-- Native bit 96 is mapped by no entry of `TOY`; bit 33 is set, by `IMM`, the last field of R346's order. -/
theorem wit_DecompactionLeavesUnmappedBitsZero :
    movEnv.tabs.compaction = some (toyMaps toyEntries) ∧ buildNative movEnv both.cw = .ok plainWords
    ∧ (∀ e ∈ toyMaps toyEntries, ∀ m ∈ mapTerminals e, ∀ mf ∈ mapFrags m, 96 < mf.dstLow ∨ mf.dstHigh < 96)
    ∧ bitAt plainWords 33 = true
    ∧ (decompact movEnv (toyMaps toyEntries) both.cw).map (·.2) = .ok [0, 1, 2, 3, 5, 6, 7, 4] := by decide

theorem wit_GatherAfterScatter :
    (∀ mf ∈ [oneToOne 0 7 16 23, ⟨8, 9, 24, 27, .replicate, 0⟩, ⟨0, 0, 31, 31, .fixed, 1⟩], mapFragOk mf = true)
    ∧ [oneToOne 0 7 16 23, ⟨8, 9, 24, 27, .replicate, 0⟩, ⟨0, 0, 31, 31, .fixed, 1⟩].Pairwise
      (fun a b => a.dstHigh < b.dstLow ∨ b.dstHigh < a.dstLow)
    ∧ (scatterAll (Target.fresh 4) [oneToOne 0 7 16 23, ⟨8, 9, 24, 27, .replicate, 0⟩, ⟨0, 0, 31, 31, .fixed, 1⟩] 0x22A).map
      (·.words) = .ok #v[0x8A2A0000, 0, 0, 0] := by decide

/-- W9: under the or-mask 3 both entries match and the least is used; without it none does. Where forms are
counted, the two slots of `TOYDUP` that match are the candidates, and only those inside the source mask. -/
theorem wit_CompactionUsesTheLeastMatchingIndex :
    ((0x10 : U64) ||| 3 = 0x12 ||| 3) ∧ (∀ y ∈ [(0x10 : U64), 0x13], y ||| 0 ≠ 0x12 ||| 0)
    ∧ candidateIndices [0x000, 0x42A, 0x42A, 0x005] 3 0 0x42A = [1, 2]
    ∧ candidateIndices [0x000, 0x42A, 0x42A, 0x005] 1 0 0x42A = [1] :=
  ⟨by decide, by intro y hy; simp at hy; rcases hy with rfl | rfl <;> decide, by decide, by decide⟩

/-- A pass that ends at a missing slot and keeps the group before it, one that a `NoMasks` ends, and one that a
malformed fragment ends. -/
theorem wit_MaskStepsAreOrThenAnd :
    (nativeCtx movEnv plainWords).unwritten = none
    ∧ applyMasks (nativeCtx movEnv plainWords) [.masks #v[0, 0, 0, 0x80000000] #v[allOnes, allOnes, allOnes, allOnes],
        .nextTable 2 (maskTable [.noMasks]), .masks #v[0, 0, 1, 0] #v[0, 0, 1, 0]] plainWords = .ok maskedWords
    ∧ applyMasks (nativeCtx movEnv plainWords) [.nextTable 7 (maskTable [.noMasks]),
        .masks #v[0, 0, 0, 0x80000000] #v[allOnes, allOnes, allOnes, allOnes], .noMasks,
        .masks #v[0, 0, 1, 0] #v[0, 0, 1, 0]] plainWords = .ok maskedWords
    ∧ applyMasks (⟨some [plain 0 6 1 0 7], 1, plainWords, none⟩ : Ctx 4) [.nextTable 0 (maskTable [])] plainWords
      = .error (.raise .internalError) := by decide

theorem wit_BuildersFailOnlyByTheirCodes :
    buildCompact movEnv #v[0x842A1001, 0, 0, 0] = .error (.raise .noCompactForm)
    ∧ buildNative { movEnv with tabs := toyNop } #v[0x20000002, 0] = .error (.raise .badCompactEncoding) := by decide

/-- `TOYDUP`, vector 19 of 3.4. -/
def dupState : State := machine variantRom (nativeEngine 5 0x042A0001 0 0 0) {}

/-- Two forms; a build that finds no compact form (vector 18 of 3.4); a rebuild that fails. -/
theorem wit_CountCompactedCountsTheForms :
    Ready dupState dupEnv ∧ dupState.validationMode = true
    ∧ MaskedWords dupState dupEnv #v[0x042A0001, 0, 0, 0] #v[0x042A0001, 0, 0, 0x80000000]
    ∧ (∃ t, buildCompactTarget dupEnv true #v[0x042A0001, 0, 0, 0x80000000] = .ok t
      ∧ t.picks = [⟨[1, 2], [⟨16, 17, 0, 16⟩]⟩] ∧ (t.picks.map (·.candidates.length)).prod = 2)
    ∧ (Ready (idle (mov 0x002B0001 0 0 0)) movEnv
      ∧ MaskedWords (idle (mov 0x002B0001 0 0 0)) movEnv #v[0x002B0001, 0, 0, 0] #v[0x002B0001, 0, 0, 0x80000000]
      ∧ buildCompactTarget movEnv true #v[0x002B0001, 0, 0, 0x80000000] = .error (.raise .noCompactForm))
    ∧ RebuildFails unbuildable shortEnv ∧ unbuildable.validationMode = true :=
  ⟨⟨rfl, rfl⟩, rfl, ⟨.inl ⟨rfl, rfl⟩, .inr ⟨by decide, by decide⟩⟩, ⟨_, rfl, by decide, by decide⟩,
    ⟨⟨rfl, rfl⟩, ⟨.inl ⟨rfl, rfl⟩, .inr ⟨by decide, by decide⟩⟩, by decide⟩, wit_rebuildFails.2, rfl⟩

/-- The bytes of vector 20 of 3.4, for an output buffer a byte too short and for one that holds them; the builds
that fail are those of `wit_CountCompactedCountsTheForms`. -/
theorem wit_RetrieveDeliversEightBytesPerForm :
    Ready dupState dupEnv ∧ dupState.validationMode = true
    ∧ MaskedWords dupState dupEnv #v[0x042A0001, 0, 0, 0] #v[0x042A0001, 0, 0, 0x80000000]
    ∧ (∃ t, buildCompactTarget dupEnv true #v[0x042A0001, 0, 0, 0x80000000] = .ok t
      ∧ allForms dupEnv t (combinations t.picks)
        = .ok [0x01, 0, 0x01, 0x20, 0, 0, 0, 0, 0x01, 0, 0x02, 0x20, 0, 0, 0, 0]
      ∧ (t.picks.map (·.candidates.length)).prod < 2 ^ 64 ∧ formChoice t.picks 1 = [2])
    ∧ (on both { outCap := 15 }).request.outCap < 16 ∧ 16 ≤ (on both { outCap := 16 }).request.outCap :=
  ⟨⟨rfl, rfl⟩, rfl, ⟨.inl ⟨rfl, rfl⟩, .inr ⟨by decide, by decide⟩⟩,
    ⟨_, rfl, by decide, by decide, by decide⟩, by decide, by decide⟩

theorem wit_ValidationCommandsNeedValidationMode :
    ({ idle both with validationMode := false }).statusInv
    ∧ ({ idle both with validationMode := false }).validationMode = false
    ∧ ({ idle Engine.powerOn with validationMode := false }).statusInv :=
  ⟨by unfold State.statusInv; decide, rfl, by unfold State.statusInv; decide⟩

/-- An id past the list; `TOY`'s descriptor; and with a compact base field: no restrictions, an `Enum` that maps the
value, one whose slot is empty, and a base field in neither buffer. -/
theorem wit_InterpretPositionReslicesTheRawValue :
    Ready (idle assembled) movEnv ∧ movEnv.md.positionInterpreters[1]? = none
    ∧ movEnv.md.positionInterpreters[0]? = some ⟨4, [⟨8, 15, 0, 8⟩], 8, false, none⟩
    ∧ RawRead (idle assembled) movEnv 4 assembled 0xFFFE
    ∧ Ready derivedState derivedEnv ∧ RawRead derivedState derivedEnv 6 both 2
    ∧ (derivedEnv.md.positionInterpreters[1]? = some ⟨6, [⟨0, 1, 0, 0⟩], 2, false, some condEnum⟩
      ∧ decodePipeline ⟨false, 2⟩ condEnum (fieldBits #v[(2 : Word), 0] [⟨0, 1, 0, 0⟩]) = .ok 9)
    ∧ (derivedEnv.md.positionInterpreters[2]? = some ⟨6, [⟨0, 0, 0, 0⟩], 2, false, some condEnum⟩
      ∧ decodePipeline ⟨false, 2⟩ condEnum (fieldBits #v[(2 : Word), 0] [⟨0, 0, 0, 0⟩]) = .error (.raise .invalidValue))
    ∧ derivedEnv.md.positionInterpreters[3]? = some ⟨8, [], 0, false, none⟩ ∧ NoRead derivedState derivedEnv 8 both
    ∧ fragOk 2 ⟨8, 15, 0, 8⟩ = true ∧ fragOk 2 ⟨0, 1, 0, 0⟩ = true ∧ fragOk 2 ⟨0, 0, 0, 0⟩ = true :=
  ⟨(wit_ready {}).1, by decide, by decide,
    .inl ⟨plainWords, ⟨.fragments [⟨32, 47, 1, 0⟩], 16, []⟩, (wit_readable {}).1,
      ⟨by decide, by show ∀ p ∈ _, fragOk 4 p = true; decide⟩, rfl, by decide⟩,
    wit_rawRead.1, wit_rawRead.2.1, by decide, by decide, by decide, wit_rawRead.2.2.2.1, by decide⟩

/-- An id past the list; a compact source field whose slot is filled; `COND` with a filled and an empty slot; a
source field in neither buffer. -/
theorem wit_ReinterpretEnumLooksUpTheRawValue :
    Ready (idle assembled) movEnv ∧ movEnv.md.enumReinterpreters[1]? = none
    ∧ movEnv.md.enumReinterpreters[0]? = some ⟨3, [none, some 1, some 0, none]⟩
    ∧ RawRead (idle assembled) movEnv 3 assembled 1
    ∧ [none, some (1 : U64), some 0, none][1]? = some (some 1)
    ∧ RawRead (idle (mov 1 0 0 0)) movEnv 3 (mov 1 0 0 0) 0 ∧ [none, some (1 : U64), some 0, none][0]? = some none
    ∧ Ready derivedState derivedEnv ∧ RawRead derivedState derivedEnv 6 both 2
    ∧ derivedEnv.md.enumReinterpreters[0]? = some ⟨6, [none, none, some 7]⟩
    ∧ derivedEnv.md.enumReinterpreters[1]? = some ⟨8, []⟩ ∧ NoRead derivedState derivedEnv 8 both :=
  ⟨(wit_ready {}).1, by decide, by decide,
    .inl ⟨plainWords, cond, (wit_readable {}).1, wit_nativeField.2.1, rfl, by decide⟩, rfl,
    .inl ⟨_, cond, ⟨.inl ⟨rfl, rfl⟩, fun h => by cases h⟩, ⟨by decide, by show ∀ p ∈ _, fragOk 4 p = true; decide⟩, rfl,
      by decide⟩, rfl,
    wit_rawRead.1, wit_rawRead.2.1, by decide, by decide, wit_rawRead.2.2.2.1⟩

/-- An id past the list; `TOY`'s collector; no parts; a native and a compact part; a part in neither buffer, between
two that can be read. -/
theorem wit_CollectFieldsOrsItsParts :
    Ready (idle assembled) movEnv ∧ movEnv.md.collectors[1]? = none
    ∧ movEnv.md.collectors[0]? = some ⟨[(2, 0), (5, 8)]⟩
    ∧ NativeField movEnv plainWords 2 dstReg
    ∧ NativeField movEnv plainWords 5 ⟨.fragments [⟨24, 27, 0, 23⟩], 5, [.padding 0 1]⟩
    ∧ Ready derivedState derivedEnv ∧ derivedEnv.md.collectors[0]? = some ⟨[]⟩
    ∧ derivedEnv.md.collectors[1]? = some ⟨[(2, 0), (6, 8)]⟩
    ∧ RawRead derivedState derivedEnv 2 both 0x2A ∧ RawRead derivedState derivedEnv 6 both 2
    ∧ derivedEnv.md.collectors[2]? = some ⟨[(2, 0)] ++ (8, 0) :: [(6, 8)]⟩ ∧ NoRead derivedState derivedEnv 8 both :=
  ⟨(wit_ready {}).1, by decide, by decide, wit_nativeField.1,
    ⟨by decide, by show ∀ p ∈ _, fragOk 4 p = true; decide⟩, wit_rawRead.1, by decide, by decide, wit_rawRead.2.2.1,
    wit_rawRead.2.1, by decide, wit_rawRead.2.2.2.1⟩

theorem wit_EncodeNativeDeliversTheMaskedWords :
    (Ready (idle assembled) movEnv ∧ MaskedWords (idle assembled) movEnv plainWords maskedWords)
    ∧ (Ready (idle encoded) movEnv ∧ MaskedWords (idle encoded) movEnv maskedWords maskedWords)
    ∧ (Ready (idle staleNative) movEnv
      ∧ MaskedWords (idle staleNative) movEnv rebuiltWords #v[0x00051001, 0x0000FFFE, 0, 0x80000000])
    ∧ Ready unbuildable shortEnv ∧ RebuildFails unbuildable shortEnv :=
  ⟨⟨(wit_ready {}).1, (wit_maskedWords {}).1⟩, ⟨(wit_ready {}).2.2.2, (wit_maskedWords {}).2.1⟩,
    ⟨(wit_ready {}).2.2.1, (wit_maskedWords {}).2.2⟩, wit_rebuildFails⟩

theorem wit_GetRawFieldReadsTheNativeBits :
    (Ready (idle assembled) movEnv ∧ Readable (idle assembled) movEnv plainWords ∧ NativeField movEnv plainWords 2 dstReg)
    ∧ Ready (idle staleNative) movEnv ∧ Readable (idle staleNative) movEnv rebuiltWords
    ∧ NativeField movEnv rebuiltWords 2 dstReg :=
  ⟨⟨(wit_ready {}).1, (wit_readable {}).1, wit_nativeField.1⟩, (wit_ready {}).2.2.1, (wit_readable {}).2.2,
    wit_nativeField.2.2.1⟩

theorem wit_BitLocationsCoverTheFieldsBits :
    Ready (idle assembled) movEnv ∧ Readable (idle assembled) movEnv plainWords ∧ NativeField movEnv plainWords 3 cond
    ∧ NoNativeRead (idle assembled) movEnv 6 assembled
    ∧ Ready unbuildable shortEnv ∧ NoNativeRead unbuildable shortEnv 6 unbuildable.eng :=
  ⟨(wit_ready {}).1, (wit_readable {}).1, wit_nativeField.2.1, wit_noNativeRead.1, wit_noNativeRead.2.2.2.1,
    wit_noNativeRead.2.2.2.2.1⟩

theorem wit_InsertionWritesOnlyTheFragments :
    ∀ p ∈ [(⟨48, 63, 1, 16⟩ : Fragment), ⟨48, 55, 1, 16⟩, ⟨96, 127, 3, 0⟩], fragOk 4 p = true := by decide

/-- The least and the largest width, with the bounds of each. -/
theorem wit_UnrestrictedWritesAreBounded : (1 ≤ 1 ∧ 1 ≤ 64 ∧ 64 ≤ 64)
    ∧ encodePipeline .forbiddenBits ⟨true, 1⟩ [] 0xFFFFFFFFFFFFFFFF = .ok 1
    ∧ encodePipeline .forbiddenBits ⟨true, 1⟩ [] 1 = .error (.raise .invalidValue)
    ∧ encodePipeline .forbiddenBits ⟨false, 64⟩ [] 0xFFFFFFFFFFFFFFFF = .ok 0xFFFFFFFFFFFFFFFF
    ∧ (∀ r ∈ [Restriction.none, .none], r = .none)
    ∧ encodePipeline .forbiddenBits ⟨false, 4⟩ [.none, .none] 15 = .ok 15
    ∧ encodePipeline .forbiddenBits ⟨false, 4⟩ [.none] 16 = .error (.raise .invalidValue)
    ∧ encodePipeline .forbiddenBits ⟨false, 0⟩ [] 0 = .ok 0
    ∧ encodePipeline .forbiddenBits ⟨false, 0⟩ [] 1 = .error (.raise .invalidValue)
    ∧ encodePipeline .forbiddenBits ⟨true, 0⟩ [] 0 = .error (.raise .internalError)
    ∧ encodePipeline .forbiddenBits ⟨false, 65⟩ [.none] 0 = .error (.raise .internalError) := by decide

end Sys2Proof.Tests
end

section
/-! SUPPORT. How an instruction ends: one inversion lemma for `exec`, and the statements about every
instruction's end that follow from it (R38, R39, R41, R50, R505). -/

namespace Sys2Proof.Proofs

open Sys2Proof Sys2Proof.Machine Sys2Proof.Claims Sys2Proof.Laws

/-! ## The ways to end -/

/-- The states in which an instruction run at `s` can end. A command keeps what `raiseCode` is given when it
fails with a code (R505); a load that fails with one leaves free values instead (R506). -/
inductive Ending (s : State) : (load : Bool) → State → Prop where
  | completes (load : Bool) (e : Engine) (a : Answer) : Ending s load (complete s e a)
  | refuses (load : Bool) (why : RefuseReason) : Ending s load (refuse s why)
  | raisesInternal (load : Bool) : Ending s load (raiseInternal s)
  | raises (e : Engine) (c : ResultCode) : c ≠ .internalError → Ending s false (raiseCode s e c)
  | failsLoad (c : ResultCode) : c ≠ .internalError → Ending s true (failLoad s c)

theorem finish_ending (s : State) (e : Engine) (out : Res Answer) : Ending s false (finish s e out) := by
  rcases finish_cases s e out with ⟨a, -, h⟩ | ⟨why, -, h⟩ | ⟨-, h⟩ | ⟨c, hc, -, h⟩ <;> rw [h]
  · exact .completes _ e a
  · exact .refuses _ why
  · exact .raisesInternal _
  · exact .raises e c hc

theorem command_ending (s : State) (body : Env → Engine × Res Answer) : Ending s false (command s body) := by
  rcases command_cases s body with ⟨-, h⟩ | ⟨-, -, h⟩ | ⟨env, -, -, h⟩ <;> rw [h]
  · exact .refuses _ _
  · exact .raisesInternal _
  · exact finish_ending s _ _

/-- A status query while the block is not set up (R41, R442). -/
theorem statusQuery_uninitialised {s : State} (hi : s.eng.init = false) (bit : Bool) :
    statusQuery s bit = refuse s .uninitialised := by
  simp [statusQuery, hi]

theorem statusQuery_ending (s : State) (bit : Bool) : Ending s false (statusQuery s bit) := by
  cases hi : s.eng.init with
  | false => rw [statusQuery_uninitialised hi]; exact .refuses _ _
  | true => simp only [statusQuery, hi, if_true]; exact .completes _ _ _

theorem loadWord_ending (s : State) (w0 : Word) (load : Env → ModelId → Res Engine) :
    Ending s true (loadWord s w0 load) := by
  rcases loadWord_cases s w0 load with ⟨c, hc, h⟩ | h | ⟨why, h⟩ | ⟨_, _, e, -, -, -, h⟩ <;> rw [h]
  · exact .failsLoad c hc
  · exact .raisesInternal _
  · exact .refuses _ why
  · exact .completes _ e {}

theorem initInstance_ending (s : State) : Ending s true (initInstance s) := by
  simp only [initInstance]
  split
  · exact .failsLoad _ (by decide)
  · split
    · exact .failsLoad _ (by decide)
    · exact .completes _ _ _

theorem loadDecoded_ending (s : State) (d : Except DecodeError Instr) : Ending s true (loadDecoded s d) := by
  simp only [loadDecoded]
  split
  · exact loadWord_ending s _ _
  · exact loadWord_ending s _ _
  · exact .failsLoad _ (by decide)

/-- The checks of `DECODE` in the order of R504, then the load. -/
theorem decodeInstance_ending (s : State) : Ending s true (decodeInstance s) := by
  simp only [decodeInstance]
  split
  · exact .failsLoad _ (by decide)
  · split
    · exact .refuses _ _
    · split
      · exact .failsLoad _ (by decide)
      · split
        · exact .failsLoad _ (by decide)
        · exact loadDecoded_ending s _

/-! ## Every instruction -/

/-- An instruction that is no load is a status query, or a command with a body of its own. -/
theorem exec_of_not_load {i : Instr} (s : State) (h : isLoad i = false) :
    (∃ body, exec i s = .next (command s body)) ∨ ∃ bit, exec i s = .next (statusQuery s bit) := by
  cases i with
  | init | decode | nativeInstruction | compactInstruction => cases h
  | isNativeEncoded | isCompactEncoded => exact .inr ⟨_, rfl⟩
  | encodeNative | encodeCompact | setOpcode | countCompacted | retrieveAllCompactedFormats
  | getSignedField | getUnsignedField | getSigned64Field | getUnsigned64Field | getRawField | getFieldSize
  | setSignedField | setUnsignedField | setSigned64Field | setUnsigned64Field
  | queryFieldBitLocation | printFieldBitLocation
  | interpretPosition | reinterpretEnum | collectFields => exact .inl ⟨_, rfl⟩

theorem exec_load_ending {i : Instr} (s : State) (h : isLoad i = true) :
    ∃ t, exec i s = .next t ∧ Ending s true t := by
  cases i with
  | init => exact ⟨_, rfl, initInstance_ending s⟩
  | decode => exact ⟨_, rfl, decodeInstance_ending s⟩
  | nativeInstruction => exact ⟨_, rfl, loadWord_ending s _ _⟩
  | compactInstruction => exact ⟨_, rfl, loadWord_ending s _ _⟩
  | _ => cases h

/-- Every instruction gives a next state, and ends in one of the ways there are. -/
theorem exec_ending (i : Instr) (s : State) : ∃ t, exec i s = .next t ∧ Ending s (isLoad i) t := by
  cases h : isLoad i with
  | true => exact exec_load_ending s h
  | false =>
    rcases exec_of_not_load s h with ⟨body, hb⟩ | ⟨bit, hb⟩
    · exact ⟨_, hb, command_ending s body⟩
    · exact ⟨_, hb, statusQuery_ending s bit⟩

theorem ending_of_exec {i : Instr} {s t : State} (h : exec i s = .next t) : Ending s (isLoad i) t := by
  obtain ⟨t', ht', hend⟩ := exec_ending i s
  cases h.symm.trans ht'
  exact hend

/-! ## What an ending shows -/

/-- No ending touches what is not the command's: the ROM, the parameters, the host's commands (R50, R92). -/
theorem Ending.frame {s t : State} {load : Bool} (h : Ending s load t) :
    t.rom = s.rom ∧ t.validationMode = s.validationMode ∧ t.maskSense = s.maskSense ∧ t.requests = s.requests
      ∧ t.index = s.index + 1 := by
  cases h <;> exact ⟨rfl, rfl, rfl, rfl, rfl⟩

theorem Ending.answers {s t : State} {load : Bool} (h : Ending s load t) : ∃ r, answered s t r := by
  cases h <;> exact ⟨_, rfl⟩

/-- A step has one response. -/
theorem answered_unique {s t : State} {r r' : Response} (h : answered s t r) (h' : answered s t r') : r = r' :=
  List.singleton_inj.1 (List.append_cancel_left (h.symm.trans h'))

/-- Only `refuse` answers a refusal (R38). -/
theorem Ending.eq_refuse {s t : State} {load : Bool} {why : RefuseReason} (h : Ending s load t)
    (ha : answered s t (.refused why)) : t = refuse s why := by
  cases h with
  | completes e a => cases answered_unique ha rfl
  | refuses why' => cases answered_unique ha rfl; rfl
  | raisesInternal => cases answered_unique ha rfl
  | raises e c => cases answered_unique ha rfl
  | failsLoad c => cases answered_unique ha rfl

/-- Only `raiseInternal` answers `InternalError` (R39). -/
theorem Ending.eq_raiseInternal {s t : State} {load : Bool} {v : U64} {bytes : List Byte}
    {ranges : List (Nat × Nat)} (h : Ending s load t)
    (ha : answered s t (.done .internalError v bytes ranges)) : t = raiseInternal s := by
  cases h with
  | completes e a => cases answered_unique ha rfl
  | refuses why' => cases answered_unique ha rfl
  | raisesInternal => rfl
  | raises e c hc => cases answered_unique ha rfl; exact absurd rfl hc
  | failsLoad c hc => cases answered_unique ha rfl; exact absurd rfl hc

/-! ## The statements -/

/-- Settles O10: each way to end keeps the frame and adds one response. -/
theorem everyInstructionAnswersOnceAndKeepsTheRom : Obligations.EveryInstructionAnswersOnceAndKeepsTheRom := by
  intro i s
  obtain ⟨t, ht, hend⟩ := exec_ending i s
  obtain ⟨hrom, hmode, hsense, hreqs, hindex⟩ := hend.frame
  obtain ⟨r, hr⟩ := hend.answers
  exact ⟨t, r, ht, hrom, hmode, hsense, hreqs, hindex, hr⟩

/-- Settles O12: the response tells which way the instruction ended. -/
theorem refusalsAndInternalErrorsOnlySetTheirMark : Obligations.RefusalsAndInternalErrorsOnlySetTheirMark :=
  fun _ _ _ ht => ⟨fun _ ha => (ending_of_exec ht).eq_refuse ha,
    fun _ _ _ ha => (ending_of_exec ht).eq_raiseInternal ha⟩

/-- Settles O14: a command and a status query both look at `init` first. -/
theorem uninitialisedInstancesRefuse : Obligations.UninitialisedInstancesRefuse := by
  intro i s hload hi
  rcases exec_of_not_load s hload with ⟨body, h⟩ | ⟨bit, h⟩
  · rw [h, command_uninitialised hi]; rfl
  · rw [h, statusQuery_uninitialised hi]; rfl

end Sys2Proof.Proofs
end

section
/-! SUPPORT. The decode pipeline as a fold of its restrictions (R291), and the bound check on encode of a field
without restrictions (R300). -/

namespace Sys2Proof.Proofs

open Sys2Proof Sys2Proof.Machine Sys2Proof.Claims

/-! ## The decode pipeline -/

/-- The first restriction, then the others on what it leaves. -/
theorem decodeAll_cons (r : Restriction) (rs : List Restriction) (v : U64) :
    decodeAll (r :: rs) v = decodeOne v r >>= decodeAll rs := by
  cases h : decodeOne v r <;> simp only [decodeAll, h] <;> rfl

theorem decodeAll_append (rs1 rs2 : List Restriction) (v : U64) :
    decodeAll (rs1 ++ rs2) v = decodeAll rs1 v >>= decodeAll rs2 := by
  induction rs1 generalizing v with
  | nil => rfl
  | cons r rs1 ih =>
    cases h : decodeOne v r with
    | error stop => simp only [List.cons_append, decodeAll_cons, h]; rfl
    | ok v' => simp only [List.cons_append, decodeAll_cons, h]; exact ih v'

/-- The value the restrictions start from: sign extension comes first (R291). -/
theorem decodePipeline_nil (si : SignInfo) (raw : U64) :
    decodePipeline si [] raw = if si.signed then sext si.width raw else .ok raw := by
  unfold decodePipeline
  cases (if si.signed then sext si.width raw else .ok raw) <;> rfl

/-- The pipeline is the restrictions run on the sign-extended value. -/
theorem decodePipeline_bind (si : SignInfo) (rs : List Restriction) (raw : U64) :
    decodePipeline si rs raw = decodePipeline si [] raw >>= decodeAll rs := by
  rw [decodePipeline_nil]
  unfold decodePipeline
  cases (if si.signed then sext si.width raw else .ok raw) <;> rfl

/-- An unsigned field's restrictions start from the raw value. -/
theorem decodePipeline_unsigned (n : Nat) (rs : List Restriction) (raw : U64) :
    decodePipeline ⟨false, n⟩ rs raw = decodeAll rs raw := rfl

theorem decodePipeline_append (si : SignInfo) (rs1 rs2 : List Restriction) (raw : U64) :
    decodePipeline si (rs1 ++ rs2) raw = decodePipeline si rs1 raw >>= decodeAll rs2 := by
  rw [decodePipeline_bind si (rs1 ++ rs2), decodePipeline_bind si rs1]
  cases decodePipeline si [] raw with
  | error stop => rfl
  | ok v => exact decodeAll_append rs1 rs2 v

/-- A sole restriction works on the sign-extended value. -/
theorem decodePipeline_single {si : SignInfo} {raw v : U64} (h : decodePipeline si [] raw = .ok v)
    (r : Restriction) : decodePipeline si [r] raw = decodeOne v r := by
  rw [decodePipeline_bind, h]
  exact (decodeAll_cons r [] v).trans (bind_pure (decodeOne v r))

/-! ## One restriction on decode -/

/-- `None`, `Value`, `Range` and `Mask` make no difference on decode (R291). -/
theorem decodeOne_unchecked {r : Restriction} {x y m : U64}
    (h : r = .none ∨ r = .value x ∨ r = .range x y ∨ r = .mask m) (v : U64) : decodeOne v r = .ok v := by
  rcases h with rfl | rfl | rfl | rfl <;> rfl

theorem decodeOne_enum_slot {v x : U64} {table : List (Option U64)} (h : table[v.toNat]? = some (some x)) :
    decodeOne v (.enum table) = .ok x := by
  simp only [decodeOne, h]

theorem decodeOne_enum_noSlot {v : U64} {table : List (Option U64)}
    (h : ∀ x, table[v.toNat]? ≠ some (some x)) : decodeOne v (.enum table) = .error (.raise .invalidValue) := by
  rcases hs : table[v.toNat]? with _ | _ | x
  · simp only [decodeOne, hs]; rfl
  · simp only [decodeOne, hs]; rfl
  · exact absurd hs (h x)

/-- A `FieldType` of a width in range trims all but negative values of a signed type (R294). -/
theorem decodeOne_fieldType {bits : Nat} {signed : Bool} (hle : bits ≤ 64) (hpos : signed = true → 1 ≤ bits)
    (dup : Bool) (v : U64) : decodeOne v (.fieldType bits signed dup)
      = .ok (if signed = true ∧ v.getLsbD 63 = true then v else v &&& maxValue bits) := by
  have hmsb : v.msb = v.getLsbD 63 := BitVec.msb_eq_getLsbD_last v
  cases signed with
  | false => simp [decodeOne, zext, hle]
  | true =>
    have hp := hpos rfl
    simp only [decodeOne, zext, hmsb, hle, hp]
    cases v.getLsbD 63 <;> rfl

/-- A `FieldType` of a width out of range is broken ROM data (R23, R24; log entry 13). -/
theorem decodeOne_fieldType_broken {bits : Nat} {signed : Bool} (h : (signed = true ∧ bits = 0) ∨ 64 < bits)
    (dup : Bool) (v : U64) : decodeOne v (.fieldType bits signed dup) = broken := by
  rcases h with ⟨rfl, rfl⟩ | h
  · rfl
  · have hle : ¬ bits ≤ 64 := by omega
    cases signed <;> simp [decodeOne, zext, hle]

/-- How one restriction can fail on decode: an `Enum` by its content, a `FieldType` by its width. -/
theorem decodeOne_error {v : U64} {r : Restriction} {stop : Stop} (h : decodeOne v r = .error stop) :
    (stop = .raise .invalidValue ∧ ∃ table, r = .enum table)
    ∨ (stop = .raise .internalError ∧ ∃ bits signed dup, r = .fieldType bits signed dup
      ∧ ((signed = true ∧ bits = 0) ∨ 64 < bits)) := by
  cases r with
  | none | value | range | mask | padding => cases h
  | enum table =>
    by_cases hs : ∃ x, table[v.toNat]? = some (some x)
    · obtain ⟨x, hx⟩ := hs
      rw [decodeOne_enum_slot hx] at h
      cases h
    · rw [decodeOne_enum_noSlot (not_exists.1 hs)] at h
      cases h
      exact .inl ⟨rfl, table, rfl⟩
  | fieldType bits signed dup =>
    by_cases hw : (signed = true ∧ bits = 0) ∨ 64 < bits
    · rw [decodeOne_fieldType_broken hw] at h
      cases h
      exact .inr ⟨rfl, bits, signed, dup, rfl, hw⟩
    · rw [decodeOne_fieldType (by omega) (fun hs => Nat.pos_of_ne_zero fun h0 => hw (.inl ⟨hs, h0⟩))] at h
      cases h

/-- A list of restrictions fails only where one of them does. -/
theorem decodeAll_error {rs : List Restriction} {v : U64} {stop : Stop} (h : decodeAll rs v = .error stop) :
    ∃ r ∈ rs, ∃ v', decodeOne v' r = .error stop := by
  induction rs generalizing v with
  | nil => cases h
  | cons r rs ih =>
    cases hr : decodeOne v r with
    | error stop' =>
      rw [decodeAll_cons, hr] at h
      cases h
      exact ⟨r, by simp, v, hr⟩
    | ok v' =>
      rw [decodeAll_cons, hr] at h
      obtain ⟨q, hq, hv⟩ := ih h
      exact ⟨q, by simp [hq], hv⟩

/-! ## Widths (R23, R24) -/

/-- A sign width in range never fails (R24). -/
theorem sext_of_width {n : Nat} (h1 : 1 ≤ n) (h64 : n ≤ 64) (v : U64) :
    sext n v = .ok (if v.getLsbD (n - 1) then v ||| ~~~ maxValue n else v) := by
  simp [sext, h1, h64]

/-- Sign extension fails only by a width out of range (R24). -/
theorem sext_error {n : Nat} {v : U64} {stop : Stop} (h : sext n v = .error stop) :
    stop = .raise .internalError ∧ (n = 0 ∨ 64 < n) := by
  by_cases hw : 1 ≤ n ∧ n ≤ 64
  · rw [sext_of_width hw.1 hw.2] at h; cases h
  · simp only [sext, Config.maxFieldBits, hw, if_false] at h
    cases h
    exact ⟨rfl, by omega⟩

/-- Sign extension is the only thing that can fail before the restrictions. -/
theorem decodePipeline_nil_error {si : SignInfo} {raw : U64} {stop : Stop}
    (h : decodePipeline si [] raw = .error stop) :
    stop = .raise .internalError ∧ si.signed = true ∧ (si.width = 0 ∨ 64 < si.width) := by
  rw [decodePipeline_nil] at h
  split at h
  · next hs =>
    obtain ⟨hstop, hw⟩ := sext_error h
    exact ⟨hstop, hs, hw⟩
  · cases h

/-- The decode pipeline fails in the sign extension or in one of its restrictions. -/
theorem decodePipeline_error {si : SignInfo} {rs : List Restriction} {raw : U64} {stop : Stop}
    (h : decodePipeline si rs raw = .error stop) :
    decodePipeline si [] raw = .error stop ∨ ∃ r ∈ rs, ∃ v, decodeOne v r = .error stop := by
  cases hs : decodePipeline si [] raw with
  | error stop' => rw [decodePipeline_bind, hs] at h; exact .inl h
  | ok v => rw [decodePipeline_bind, hs] at h; exact .inr (decodeAll_error h)

/-- Settles O43, clause by clause from the pipeline as a fold. -/
theorem decodeChecksOnlyEnums : Obligations.DecodeChecksOnlyEnums := by
  refine ⟨fun rs1 rs2 r raw x y m si h => ?_, fun n raw => ⟨rfl, fun h1 h64 => ?_⟩,
    fun si rs1 rs2 raw => ?_, fun si raw v pv pm table bits signed dup hv => ?_, fun rs raw si stop h => ?_⟩
  · have skip : decodeAll (r :: rs2) = decodeAll rs2 := by
      funext v
      rw [decodeAll_cons, decodeOne_unchecked h]
      rfl
    rw [decodePipeline_append, decodePipeline_append, skip]
  · rw [decodePipeline_nil]
    exact sext_of_width h1 h64 raw
  · rw [decodePipeline_append]
    cases decodePipeline si rs1 raw with
    | error stop => rfl
    | ok v => exact (decodePipeline_unsigned 0 rs2 v).symm
  · rw [decodePipeline_single hv, decodePipeline_single hv, decodePipeline_single hv]
    exact ⟨rfl, fun _ => decodeOne_enum_slot, decodeOne_enum_noSlot,
      fun hle hpos => decodeOne_fieldType hle hpos dup v⟩
  · rcases decodePipeline_error h with hs | ⟨r, hr, v, hv⟩
    · obtain ⟨hstop, hsigned, hw⟩ := decodePipeline_nil_error hs
      exact .inr ⟨hstop, .inl ⟨hsigned, hw⟩⟩
    · rcases decodeOne_error hv with ⟨hstop, table, rfl⟩ | ⟨hstop, bits, signed, dup, rfl, hw⟩
      · exact .inl ⟨hstop, table, hr⟩
      · exact .inr ⟨hstop, .inr ⟨bits, signed, dup, hr, hw⟩⟩

/-! ## The bound check on encode (R300) -/

/-- A signed width in range admits its two's-complement range (R300). -/
theorem fits_signed {n : Nat} (h1 : 1 ≤ n) (h64 : n ≤ 64) (v : U64) :
    fits v true n = .ok (decide (-(2 ^ (n - 1) : Int) ≤ v.toInt ∧ v.toInt < (2 ^ (n - 1) : Int))) := by
  simp [fits, h1, h64]

theorem toNat_maxValue {n : Nat} (h : n ≤ 64) : (maxValue n).toNat = 2 ^ n - 1 := by
  have hpos := Nat.two_pow_pos n
  have hle : 2 ^ n ≤ 2 ^ 64 := Nat.pow_le_pow_right (by decide) h
  simp only [maxValue, BitVec.toNat_ofNat]
  exact Nat.mod_eq_of_lt (by omega)

/-- An unsigned width in range admits 0 to `MaxValue` (R23, R300). -/
theorem fits_unsigned {n : Nat} (h : n ≤ 64) (v : U64) : fits v false n = .ok (decide (v.toNat < 2 ^ n)) := by
  have hpos := Nat.two_pow_pos n
  have hiff : v.toNat ≤ 2 ^ n - 1 ↔ v.toNat < 2 ^ n := by omega
  simp [fits, h, toNat_maxValue h, hiff]

/-- A width out of range is broken ROM data, whatever the value (R300; log entry 13). -/
theorem fits_broken {n : Nat} {signed : Bool} (h : (signed = true ∧ n = 0) ∨ 64 < n) (v : U64) :
    fits v signed n = broken := by
  rcases h with ⟨rfl, rfl⟩ | h
  · rfl
  · have hle : ¬ n ≤ 64 := by omega
    cases signed <;> simp [fits, hle]

/-- A value that `n` bits hold is its own low `n` bits. -/
theorem and_maxValue_of_lt {n : Nat} {v : U64} (h64 : n ≤ 64) (h : v.toNat < 2 ^ n) : v &&& maxValue n = v := by
  apply BitVec.eq_of_toNat_eq
  rw [BitVec.toNat_and, toNat_maxValue h64, Nat.and_two_pow_sub_one_of_lt_two_pow h]

/-- A list of `None` entries leaves only the bound check (R300). -/
theorem encodePipeline_unrestricted {rs : List Restriction} (h : ∀ r ∈ rs, r = .none) (sense : MaskSense)
    (si : SignInfo) (v : U64) : encodePipeline sense si rs v
      = fits v si.signed si.width >>= fun ok => guardValue ok (v &&& maxValue si.width) := by
  have hall : rs.all isNone = true := List.all_eq_true.2 fun r hr => by rw [h r hr]; rfl
  unfold encodePipeline
  rw [if_pos hall]
  cases fits v si.signed si.width <;> rfl

theorem guardValue_decide (p : Prop) [Decidable p] (v : U64) :
    guardValue (decide p) v = if p then .ok v else .error (.raise .invalidValue) := by
  simp [guardValue, fail]

/-- Settles O44: the bound check alone decides. -/
theorem unrestrictedWritesAreBounded : Obligations.UnrestrictedWritesAreBounded := by
  intro sense n rs v hrs
  refine ⟨fun h1 h64 => ?_, fun h64 => ?_, fun signed hw => ?_⟩ <;> rw [encodePipeline_unrestricted hrs]
  · rw [fits_signed h1 h64]
    exact guardValue_decide _ _
  · rw [fits_unsigned h64]
    refine (guardValue_decide _ _).trans ?_
    split
    · next hlt => rw [and_maxValue_of_lt h64 hlt]
    · rfl
  · rw [fits_broken hw]
    rfl

end Sys2Proof.Proofs
end

section
/-! SUPPORT. What a step can do to the marks and to the engine, and the invariants every step keeps (R44 to
R49, R56, R442, R506). -/

namespace Sys2Proof.Proofs

open Sys2Proof Sys2Proof.Machine Sys2Proof.Claims Sys2Proof.Laws

/-! ## What a step runs (R50, R171) -/

theorem fetch_of_pending {s : State} {r : Request} (h : s.requests[s.index]? = some r) :
    s.fetch = some (decodeRequest r) := by
  simp only [State.fetch, State.pending, h, Option.map_some]

/-- A command word never decodes to an instruction word. -/
theorem decodeCommand_wf {w : Word} {i : Instr} (h : decodeCommand w = .ok i) : i.wf = true := by
  simp only [decodeCommand] at h
  split at h
  · cases h
  · split at h <;> cases h <;> rfl

/-- Bit 29 chooses the format, so a decoded instruction word is well-formed (R120). -/
theorem decodeInstruction_wf {ws : List Word} {i : Instr} (h : decodeInstruction ws = .ok i) : i.wf = true := by
  rcases ws with _ | ⟨w0, _ | ⟨w1, rest⟩⟩
  · cases h
  · cases h
  · cases hc : cmptCtrl w0 with
    | true =>
      simp only [decodeInstruction, hc, if_true] at h
      cases h
      exact hc
    | false =>
      rcases rest with _ | ⟨w2, _ | ⟨w3, rest⟩⟩ <;> simp [decodeInstruction, hc] at h
      cases h
      simp [Instr.wf, hc]

theorem carriedInstruction_wf {r : Request} {i : Instr} (h : carriedInstruction r = some i) : i.wf = true := by
  simp only [carriedInstruction] at h
  split at h
  · cases h
  · next bytes _ =>
    split at h
    · cases h
    · cases hd : decodeInstruction (leWords (bytes.take r.a1.toNat)) with
      | error e => rw [hd] at h; cases h
      | ok j => rw [hd] at h; cases h; exact decodeInstruction_wf hd

theorem decodeRequest_wf {r : Request} {i : Instr} (h : decodeRequest r = .ok i) : i.wf = true := by
  simp only [decodeRequest] at h
  split at h
  · split at h
    · next hc => cases h; exact carriedInstruction_wf hc
    · cases h; rfl
  · exact decodeCommand_wf h

/-- All that a step can do: nothing, a refusal, or a well-formed instruction. -/
theorem step_cases {s t : State} (h : step s = .next t) :
    t = s ∨ (∃ why, t = refuse s why) ∨ ∃ i, i.wf = true ∧ exec i s = .next t := by
  cases hf : s.fetch with
  | none => simp only [step, hf] at h; cases h; exact .inl rfl
  | some d =>
    cases d with
    | error e => simp only [step, hf] at h; cases h; exact .inr (.inl ⟨_, rfl⟩)
    | ok i =>
      simp only [step, hf] at h
      simp only [State.fetch, Option.map_eq_some_iff] at hf
      obtain ⟨r, -, hr⟩ := hf
      exact .inr (.inr ⟨i, decodeRequest_wf hr, h⟩)

/-- Settles O3. -/
theorem stepRunsTheDecodedRequest : Obligations.StepRunsTheDecodedRequest := by
  intro s r i hr hi
  simp only [step, fetch_of_pending hr, hi]

/-- A step that answers ends as an instruction does. -/
theorem step_ending {s t : State} {r : Response} (h : step s = .next t) (ha : answered s t r) :
    ∃ load, Ending s load t := by
  rcases step_cases h with rfl | ⟨why, rfl⟩ | ⟨i, -, hi⟩
  · exact absurd (congrArg List.length ha) (by simp)
  · exact ⟨false, .refuses _ why⟩
  · exact ⟨_, ending_of_exec hi⟩

/-! ## The marks (R49, R506) -/

theorem isInternal_done {c : ResultCode} (h : c ≠ .internalError) (v : U64) (bytes : List Byte)
    (ranges : List (Nat × Nat)) : isInternal (.done c v bytes ranges) = false := by
  cases c <;> first | rfl | exact absurd rfl h

/-- An ending adds to the marks exactly what its response shows. -/
theorem Ending.marks {s t : State} {load : Bool} {r : Response} (h : Ending s load t) (ha : answered s t r) :
    t.faultMark = (s.faultMark || isInternal r) ∧ t.refusedMark = (s.refusedMark || isRefused r) := by
  cases h with
  | completes e a =>
    cases answered_unique ha rfl
    exact ⟨(Bool.or_false _).symm, (Bool.or_false _).symm⟩
  | refuses why =>
    cases answered_unique ha rfl
    exact ⟨(Bool.or_false _).symm, (Bool.or_true _).symm⟩
  | raisesInternal =>
    cases answered_unique ha rfl
    exact ⟨(Bool.or_true _).symm, (Bool.or_false _).symm⟩
  | raises e c hc =>
    cases answered_unique ha rfl
    rw [isInternal_done hc]
    exact ⟨(Bool.or_false _).symm, (Bool.or_false _).symm⟩
  | failsLoad c hc =>
    cases answered_unique ha rfl
    rw [isInternal_done hc]
    exact ⟨(Bool.or_false _).symm, (Bool.or_false _).symm⟩

/-- Settles O11: an instruction and an answering step both end in one of the ways of `Ending`. -/
theorem marksRecordInternalErrorsAndRefusals : Obligations.MarksRecordInternalErrorsAndRefusals := by
  refine ⟨⟨rfl, rfl⟩, fun s t r ha h => ?_⟩
  rcases h with hstep | ⟨i, hi⟩
  · obtain ⟨load, hend⟩ := step_ending hstep ha
    exact hend.marks ha
  · exact (ending_of_exec hi).marks ha

/-- Settles O15: a load that answers a failure code has ended by `failLoad` (R506). -/
theorem failedLoadsLeaveTheInstanceUninitialised : Obligations.FailedLoadsLeaveTheInstanceUninitialised := by
  intro i s t c v bytes ranges hload ht ha hsucc hint
  have hend := ending_of_exec ht
  rw [hload] at hend
  cases hend with
  | completes e a => cases answered_unique ha rfl; exact absurd rfl hsucc
  | refuses why => cases answered_unique ha rfl
  | raisesInternal => cases answered_unique ha rfl; exact absurd rfl hint
  | failsLoad c' hc' => exact ⟨rfl, rfl, rfl⟩

/-! ## `INIT` and the status queries -/

theorem initInstance_unknownModel {s : State} (hm : findModel s.rom s.request.a0.toNat = none) :
    initInstance s = failLoad s .invalidModel := by
  simp only [initInstance, hm]

theorem initInstance_unsupported {s : State} {md : ModelData} (hm : findModel s.rom s.request.a0.toNat = some md)
    (ho : findOpcode md s.request.a1 = none) : initInstance s = failLoad s .opcodeNotSupported := by
  simp only [initInstance, hm, ho]

theorem initInstance_fresh {s : State} {md : ModelData} {tabs : OpcodeTables}
    (hm : findModel s.rom s.request.a0.toNat = some md) (ho : findOpcode md s.request.a1 = some tabs) :
    initInstance s = complete s (freshEngine (s.request.a0.setWidth 32) (s.request.a1.setWidth 7)) {} := by
  simp only [initInstance, hm, ho]

theorem findOpcode_of_le {md : ModelData} {op : U64} (h : op.toNat ≤ 127) :
    findOpcode md op = findTables md (op.setWidth 7) := by
  rw [findOpcode, if_neg (by omega)]

theorem findOpcode_of_gt {md : ModelData} {op : U64} (h : 127 < op.toNat) : findOpcode md op = none :=
  if_pos h

/-- An opcode that a ROM has tables for is found under its low seven bits. -/
theorem findTables_of_findOpcode {md : ModelData} {op : U64} {tabs : OpcodeTables}
    (h : findOpcode md op = some tabs) : findTables md (op.setWidth 7) = some tabs := by
  by_cases hle : op.toNat ≤ 127
  · rwa [← findOpcode_of_le hle]
  · rw [findOpcode_of_gt (by omega)] at h; cases h

/-- The cut to seven bits loses nothing of an opcode up to 127. -/
theorem setWidth_opcode {op : U64} (h : op.toNat ≤ 127) : (op.setWidth 7).setWidth 32 = op.setWidth 32 := by
  bv_omega

/-- Settles O18: the model is looked up before the opcode. -/
theorem initGivesAFreshInstance : Obligations.InitGivesAFreshInstance := by
  refine fun s => ⟨fun md tabs hm hle ht => ?_, fun hm => ?_, fun md hm ho => ?_⟩
  · rw [← findOpcode_of_le hle] at ht
    refine congrArg Host.Outcome.next ((initInstance_fresh hm ht).trans ?_)
    simp only [freshEngine, setWidth_opcode hle]
    rfl
  · exact ⟨_, congrArg Host.Outcome.next (initInstance_unknownModel hm), rfl, rfl⟩
  · have hnone : findOpcode md s.request.a1 = none := by
      by_cases hle : s.request.a1.toNat ≤ 127
      · rw [findOpcode_of_le hle]
        exact ho.resolve_left (by omega)
      · exact findOpcode_of_gt (by omega)
    exact ⟨_, congrArg Host.Outcome.next (initInstance_unsupported hm hnone), rfl, rfl⟩

/-- The queried bit beside the status word, as a number (R46, R442). -/
theorem statusValue_eq (bit : Bool) (e : Engine) :
    flag bit ||| (e.statusWord <<< 8) = BitVec.ofNat 64 (bit.toNat + 256 * statusNumber e) := by
  simp only [Engine.statusWord, statusNumber]
  generalize e.nv = nv, e.cv = cv, e.ne = ne, e.ce = ce
  revert bit nv cv ne ce
  decide

theorem statusQuery_answer {s : State} (hi : s.eng.init = true) (bit : Bool) :
    statusQuery s bit = answer s s.eng (BitVec.ofNat 64 (bit.toNat + 256 * statusNumber s.eng)) [] [] := by
  rw [← statusValue_eq]
  simp only [statusQuery, hi, if_true]
  rfl

/-- Settles O29. -/
theorem statusQueriesReportTheStatusWord : Obligations.StatusQueriesReportTheStatusWord :=
  fun _ hi => ⟨congrArg Host.Outcome.next (statusQuery_answer hi _),
    congrArg Host.Outcome.next (statusQuery_answer hi _)⟩

/-- Settles O2: no status bit is set at power-on. -/
theorem powerOnMeetsTheInvariants : Obligations.PowerOnMeetsTheInvariants :=
  ⟨⟨nofun, nofun, nofun, nofun⟩, nofun, nofun⟩

end Sys2Proof.Proofs
end

section
/-! SUPPORT. How a command changes the engine: the elementary moves every command is made of, and the two
invariants, which each move keeps (R44 to R47, R253, R340, R350, R395, R432). -/

namespace Sys2Proof.Proofs

open Sys2Proof Sys2Proof.Machine Sys2Proof.Claims Sys2Proof.Laws

/-! ## Moves -/

/-- The elementary changes that the commands other than the loads make to a set-up engine, each with the
guard under which it is made. -/
inductive Move (env : Env) (e : Engine) : Engine → Prop where
  | rebuildNative {ws : Vector Word 4} : buildNative env e.cw = .ok ws → Move env e (e.rebuiltNative ws)
  | rebuildCompact {ws : Vector Word 2} : buildCompact env e.nw = .ok ws → Move env e (e.rebuiltCompact ws)
  | maskNative {ws : Vector Word 4} : e.nv = true → applyNativeMasks env e.nw = .ok ws →
      Move env e (e.maskedNative ws)
  | maskCompact {ws : Vector Word 2} : e.cv = true → applyCompactMasks env e.cw = .ok ws →
      Move env e (e.maskedCompact ws)
  | writeNative {f : FieldId} {v : U64} {ws : Vector Word 4} : e.nv = true →
      writeIn env (nativeCtx env e.nw) f v = .ok ws → Move env e (e.wroteNative ws)
  | writeCompact {f : FieldId} {v : U64} {ws : Vector Word 2} : e.cv = true →
      writeIn env (compactCtx env e.cw) f v = .ok ws → Move env e (e.wroteCompact ws)
  | dropNative : e.cv = true → Move env e e.staleNative
  | dropCompact : e.nv = true → Move env e e.staleCompact
  | reopcode {op : BitVec 7} : e.nv = true → (findTables env.md op).isSome = true → Move env e (reopcoded e op)

/-- Any number of moves, one after the other. -/
abbrev Moves (env : Env) : Engine → Engine → Prop := Relation.ReflTransGen (Move env)

/-- What every move keeps, any number of moves keep. -/
theorem Moves.keep {env : Env} {P : Engine → Prop} (hP : ∀ a b, Move env a b → P a → P b) {e e' : Engine}
    (h : Moves env e e') (he : P e) : P e' := by
  induction h with
  | refl => exact he
  | tail _ hm ih => exact hP _ _ hm ih

theorem refresh_moves {env : Env} {e e' : Engine} (h : refresh env e = .ok e') : Moves env e e' := by
  rcases refresh_cases env e with h1 | ⟨w, -, -, hw, h1⟩ | h1 <;> rw [h] at h1 <;> cases h1
  · exact .refl
  · exact .single (.rebuildNative hw)

/-- The shape of every command that only reads: the regeneration, then a look at the engine it leaves. -/
def onRefreshed {α : Type} (env : Env) (e : Engine) (look : Engine → Res α) : Engine × Res α :=
  match refresh env e with
  | .error stop => (e, .error stop)
  | .ok e' => (e', look e')

theorem onRefreshed_moves {α : Type} (env : Env) (e : Engine) (look : Engine → Res α) :
    Moves env e (onRefreshed env e look).1 := by
  unfold onRefreshed
  split
  · exact .refl
  · next h => exact refresh_moves h

theorem readField_eq (env : Env) (e : Engine) (f : FieldId) (mode : Mode) :
    readField env e f mode = onRefreshed env e fun e' => readBuffers env e' f mode := rfl

theorem measureField_eq (env : Env) (e : Engine) (f : FieldId) : measureField env e f
    = onRefreshed env e fun e' => fieldSize env e' f >>= fun n => .ok { value := BitVec.ofNat 64 n } := by
  cases h : refresh env e with
  | error stop => simp only [measureField, onRefreshed, h]
  | ok e' => cases hf : fieldSize env e' f <;> simp only [measureField, onRefreshed, h, hf] <;> rfl

theorem locateField_eq (env : Env) (e : Engine) (f : FieldId) :
    locateField env e f = onRefreshed env e fun e' => locateIn env e' f := rfl

theorem readField_moves (env : Env) (e : Engine) (f : FieldId) (mode : Mode) :
    Moves env e (readField env e f mode).1 := by
  rw [readField_eq]
  exact onRefreshed_moves env e _

theorem readThen_eng (env : Env) (e : Engine) (f : FieldId) (k : U64 → Res U64) :
    (readThen env e f k).1 = (readField env e f .encoded).1 := by
  rcases h : readField env e f .encoded with ⟨e', stop | r⟩ <;> simp only [readThen, h]

/-- Each part of a collector is one more read (R415). -/
theorem collect_moves (env : Env) (parts : List (FieldId × Nat)) :
    ∀ (e : Engine) (v : U64), Moves env e (collect env e parts v).1 := by
  induction parts with
  | nil => exact fun _ _ => .refl
  | cons part parts ih =>
    intro e v
    have hread := readField_moves env e part.1 .encoded
    rcases h : readField env e part.1 .encoded with ⟨e', stop | r⟩ <;> rw [h] at hread <;>
      simp only [collect, h]
    · exact hread
    · exact hread.trans (ih e' _)

theorem descriptor_moves {α : Type} {env : Env} {e : Engine} {list : List α} {id : BitVec 16}
    {k : α → Engine × Res Answer} (h : ∀ d, Moves env e (k d).1) : Moves env e (descriptor e list id k).1 := by
  unfold descriptor
  split
  · exact .refl
  · exact h _

/-- The native half of a write: it succeeds there, or goes through elsewhere (R253). -/
theorem commitNative_moves {env : Env} {e : Engine} {f : FieldId} {v : U64} {a : Attempt 4}
    (ha : tryWrite e.nv (writeIn env (nativeCtx env e.nw) f v) = .ok a) (h : a.wrote? = true ∨ e.cv = true) :
    Moves env e (commitNative e a) := by
  cases a with
  | skipped => exact .refl
  | wrote ws =>
    obtain ⟨hv, hw⟩ := tryWrite_wrote ha
    exact .single (.writeNative hv hw)
  | noField | badValue => exact .single (.dropNative (h.resolve_left Bool.false_ne_true))

/-- The compact half of a write (R253). -/
theorem commitCompact_moves {env : Env} {e : Engine} {f : FieldId} {v : U64} {b : Attempt 2}
    (hb : tryWrite e.cv (writeIn env (compactCtx env e.cw) f v) = .ok b) (h : b.wrote? = true ∨ e.nv = true) :
    Moves env e (commitCompact e b) := by
  cases b with
  | skipped => exact .refl
  | wrote ws =>
    obtain ⟨hv, hw⟩ := tryWrite_wrote hb
    exact .single (.writeCompact hv hw)
  | noField | badValue => exact .single (.dropCompact (h.resolve_left Bool.false_ne_true))

/-- A buffer that took a write is Valid. -/
theorem valid_of_wrote {n : Nat} {valid : Bool} {w : Res (Vector Word n)} {a : Attempt n}
    (h : tryWrite valid w = .ok a) (ha : a.wrote? = true) : valid = true := by
  cases a with
  | wrote ws => exact (tryWrite_wrote h).1
  | skipped | noField | badValue => cases ha

theorem commitNative_compact (e : Engine) (a : Attempt 4) :
    (commitNative e a).cv = e.cv ∧ (commitNative e a).cw = e.cw := by
  cases a <;> exact ⟨rfl, rfl⟩

theorem commitNative_nv {e : Engine} {a : Attempt 4} (ha : a.wrote? = true) : (commitNative e a).nv = e.nv := by
  cases a with
  | wrote ws => rfl
  | skipped | noField | badValue => cases ha

theorem setField_moves {env : Env} {e e' : Engine} {f : FieldId} {v : U64} (h : setField env e f v = .ok e') :
    Moves env e e' := by
  obtain ⟨a, b, ha, hb, hw, rfl⟩ := setField_ok h
  obtain ⟨hcv, hcw⟩ := commitNative_compact e a
  refine (commitNative_moves ha (hw.imp_right (valid_of_wrote hb))).trans (commitCompact_moves (f := f) (v := v) ?_ ?_)
  · rw [hcv, hcw]; exact hb
  · exact hw.symm.imp_right fun ha' => (commitNative_nv ha').trans (valid_of_wrote ha ha')

/-- A native buffer made Valid where a command needs one (R433, R440). -/
theorem readyNative_moves {env : Env} {e e' : Engine}
    (h : (if e.nv then .ok e else regenerateNative env e) = .ok e') : Moves env e e' ∧ e'.nv = true := by
  split at h
  · next hn => cases h; exact ⟨.refl, hn⟩
  · cases hw : buildNative env e.cw with
    | error stop => simp only [regenerateNative, hw] at h; cases h
    | ok ws => simp only [regenerateNative, hw] at h; cases h; exact ⟨.single (.rebuildNative hw), rfl⟩

theorem encodeNativeBuffer_moves {env : Env} {e e' : Engine} (hn : e.nv = true)
    (h : encodeNativeBuffer env e = .ok e') : Moves env e e' ∧ e'.nv = true := by
  unfold encodeNativeBuffer at h
  split at h
  · cases h; exact ⟨.refl, hn⟩
  · cases hm : applyNativeMasks env e.nw with
    | error stop => rw [hm] at h; cases h
    | ok ws => rw [hm] at h; cases h; exact ⟨.single (.maskNative hn hm), hn⟩

theorem prepareNative_moves {env : Env} {e e' : Engine} (h : prepareNative env e = .ok e') :
    Moves env e e' ∧ e'.nv = true := by
  unfold prepareNative at h
  split at h
  · cases h
  · next e1 h1 =>
    obtain ⟨hmoves, hn⟩ := readyNative_moves h1
    exact (encodeNativeBuffer_moves hn h).imp_left hmoves.trans

theorem finishCompact_moves {env : Env} {e : Engine} (hc : e.cv = true) :
    Moves env e (finishCompact env e).1 := by
  cases he : e.ce with
  | true => simp only [finishCompact, encodeCompactBuffer, he, if_true]; exact .refl
  | false =>
    simp only [finishCompact, encodeCompactBuffer, he, Bool.false_eq_true, if_false]
    cases hm : applyCompactMasks env e.cw with
    | error stop => exact .refl
    | ok ws => exact .single (.maskCompact hc hm)

theorem prepareCompact_moves (env : Env) (e : Engine) : Moves env e (prepareCompact env e).1 := by
  rcases prepareCompact_cases env e with ⟨hc, h⟩ | ⟨stop, -, -, h⟩ | ⟨e1, stop, -, hp, -, h⟩
    | ⟨e1, ws, -, hp, hb, h⟩ <;> rw [h]
  · exact finishCompact_moves hc
  · exact (prepareNative_moves hp).1
  · exact ((prepareNative_moves hp).1.tail (.rebuildCompact hb)).trans (finishCompact_moves rfl)

theorem withForms_moves (s : State) (env : Env) (answer : Target 2 → Res Answer) :
    Moves env s.eng (withForms s env answer).1 := by
  unfold withForms
  split
  · cases hp : prepareNative env s.eng with
    | error stop => exact .refl
    | ok e =>
      simp only
      split <;> exact (prepareNative_moves hp).1
  · exact .refl

theorem encodeNative_moves (s : State) (env : Env) : Moves env s.eng (encodeNative s env).1 := by
  unfold encodeNative
  split
  · exact .refl
  · next hp => exact (prepareNative_moves hp).1

theorem encodeCompact_moves (s : State) (env : Env) : Moves env s.eng (encodeCompact s env).1 := by
  have h := prepareCompact_moves env s.eng
  rcases hp : prepareCompact env s.eng with ⟨e, stop | u⟩ <;> rw [hp] at h <;> simp only [encodeCompact, hp] <;>
    exact h

theorem setOpcode_moves (s : State) (env : Env) : Moves env s.eng (setOpcode s env).1 := by
  unfold setOpcode
  split
  · exact .refl
  · next tabs ho =>
    split
    · exact .refl
    · next e he =>
      obtain ⟨hmoves, hn⟩ := readyNative_moves he
      exact hmoves.tail (.reopcode hn (by rw [findTables_of_findOpcode ho]; rfl))

/-- The body of the setters: a failed write changes nothing (R255). -/
def writeRun (env : Env) (e : Engine) (f : FieldId) (v : U64) : Engine × Res Answer :=
  match setField env e f v with
  | .error stop => (e, .error stop)
  | .ok e' => (e', .ok {})

theorem putField_eq (value : U64 → U64) (f : BitVec 16) (s : State) :
    putField value f s = command s fun env => writeRun env s.eng f.toNat (value s.request.a0) := rfl

theorem writeRun_moves (env : Env) (e : Engine) (f : FieldId) (v : U64) : Moves env e (writeRun env e f v).1 := by
  unfold writeRun
  split
  · exact .refl
  · next h => exact setField_moves h

/-! ## The engine after a step -/

/-- The engines a step can leave: those a command's moves reach, and those a load creates (R430, R432,
R506). -/
inductive Leaves (s : State) : Engine → Prop where
  | unchanged : Leaves s s.eng
  | moved (env : Env) (e : Engine) : s.eng.init = true → s.env = some env → Moves env s.eng e → Leaves s e
  | leftover (l : Config.Leftover) : Leaves s (leftoverEngine l)
  | fresh (env : Env) (m : ModelId) (op : BitVec 7) : tablesOf s m op = some env → Leaves s (freshEngine m op)
  | native (env : Env) (m : ModelId) (w0 w1 w2 w3 : Word) : tablesOf s m (opcodeOf w0) = some env →
      cmptCtrl w0 = false → Leaves s (nativeEngine m w0 w1 w2 w3)
  | compact (env : Env) (m : ModelId) (w0 w1 : Word) (nw : Vector Word 4) :
      tablesOf s m (opcodeOf w0) = some env → cmptCtrl w0 = true → buildNative env #v[w0, w1] = .ok nw →
      Leaves s (compactEngine m w0 w1 nw)

theorem finish_leaves {s : State} {e : Engine} (h : Leaves s e) (out : Res Answer) :
    Leaves s (finish s e out).eng := by
  rcases finish_cases s e out with ⟨a, -, hf⟩ | ⟨why, -, hf⟩ | ⟨-, hf⟩ | ⟨c, -, -, hf⟩ <;> rw [hf]
  · exact h
  · exact .unchanged
  · exact .unchanged
  · exact h

theorem command_leaves {s : State} {body : Env → Engine × Res Answer}
    (h : ∀ env, Moves env s.eng (body env).1) : Leaves s (command s body).eng := by
  rcases command_cases s body with ⟨-, hc⟩ | ⟨-, -, hc⟩ | ⟨env, hi, he, hc⟩ <;> rw [hc]
  · exact .unchanged
  · exact .unchanged
  · exact finish_leaves (.moved env _ hi he (h env)) _

theorem statusQuery_leaves (s : State) (bit : Bool) : Leaves s (statusQuery s bit).eng := by
  unfold statusQuery
  split <;> exact .unchanged

theorem tablesOf_eq {s : State} {m : ModelId} {md : ModelData} {op : BitVec 7} {tabs : OpcodeTables}
    (hm : findModel s.rom m.toNat = some md) (ht : findTables md op = some tabs) :
    tablesOf s m op = some ⟨md, tabs, s.maskSense⟩ := by
  simp [tablesOf, hm, ht]

/-- A model id that the ROM has is below 2^32, so the engine holds it whole (R19). -/
theorem tablesOf_found {s : State} {m : U64} {md : ModelData} {op : BitVec 7} {tabs : OpcodeTables}
    (hm : findModel s.rom m.toNat = some md) (ht : findTables md op = some tabs) :
    tablesOf s (m.setWidth 32) op = some ⟨md, tabs, s.maskSense⟩ := by
  obtain ⟨id, -, hid⟩ := findModel_mem hm
  refine tablesOf_eq ?_ ht
  rw [BitVec.toNat_setWidth, Nat.mod_eq_of_lt (by omega), hm]

theorem loadWord_leaves {s : State} {w0 : Word} {load : Env → ModelId → Res Engine}
    (h : ∀ env m e, tablesOf s m (opcodeOf w0) = some env → load env m = .ok e → Leaves s e) :
    Leaves s (loadWord s w0 load).eng := by
  rcases loadWord_cases s w0 load with ⟨c, -, hc⟩ | hc | ⟨why, hc⟩ | ⟨md, tabs, e, hm, ht, hl, hc⟩ <;> rw [hc]
  · exact .leftover _
  · exact .unchanged
  · exact .unchanged
  · exact h _ _ e (tablesOf_found hm ht) hl

theorem loadNative_leaves (s : State) {w0 : Word} (w1 w2 w3 : Word) (h : cmptCtrl w0 = false) :
    Leaves s (loadNative w0 w1 w2 w3 s).eng :=
  loadWord_leaves fun env m e ht hl => by cases hl; exact .native env m w0 w1 w2 w3 ht h

theorem loadCompact_leaves (s : State) {w0 : Word} (w1 : Word) (h : cmptCtrl w0 = true) :
    Leaves s (loadCompact w0 w1 s).eng := by
  refine loadWord_leaves fun env m e ht hl => ?_
  cases hb : buildNative env #v[w0, w1] with
  | error stop => rw [hb] at hl; cases hl
  | ok nw => rw [hb] at hl; cases hl; exact .compact env m w0 w1 nw ht h hb

theorem initInstance_leaves (s : State) : Leaves s (initInstance s).eng := by
  cases hm : findModel s.rom s.request.a0.toNat with
  | none => rw [initInstance_unknownModel hm]; exact .leftover _
  | some md =>
    cases ho : findOpcode md s.request.a1 with
    | none => rw [initInstance_unsupported hm ho]; exact .leftover _
    | some tabs =>
      rw [initInstance_fresh hm ho]
      exact .fresh _ _ _ (tablesOf_found hm (findTables_of_findOpcode ho))

theorem loadDecoded_leaves (s : State) (ws : List Word) :
    Leaves s (loadDecoded s (decodeInstruction ws)).eng := by
  unfold loadDecoded
  split
  · next hd => exact loadCompact_leaves s _ (decodeInstruction_wf hd)
  · next hd => exact loadNative_leaves s _ _ _ (Bool.eq_false_of_not_eq_true' (decodeInstruction_wf hd))
  · exact .leftover _

theorem decodeInstance_leaves (s : State) : Leaves s (decodeInstance s).eng := by
  unfold decodeInstance
  split
  · exact .leftover _
  · split
    · exact .unchanged
    · split
      · exact .leftover _
      · split
        · exact .leftover _
        · exact loadDecoded_leaves s _

/-- Every well-formed instruction leaves one of the engines of `Leaves`. -/
theorem exec_leaves {i : Instr} {s t : State} (hwf : i.wf = true) (h : exec i s = .next t) : Leaves s t.eng := by
  cases i with
  | init => cases h; exact initInstance_leaves s
  | decode => cases h; exact decodeInstance_leaves s
  | nativeInstruction => cases h; exact loadNative_leaves s _ _ _ (Bool.eq_false_of_not_eq_true' hwf)
  | compactInstruction => cases h; exact loadCompact_leaves s _ hwf
  | isNativeEncoded | isCompactEncoded => cases h; exact statusQuery_leaves s _
  | encodeNative => cases h; exact command_leaves (encodeNative_moves s)
  | encodeCompact => cases h; exact command_leaves (encodeCompact_moves s)
  | setOpcode => cases h; exact command_leaves (setOpcode_moves s)
  | getSignedField | getUnsignedField | getSigned64Field | getUnsigned64Field | getRawField =>
    cases h; exact command_leaves fun env => readField_moves env _ _ _
  | getFieldSize =>
    cases h
    refine command_leaves fun env => ?_
    rw [measureField_eq]
    exact onRefreshed_moves env _ _
  | setSignedField | setUnsignedField | setSigned64Field | setUnsigned64Field =>
    cases h
    rw [putField_eq]
    exact command_leaves fun env => writeRun_moves env _ _ _
  | countCompacted | retrieveAllCompactedFormats =>
    cases h; exact command_leaves fun env => withForms_moves s env _
  | queryFieldBitLocation | printFieldBitLocation =>
    cases h
    refine command_leaves fun env => ?_
    rw [locateField_eq]
    exact onRefreshed_moves env _ _
  | interpretPosition | reinterpretEnum =>
    cases h
    refine command_leaves fun env => descriptor_moves fun d => ?_
    rw [readThen_eng]
    exact readField_moves env _ _ _
  | collectFields => cases h; exact command_leaves fun env => descriptor_moves fun d => collect_moves env _ _ _

/-- What a step leaves: an engine of `Leaves`, and the ROM and the sense of `Mask` as they were. -/
theorem step_leaves {s t : State} (h : step s = .next t) :
    Leaves s t.eng ∧ t.rom = s.rom ∧ t.maskSense = s.maskSense := by
  rcases step_cases h with rfl | ⟨why, rfl⟩ | ⟨i, hwf, hi⟩
  · exact ⟨.unchanged, rfl, rfl⟩
  · exact ⟨.unchanged, rfl, rfl⟩
  · obtain ⟨hrom, -, hsense, -, -⟩ := (ending_of_exec hi).frame
    exact ⟨exec_leaves hwf hi, hrom, hsense⟩

/-! ## The status invariant (R44 to R47) -/

/-- A set-up engine as R44, R45 and R47 items 1 and 2 ask, its tables being looked up in the model of
`env`. -/
structure Settled (s : State) (env : Env) (e : Engine) : Prop where
  native : e.ne = true → e.nv = true
  compact : e.ce = true → e.cv = true
  valid : e.nv = true ∨ e.cv = true
  model : findModel s.rom e.model.toNat = some env.md
  opcode : (findTables env.md e.opc).isSome = true

theorem Move.settled {s : State} {env : Env} {e e' : Engine} (h : Move env e e') (hs : Settled s env e) :
    Settled s env e' := by
  cases h with
  | rebuildNative => exact { hs with native := fun _ => rfl, valid := .inl rfl }
  | rebuildCompact => exact { hs with compact := fun _ => rfl, valid := .inr rfl }
  | maskNative hn => exact { hs with native := fun _ => hn }
  | maskCompact hc => exact { hs with compact := fun _ => hc }
  | writeNative hn => exact { hs with native := fun _ => hn }
  | writeCompact hc => exact { hs with compact := fun _ => hc }
  | dropNative hc => exact { hs with native := nofun, valid := .inr hc }
  | dropCompact hn => exact { hs with compact := nofun, valid := .inl hn }
  | reopcode hn ho =>
    exact { hs with native := nofun, compact := nofun, valid := .inl hn, opcode := ho }

theorem settled_of_statusInv {s : State} {env : Env} (h : s.statusInv) (hi : s.eng.init = true)
    (he : s.env = some env) : Settled s env s.eng := by
  obtain ⟨hne, hce, hvalid, -⟩ := h
  obtain ⟨hm, ht, -⟩ := env_eq_some he
  exact ⟨hne, hce, hvalid hi, hm, by rw [ht]; rfl⟩

theorem tablesOf_settled {s : State} {env : Env} {e : Engine} (h : Settled s env e) :
    (tablesOf s e.model e.opc).isSome = true := by
  obtain ⟨tabs, ht⟩ := Option.isSome_iff_exists.mp h.opcode
  rw [tablesOf_eq h.model ht]
  rfl

/-- The look-up of the tables reads the ROM and the sense of `Mask` only. -/
theorem tablesOf_congr {s t : State} (hrom : t.rom = s.rom) (hsense : t.maskSense = s.maskSense) (m : ModelId)
    (op : BitVec 7) : tablesOf t m op = tablesOf s m op := by
  simp only [tablesOf, hrom, hsense]

/-- The status invariant as a predicate of the engine, its tables being looked up in the ROM of `s`. -/
def StatusOk (s : State) (e : Engine) : Prop :=
  (e.ne = true → e.nv = true) ∧ (e.ce = true → e.cv = true) ∧ (e.init = true → e.nv = true ∨ e.cv = true)
    ∧ (e.init = true → (tablesOf s e.model e.opc).isSome = true)

theorem Settled.statusOk {s : State} {env : Env} {e : Engine} (h : Settled s env e) : StatusOk s e :=
  ⟨h.native, h.compact, fun _ => h.valid, fun _ => tablesOf_settled h⟩

theorem Leaves.statusOk {s : State} {e : Engine} (h : Leaves s e) (hs : s.statusInv) : StatusOk s e := by
  cases h with
  | unchanged => exact hs
  | moved env e hi he hmoves => exact (hmoves.keep (fun _ _ hm => hm.settled) (settled_of_statusInv hs hi he)).statusOk
  | leftover l =>
    exact ⟨fun h => (Bool.and_eq_true_iff.mp h).2, fun h => (Bool.and_eq_true_iff.mp h).2,
      nofun, nofun⟩
  | fresh env m op ht =>
    exact ⟨nofun, nofun, fun _ => .inl rfl, fun _ => Option.isSome_of_eq_some ht⟩
  | native env m w0 w1 w2 w3 ht _ =>
    exact ⟨nofun, nofun, fun _ => .inl rfl, fun _ => Option.isSome_of_eq_some ht⟩
  | compact env m w0 w1 nw ht _ _ =>
    exact ⟨nofun, nofun, fun _ => .inl rfl, fun _ => Option.isSome_of_eq_some ht⟩

/-- Settles O8: every move keeps the invariant, and every load starts with it. -/
theorem everyStepKeepsTheStatusInvariant : Obligations.EveryStepKeepsTheStatusInvariant := by
  intro s t hs hstep
  obtain ⟨hleaves, hrom, hsense⟩ := step_leaves hstep
  obtain ⟨hne, hce, hvalid, htabs⟩ := hleaves.statusOk hs
  refine ⟨hne, hce, hvalid, fun hi => ?_⟩
  rw [State.env, tablesOf_congr hrom hsense]
  exact htabs hi

/-! ## The format invariant (R47 item 3) -/

/-- Bit 29 of each Valid buffer says its format. -/
def FormatOk (e : Engine) : Prop :=
  (e.nv = true → cmptCtrl (wordAt e.nw 0) = false) ∧ (e.cv = true → cmptCtrl (wordAt e.cw 0) = true)

theorem setCmptCtrl_format {n : Nat} (hn : 0 < n) (ws : Vector Word n) (v : Bool) :
    cmptCtrl (wordAt (setCmptCtrl ws v) 0) = v := by
  rw [cmptCtrl_wordAt, bitAt_setCmptCtrl ws v 29 hn, if_pos rfl]

theorem setOpcodeBits_format {n : Nat} (hn : 0 < n) (ws : Vector Word n) (op : BitVec 7) :
    cmptCtrl (wordAt (setOpcodeBits ws op) 0) = cmptCtrl (wordAt ws 0) := by
  rw [cmptCtrl_wordAt, bitAt_setOpcodeBits ws op 29 hn, if_neg (by decide), cmptCtrl_wordAt]

theorem buildNative_format {env : Env} {cw : Vector Word 2} {ws : Vector Word 4}
    (h : buildNative env cw = .ok ws) : cmptCtrl (wordAt ws 0) = false := by
  obtain ⟨maps, t, order, -, -, -, rfl⟩ := buildNative_ok h
  exact setCmptCtrl_format (by decide) _ _

theorem buildCompact_format {env : Env} {nw : Vector Word 4} {ws : Vector Word 2}
    (h : buildCompact env nw = .ok ws) : cmptCtrl (wordAt ws 0) = true := by
  cases hb : buildCompactTarget env false nw with
  | error stop => simp only [buildCompact, hb] at h; cases h
  | ok t =>
    simp only [buildCompact, hb] at h
    cases h
    obtain ⟨maps, t', order, -, -, -, rfl⟩ := buildCompactTarget_ok hb
    exact setCmptCtrl_format (by decide) _ _

/-- The words a masks step has reached so far, the others as they were. -/
theorem wordAt_maskFold {n : Nat} (ws : Vector Word n) (o a : Vector Word 4) (k i : Nat) (hk : k ≤ n) :
    wordAt ((List.range k).foldl (fun w j => setWord w j ((wordAt w j ||| wordAt o j) &&& wordAt a j)) ws) i
      = if i < k then (wordAt ws i ||| wordAt o i) &&& wordAt a i else wordAt ws i := by
  induction k with
  | zero => rfl
  | succ k ih =>
    have ih := ih (by omega)
    rw [List.range_succ, List.foldl_append, List.foldl_cons, List.foldl_nil, wordAt_setWord _ _ _ _ (by omega)]
    by_cases hik : i = k
    · subst hik
      rw [if_pos rfl, ih, if_neg (by omega), if_pos (by omega)]
    · rw [if_neg hik, ih]
      by_cases hlt : i < k
      · rw [if_pos hlt, if_pos (by omega)]
      · rw [if_neg hlt, if_neg (by omega)]

/-- Every word of a buffer after a masks step: OR first, then AND (R390). -/
theorem wordAt_maskWords {n : Nat} (ws : Vector Word n) (o a : Vector Word 4) {i : Nat} (hi : i < n) :
    wordAt (maskWords ws o a) i = (wordAt ws i ||| wordAt o i) &&& wordAt a i := by
  rw [maskWords, wordAt_maskFold ws o a n i le_rfl, if_pos hi]

theorem maskWords_format {n : Nat} (hn : 0 < n) (ws : Vector Word n) (o a : Vector Word 4) :
    cmptCtrl (wordAt (maskWords ws o a) 0)
      = ((cmptCtrl (wordAt ws 0) || cmptCtrl (wordAt o 0)) && cmptCtrl (wordAt a 0)) := by
  rw [wordAt_maskWords ws o a hn]
  simp only [cmptCtrl, BitVec.getLsbD_and, BitVec.getLsbD_or]

theorem applyNativeMasks_format {env : Env} {ws ws' : Vector Word 4} (ht : tablesKeepFormat env.tabs = true)
    (h : applyNativeMasks env ws = .ok ws') (hws : cmptCtrl (wordAt ws 0) = false) :
    cmptCtrl (wordAt ws' 0) = false := by
  refine applyMasks_induct (fun v => cmptCtrl (wordAt v 0) = false) _ _ ws ws' (fun g hg m hm v hv => ?_) hws h
  have hleaf := List.all_eq_true.mp (List.all_eq_true.mp (Bool.and_eq_true_iff.mp ht).1 g hg) m hm
  rw [maskWords_format (by decide), hv, Bool.false_or]
  exact Bool.eq_false_of_not_eq_true' hleaf

theorem applyCompactMasks_format {env : Env} {ws ws' : Vector Word 2} (ht : tablesKeepFormat env.tabs = true)
    (h : applyCompactMasks env ws = .ok ws') (hws : cmptCtrl (wordAt ws 0) = true) :
    cmptCtrl (wordAt ws' 0) = true := by
  refine applyMasks_induct (fun v => cmptCtrl (wordAt v 0) = true) _ _ ws ws' (fun g hg m hm v hv => ?_) hws h
  have hleaf := List.all_eq_true.mp (List.all_eq_true.mp (Bool.and_eq_true_iff.mp ht).2 g hg) m hm
  rw [maskWords_format (by decide), hv, Bool.true_or, Bool.true_and]
  exact hleaf

/-- A write reaches no protected bit, so bit 29 stays (R256). -/
theorem writeIn_format {n : Nat} {env : Env} {c : Ctx n} {f : FieldId} {v : U64} {ws : Vector Word n}
    (h : writeIn env c f v = .ok ws) : cmptCtrl (wordAt ws 0) = cmptCtrl (wordAt c.words 0) := by
  unfold writeIn at h
  split at h
  · cases h
  · cases h
  · cases h
  · simp only at h
    split at h
    · split at h
      · cases h
      · split at h
        · cases h; rfl
        · cases h
    · next ps _ =>
      split at h
      · cases h
      · split at h
        · cases h
        · next hp =>
          split at h
          · cases h
          · refine insertFrags_frame ps _ 29 _ _ h fun p hmem hcov => hp ?_
            exact List.any_eq_true.mpr ⟨p, hmem, by simp [fragProtected, hcov]⟩

theorem Move.format {env : Env} {e e' : Engine} (ht : tablesKeepFormat env.tabs = true) (h : Move env e e')
    (hf : FormatOk e) : FormatOk e' := by
  obtain ⟨hnative, hcompact⟩ := hf
  cases h with
  | rebuildNative hw => exact ⟨fun _ => buildNative_format hw, hcompact⟩
  | rebuildCompact hw => exact ⟨hnative, fun _ => buildCompact_format hw⟩
  | maskNative hn hw => exact ⟨fun _ => applyNativeMasks_format ht hw (hnative hn), hcompact⟩
  | maskCompact hc hw => exact ⟨hnative, fun _ => applyCompactMasks_format ht hw (hcompact hc)⟩
  | writeNative hn hw => exact ⟨fun _ => (writeIn_format hw).trans (hnative hn), hcompact⟩
  | writeCompact hc hw => exact ⟨hnative, fun _ => (writeIn_format hw).trans (hcompact hc)⟩
  | dropNative => exact ⟨nofun, hcompact⟩
  | dropCompact => exact ⟨hnative, nofun⟩
  | reopcode hn =>
    exact ⟨fun _ => (setOpcodeBits_format (by decide) _ _).trans (hnative hn), nofun⟩

/-- The masks of the current tables are masks of the ROM. -/
theorem tablesKeepFormat_env {s : State} {env : Env} (hrom : romKeepsFormat s.rom = true)
    (he : s.env = some env) : tablesKeepFormat env.tabs = true := by
  obtain ⟨hm, ht, -⟩ := env_eq_some he
  obtain ⟨id, hid, -⟩ := findModel_mem hm
  exact List.all_eq_true.mp (List.all_eq_true.mp hrom _ hid) _ (findTables_mem ht)

theorem leftoverEngine_format (l : Config.Leftover) : FormatOk (leftoverEngine l) := by
  refine ⟨fun h => ?_, fun h => ?_⟩
  · have hnv : l.nv = true := h
    simp only [leftoverEngine, hnv, if_true]
    exact setCmptCtrl_format (by decide) _ _
  · have hcv : l.cv = true := h
    simp only [leftoverEngine, hcv, if_true]
    exact setCmptCtrl_format (by decide) _ _

/-- An opcode has no bit 29. -/
theorem cmptCtrl_opcode (op : BitVec 7) : cmptCtrl (op.setWidth 32) = false := by
  simp [cmptCtrl, BitVec.getLsbD_setWidth, BitVec.getLsbD_of_ge op 29 (by decide)]

theorem Leaves.format {s : State} {e : Engine} (h : Leaves s e) (hrom : romKeepsFormat s.rom = true)
    (hs : s.formatInv) : FormatOk e := by
  cases h with
  | unchanged => exact hs
  | moved env e hi he hmoves => exact hmoves.keep (fun _ _ hm => hm.format (tablesKeepFormat_env hrom he)) hs
  | leftover l => exact leftoverEngine_format l
  | fresh env m op ht => exact ⟨fun _ => cmptCtrl_opcode op, nofun⟩
  | native env m w0 w1 w2 w3 ht hw => exact ⟨fun _ => hw, nofun⟩
  | compact env m w0 w1 nw ht hw hb => exact ⟨fun _ => buildNative_format hb, fun _ => hw⟩

/-- Settles O9: builds set bit 29, masks and writes leave it, and loads take a word that says its format. -/
theorem everyStepKeepsTheFormatInvariant : Obligations.EveryStepKeepsTheFormatInvariant :=
  fun _ _ hrom _ hs hstep => (step_leaves hstep).1.format hrom hs

end Sys2Proof.Proofs
end

section
/-! SUPPORT. What no command can observe: the words of a stale buffer, and anything in an engine that is not set
up (R54, R55, R506). -/

namespace Sys2Proof.Proofs

open Sys2Proof Sys2Proof.Machine Sys2Proof.Claims Sys2Proof.Laws

/-! ## Engines alike but for a stale buffer -/

/-- The engine with other words in its native buffer. -/
def otherNative (e : Engine) (ws : Vector Word 4) : Engine := { e with nw := ws }

/-- The engine with other words in its compact buffer. -/
def otherCompact (e : Engine) (ws : Vector Word 2) : Engine := { e with cw := ws }

@[simp] theorem otherNative_nv (e : Engine) (ws : Vector Word 4) : (otherNative e ws).nv = e.nv := rfl
@[simp] theorem otherNative_cv (e : Engine) (ws : Vector Word 4) : (otherNative e ws).cv = e.cv := rfl
@[simp] theorem otherNative_cw (e : Engine) (ws : Vector Word 4) : (otherNative e ws).cw = e.cw := rfl
@[simp] theorem otherNative_ce (e : Engine) (ws : Vector Word 4) : (otherNative e ws).ce = e.ce := rfl
@[simp] theorem otherCompact_nv (e : Engine) (ws : Vector Word 2) : (otherCompact e ws).nv = e.nv := rfl
@[simp] theorem otherCompact_cv (e : Engine) (ws : Vector Word 2) : (otherCompact e ws).cv = e.cv := rfl
@[simp] theorem otherCompact_nw (e : Engine) (ws : Vector Word 2) : (otherCompact e ws).nw = e.nw := rfl
@[simp] theorem otherCompact_ne (e : Engine) (ws : Vector Word 2) : (otherCompact e ws).ne = e.ne := rfl

/-- Two engines with a Valid buffer, alike but for the words of the one stale buffer. -/
inductive Alike (e : Engine) : Engine → Prop where
  | same : Alike e e
  | staleNative (ws : Vector Word 4) : e.nv = false → e.cv = true → Alike e (otherNative e ws)
  | staleCompact (ws : Vector Word 2) : e.nv = true → e.cv = false → Alike e (otherCompact e ws)

theorem alike_of_sameVisible {e1 e2 : Engine} (h : e1.sameVisible e2) (hi : e1.init = true)
    (hv : e1.nv = true ∨ e1.cv = true) : Alike e1 e2 := by
  obtain ⟨init1, model1, opc1, nw1, cw1, nv1, cv1, ne1, ce1⟩ := e1
  obtain ⟨init2, model2, opc2, nw2, cw2, nv2, cv2, ne2, ce2⟩ := e2
  obtain ⟨rfl, hrest⟩ := h
  obtain ⟨rfl, rfl, rfl, rfl, rfl, rfl, hnw, hcw⟩ := hrest hi
  cases nv1 with
  | true =>
    cases hnw rfl
    cases cv1 with
    | true => cases hcw rfl; exact .same
    | false => exact .staleCompact cw2 rfl rfl
  | false =>
    have hc : cv1 = true := hv.resolve_left Bool.false_ne_true
    cases hcw hc
    exact .staleNative nw2 rfl hc

theorem Alike.sameVisible {e1 e2 : Engine} (h : Alike e1 e2) : e1.sameVisible e2 := by
  refine ⟨?_, fun _ => ?_⟩
  · cases h <;> rfl
  cases h with
  | same => exact ⟨rfl, rfl, rfl, rfl, rfl, rfl, fun _ => rfl, fun _ => rfl⟩
  | staleNative ws hn hc => exact ⟨rfl, rfl, rfl, rfl, rfl, rfl, by simp [hn], fun _ => rfl⟩
  | staleCompact ws hn hc => exact ⟨rfl, rfl, rfl, rfl, rfl, rfl, fun _ => rfl, by simp [hc]⟩

/-- Two helpers' outcomes: the same stop, or engines alike. -/
inductive AlikeRes : Res Engine → Res Engine → Prop where
  | stops (stop : Stop) : AlikeRes (.error stop) (.error stop)
  | gives {e1 e2 : Engine} : Alike e1 e2 → AlikeRes (.ok e1) (.ok e2)

theorem AlikeRes.refl (r : Res Engine) : AlikeRes r r := by
  cases r with
  | error stop => exact .stops stop
  | ok e => exact .gives .same

/-- Two runs of a command's body: engines alike, and one outcome. -/
inductive AlikeRun {α : Type} : Engine × Res α → Engine × Res α → Prop where
  | mk {e1 e2 : Engine} (out : Res α) : Alike e1 e2 → AlikeRun (e1, out) (e2, out)

theorem AlikeRun.refl {α : Type} (r : Engine × Res α) : AlikeRun r r := .mk r.2 .same

/-- A Valid native buffer is no stale one. -/
theorem Alike.nw_eq {e1 e2 : Engine} (h : Alike e1 e2) (hn : e1.nv = true) : e2.nw = e1.nw := by
  cases h with
  | same => rfl
  | staleNative ws hn' _ => exact absurd (hn'.symm.trans hn) Bool.false_ne_true
  | staleCompact => rfl

/-- A Valid compact buffer is no stale one. -/
theorem Alike.cw_eq {e1 e2 : Engine} (h : Alike e1 e2) (hc : e1.cv = true) : e2.cw = e1.cw := by
  cases h with
  | same => rfl
  | staleNative => rfl
  | staleCompact ws _ hc' => exact absurd (hc'.symm.trans hc) Bool.false_ne_true

/-! ## Reads -/

/-- A stale native buffer whose rebuild fails stays as it was, unless ROM data is broken (R241). -/
theorem refresh_failed {env : Env} {e : Engine} {stop : Stop} (hn : e.nv = false) (hc : e.cv = true)
    (hw : buildNative env e.cw = .error stop) :
    refresh env e = if stop = .raise .internalError then broken else .ok e := by
  simp only [refresh, hn, hc, regenerateNative, hw, Bool.not_false, Bool.and_self, if_true]
  rcases stop with c | why
  · cases c <;> rfl
  · rfl

/-- A stale native buffer is rebuilt whatever its words are, or stays as it was. -/
theorem refresh_alike {e1 e2 : Engine} (h : Alike e1 e2) (env : Env) :
    AlikeRes (refresh env e1) (refresh env e2) := by
  cases h with
  | same => exact .refl _
  | staleNative ws hn hc =>
    cases hw : buildNative env e1.cw with
    | ok w =>
      rw [refresh_rebuilt hn hc hw, refresh_rebuilt (e := otherNative e1 ws) hn hc hw]
      exact .gives .same
    | error stop =>
      rw [refresh_failed hn hc hw, refresh_failed (e := otherNative e1 ws) hn hc hw]
      split
      · exact .stops _
      · exact .gives (.staleNative ws hn hc)
  | staleCompact ws hn hc =>
    rw [refresh_valid env hn, refresh_valid (e := otherCompact e1 ws) env hn]
    exact .gives (.staleCompact ws hn hc)

theorem onRefreshed_alike {α : Type} {e1 e2 : Engine} (h : Alike e1 e2) (env : Env) {look : Engine → Res α}
    (hlook : ∀ a b, Alike a b → look a = look b) :
    AlikeRun (onRefreshed env e1 look) (onRefreshed env e2 look) := by
  unfold onRefreshed
  have hr := refresh_alike h env
  generalize refresh env e1 = r1, refresh env e2 = r2 at hr ⊢
  cases hr with
  | stops stop => exact .mk _ h
  | gives h' => simp only [hlook _ _ h']; exact .mk _ h'

/-- A read looks at Valid buffers only (R241). -/
theorem readBuffers_alike {e1 e2 : Engine} (h : Alike e1 e2) (env : Env) (f : FieldId) (mode : Mode) :
    readBuffers env e1 f mode = readBuffers env e2 f mode := by
  cases h with
  | same => rfl
  | staleNative ws hn hc => simp [readBuffers, readCompact, hn, hc]
  | staleCompact ws hn hc => simp [readBuffers, readNative, readCompact, hn, hc]

theorem fieldSize_alike {e1 e2 : Engine} (h : Alike e1 e2) (env : Env) (f : FieldId) :
    fieldSize env e1 f = fieldSize env e2 f := by
  cases h with
  | same => rfl
  | staleNative ws hn hc => simp [fieldSize, hn, hc]
  | staleCompact ws hn hc => simp [fieldSize, hn, hc]

theorem locateIn_alike {e1 e2 : Engine} (h : Alike e1 e2) (env : Env) (f : FieldId) :
    locateIn env e1 f = locateIn env e2 f := by
  cases h with
  | same => rfl
  | staleNative ws hn hc => simp [locateIn, hn]
  | staleCompact ws hn hc => simp [locateIn, hn]

theorem readField_alike {e1 e2 : Engine} (h : Alike e1 e2) (env : Env) (f : FieldId) (mode : Mode) :
    AlikeRun (readField env e1 f mode) (readField env e2 f mode) := by
  rw [readField_eq, readField_eq]
  exact onRefreshed_alike h env fun _ _ h' => readBuffers_alike h' env f mode

theorem measureField_alike {e1 e2 : Engine} (h : Alike e1 e2) (env : Env) (f : FieldId) :
    AlikeRun (measureField env e1 f) (measureField env e2 f) := by
  rw [measureField_eq, measureField_eq]
  exact onRefreshed_alike h env fun _ _ h' => by rw [fieldSize_alike h']

theorem locateField_alike {e1 e2 : Engine} (h : Alike e1 e2) (env : Env) (f : FieldId) :
    AlikeRun (locateField env e1 f) (locateField env e2 f) := by
  rw [locateField_eq, locateField_eq]
  exact onRefreshed_alike h env fun _ _ h' => locateIn_alike h' env f

theorem permit_alike {r1 r2 : Engine × Res U64} (h : AlikeRun r1 r2) (ok : U64 → Bool) :
    AlikeRun (r1.1, permit ok r1.2) (r2.1, permit ok r2.2) := by
  cases h with
  | mk out h' => exact .mk _ h'

theorem readThen_alike {e1 e2 : Engine} (h : Alike e1 e2) (env : Env) (f : FieldId) (k : U64 → Res U64) :
    AlikeRun (readThen env e1 f k) (readThen env e2 f k) := by
  unfold readThen
  have hr := readField_alike h env f .encoded
  generalize readField env e1 f .encoded = r1, readField env e2 f .encoded = r2 at hr ⊢
  obtain ⟨out, h'⟩ := hr
  cases out <;> exact .mk _ h'

/-- Every part is read on the engine that the part before it leaves (R415). -/
theorem collect_alike (env : Env) (parts : List (FieldId × Nat)) {e1 e2 : Engine} (h : Alike e1 e2) (v : U64) :
    AlikeRun (collect env e1 parts v) (collect env e2 parts v) := by
  induction parts generalizing e1 e2 v with
  | nil => exact .mk _ h
  | cons part parts ih =>
    unfold collect
    have hr := readField_alike h env part.1 .encoded
    generalize readField env e1 part.1 .encoded = r1, readField env e2 part.1 .encoded = r2 at hr ⊢
    obtain ⟨out, h'⟩ := hr
    cases out with
    | error stop => exact .mk _ h'
    | ok r => exact ih h' _

theorem descriptor_alike {α : Type} {e1 e2 : Engine} (h : Alike e1 e2) (list : List α) (id : BitVec 16)
    {k1 k2 : α → Engine × Res Answer} (hk : ∀ d, AlikeRun (k1 d) (k2 d)) :
    AlikeRun (descriptor e1 list id k1) (descriptor e2 list id k2) := by
  unfold descriptor
  cases list[id.toNat]? with
  | none => exact .mk _ h
  | some d => exact hk d

/-! ## Writes -/

/-- A stale buffer is no target of a write (R253). -/
theorem tryWrite_stale {n : Nat} (w : Res (Vector Word n)) : tryWrite false w = .ok .skipped := rfl

/-- A write looks at Valid buffers only, and keeps a stale one stale (R253). -/
theorem setField_alike {e1 e2 : Engine} (h : Alike e1 e2) (env : Env) (f : FieldId) (v : U64) :
    AlikeRes (setField env e1 f v) (setField env e2 f v) := by
  cases h with
  | same => exact .refl _
  | staleNative ws hn hc =>
    simp only [setField, otherNative_nv, otherNative_cv, otherNative_cw, hn, tryWrite_stale]
    cases tryWrite e1.cv (writeIn env (compactCtx env e1.cw) f v) with
    | error stop => exact .stops _
    | ok b =>
      cases b with
      | wrote ws' => exact .gives (.staleNative (e := e1.wroteCompact ws') ws hn hc)
      | skipped | noField | badValue => exact .stops _
  | staleCompact ws hn hc =>
    simp only [setField, otherCompact_nv, otherCompact_cv, otherCompact_nw, hc, tryWrite_stale]
    cases tryWrite e1.nv (writeIn env (nativeCtx env e1.nw) f v) with
    | error stop => exact .stops _
    | ok a =>
      cases a with
      | wrote ws' => exact .gives (.staleCompact (e := e1.wroteNative ws') ws hn hc)
      | skipped | noField | badValue => exact .stops _

theorem writeRun_alike {e1 e2 : Engine} (h : Alike e1 e2) (env : Env) (f : FieldId) (v : U64) :
    AlikeRun (writeRun env e1 f v) (writeRun env e2 f v) := by
  unfold writeRun
  have hr := setField_alike h env f v
  generalize setField env e1 f v = r1, setField env e2 f v = r2 at hr ⊢
  cases hr with
  | stops stop => exact .mk _ h
  | gives h' => exact .mk _ h'

/-! ## Preparations -/

/-- Where a command needs the native buffer, a stale one is rebuilt whatever its words are. -/
theorem readyNative_alike {e1 e2 : Engine} (h : Alike e1 e2) (env : Env) :
    AlikeRes (if e1.nv then .ok e1 else regenerateNative env e1)
      (if e2.nv then .ok e2 else regenerateNative env e2) := by
  cases h with
  | same => exact .refl _
  | staleNative ws hn hc =>
    rw [otherNative_nv, hn]
    exact .refl (regenerateNative env e1)
  | staleCompact ws hn hc =>
    rw [otherCompact_nv, hn]
    exact .gives (.staleCompact ws hn hc)

theorem encodeNativeBuffer_alike {e1 e2 : Engine} (h : Alike e1 e2) (env : Env) (hn : e1.nv = true) :
    AlikeRes (encodeNativeBuffer env e1) (encodeNativeBuffer env e2) := by
  cases h with
  | same => exact .refl _
  | staleNative ws hn' _ => exact absurd (hn'.symm.trans hn) Bool.false_ne_true
  | staleCompact ws _ hc =>
    cases he : e1.ne with
    | true =>
      simp only [encodeNativeBuffer, otherCompact_ne, he, if_true]
      exact .gives (.staleCompact ws hn hc)
    | false =>
      simp only [encodeNativeBuffer, otherCompact_ne, otherCompact_nw, he, Bool.false_eq_true, if_false]
      cases applyNativeMasks env e1.nw with
      | error stop => exact .stops stop
      | ok w => exact .gives (.staleCompact (e := e1.maskedNative w) ws hn hc)

theorem prepareNative_alike {e1 e2 : Engine} (h : Alike e1 e2) (env : Env) :
    AlikeRes (prepareNative env e1) (prepareNative env e2) := by
  unfold prepareNative
  have hr := readyNative_alike h env
  have hv := fun e' => readyNative_moves (env := env) (e := e1) (e' := e')
  generalize (if e1.nv then .ok e1 else regenerateNative env e1) = r1,
    (if e2.nv then .ok e2 else regenerateNative env e2) = r2 at hr hv ⊢
  cases hr with
  | stops stop => exact .stops stop
  | gives h' => exact encodeNativeBuffer_alike h' env (hv _ rfl).2

theorem finishCompact_alike {e1 e2 : Engine} (h : Alike e1 e2) (env : Env) (hc : e1.cv = true) :
    AlikeRun (finishCompact env e1) (finishCompact env e2) := by
  cases h with
  | same => exact .refl _
  | staleCompact ws _ hc' => exact absurd (hc'.symm.trans hc) Bool.false_ne_true
  | staleNative ws hn _ =>
    cases he : e1.ce with
    | true =>
      simp only [finishCompact, encodeCompactBuffer, otherNative_ce, he, if_true]
      exact .mk _ (.staleNative ws hn hc)
    | false =>
      simp only [finishCompact, encodeCompactBuffer, otherNative_ce, otherNative_cw, he, Bool.false_eq_true,
        if_false]
      cases applyCompactMasks env e1.cw with
      | error stop => exact .mk _ (.staleNative ws hn hc)
      | ok w => exact .mk _ (.staleNative (e := e1.maskedCompact w) ws hn hc)

/-- A rebuilt compact buffer does not depend on the stale words it replaces. -/
theorem regenerateCompact_alike {e1 e2 : Engine} (h : Alike e1 e2) (env : Env) (hn : e1.nv = true) :
    regenerateCompact env e2 = regenerateCompact env e1 := by
  cases h with
  | same => rfl
  | staleNative ws hn' _ => exact absurd (hn'.symm.trans hn) Bool.false_ne_true
  | staleCompact => rfl

theorem prepareCompact_alike {e1 e2 : Engine} (h : Alike e1 e2) (env : Env) :
    AlikeRun (prepareCompact env e1) (prepareCompact env e2) := by
  cases h with
  | same => exact .refl _
  | staleNative ws hn hc =>
    simp only [prepareCompact, otherNative_cv, hc, if_true]
    exact finishCompact_alike (.staleNative ws hn hc) env hc
  | staleCompact ws hn hc =>
    have h : Alike e1 (otherCompact e1 ws) := .staleCompact ws hn hc
    have hp := prepareNative_alike h env
    have hv := fun e' => prepareNative_moves (env := env) (e := e1) (e' := e')
    simp only [prepareCompact, otherCompact_cv, hc, Bool.false_eq_true, if_false]
    generalize prepareNative env e1 = p1, prepareNative env (otherCompact e1 ws) = p2 at hp hv ⊢
    cases hp with
    | stops stop => exact .mk _ h
    | gives h' =>
      simp only [regenerateCompact_alike h' env (hv _ rfl).2]
      split
      · exact .mk _ h'
      · exact .refl _

/-! ## The bodies of the commands that read the request -/

/-- The machine with another engine. -/
def withEngine (s : State) (e : Engine) : State := { s with eng := e }

@[simp] theorem withEngine_eng (s : State) (e : Engine) : (withEngine s e).eng = e := rfl
@[simp] theorem withEngine_rom (s : State) (e : Engine) : (withEngine s e).rom = s.rom := rfl
@[simp] theorem withEngine_maskSense (s : State) (e : Engine) : (withEngine s e).maskSense = s.maskSense := rfl
@[simp] theorem withEngine_validationMode (s : State) (e : Engine) :
    (withEngine s e).validationMode = s.validationMode := rfl
@[simp] theorem withEngine_request (s : State) (e : Engine) : (withEngine s e).request = s.request := rfl

theorem encodeNative_alike {s : State} {e : Engine} (h : Alike s.eng e) (env : Env) :
    AlikeRun (encodeNative s env) (encodeNative (withEngine s e) env) := by
  have hp := prepareNative_alike h env
  have hv := fun e' => prepareNative_moves (env := env) (e := s.eng) (e' := e')
  dsimp only [encodeNative, withEngine_eng]
  generalize prepareNative env s.eng = p1, prepareNative env e = p2 at hp hv ⊢
  cases hp with
  | stops stop => exact .mk _ h
  | gives h' =>
    simp only [h'.nw_eq (hv _ rfl).2]
    exact .mk _ h'

/-- The masks of a Valid compact buffer leave it Valid. -/
theorem finishCompact_cv {env : Env} {e : Engine} (hc : e.cv = true) : (finishCompact env e).1.cv = true := by
  cases he : e.ce with
  | true => simp only [finishCompact, encodeCompactBuffer, he, if_true]; exact hc
  | false =>
    simp only [finishCompact, encodeCompactBuffer, he, Bool.false_eq_true, if_false]
    cases applyCompactMasks env e.cw <;> exact hc

/-- A finished preparation of the compact buffer leaves it Valid. -/
theorem prepareCompact_cv {env : Env} {e e' : Engine} {u : Unit} (h : prepareCompact env e = (e', .ok u)) :
    e'.cv = true := by
  rcases prepareCompact_cases env e with ⟨hc, hp⟩ | ⟨stop, -, -, hp⟩ | ⟨e1, stop, -, -, -, hp⟩
    | ⟨e1, ws, -, -, -, hp⟩ <;> rw [h] at hp
  · exact (congrArg (fun r => r.1.cv) hp).trans (finishCompact_cv hc)
  · cases hp
  · cases hp
  · exact (congrArg (fun r => r.1.cv) hp).trans (finishCompact_cv rfl)

theorem encodeCompact_alike {s : State} {e : Engine} (h : Alike s.eng e) (env : Env) :
    AlikeRun (encodeCompact s env) (encodeCompact (withEngine s e) env) := by
  have hp := prepareCompact_alike h env
  have hv := fun e' => prepareCompact_cv (env := env) (e := s.eng) (e' := e') (u := ())
  dsimp only [encodeCompact, withEngine_eng]
  generalize prepareCompact env s.eng = p1, prepareCompact env e = p2 at hp hv ⊢
  obtain ⟨out, h'⟩ := hp
  cases out with
  | error stop => exact .mk _ h'
  | ok u =>
    simp only [h'.cw_eq (hv _ rfl)]
    exact .mk _ h'

theorem reopcoded_alike {e1 e2 : Engine} (h : Alike e1 e2) (hn : e1.nv = true) (op : BitVec 7) :
    Alike (reopcoded e1 op) (reopcoded e2 op) := by
  cases h with
  | same => exact .same
  | staleNative ws hn' _ => exact absurd (hn'.symm.trans hn) Bool.false_ne_true
  | staleCompact ws _ _ => exact .staleCompact (e := reopcoded e1 op) ws hn rfl

theorem setOpcode_alike {s : State} {e : Engine} (h : Alike s.eng e) (env : Env) :
    AlikeRun (setOpcode s env) (setOpcode (withEngine s e) env) := by
  have hr := readyNative_alike (e2 := (withEngine s e).eng) h env
  have hv := fun e' => readyNative_moves (env := env) (e := s.eng) (e' := e')
  unfold setOpcode
  rw [withEngine_request]
  generalize (if s.eng.nv then .ok s.eng else regenerateNative env s.eng) = r1,
    (if (withEngine s e).eng.nv then .ok (withEngine s e).eng
      else regenerateNative env (withEngine s e).eng) = r2 at hr hv ⊢
  cases findOpcode env.md s.request.a0 with
  | none => exact .mk _ h
  | some tabs =>
    cases hr with
    | stops stop => exact .mk _ h
    | gives h' => exact .mk _ (reopcoded_alike h' (hv _ rfl).2 _)

theorem withForms_alike {s : State} {e : Engine} (h : Alike s.eng e) (env : Env)
    (answer : Target 2 → Res Answer) :
    AlikeRun (withForms s env answer) (withForms (withEngine s e) env answer) := by
  have hp := prepareNative_alike h env
  have hv := fun e' => prepareNative_moves (env := env) (e := s.eng) (e' := e')
  cases hm : s.validationMode with
  | false =>
    simp only [withForms, withEngine_eng, withEngine_validationMode, hm]
    exact .mk _ h
  | true =>
    simp only [withForms, withEngine_eng, withEngine_validationMode, hm, if_true]
    generalize prepareNative env s.eng = p1, prepareNative env e = p2 at hp hv ⊢
    cases hp with
    | stops stop => exact .mk _ h
    | gives h' =>
      simp only [h'.nw_eq (hv _ rfl).2]
      split <;> exact .mk _ h'

/-! ## Whole commands -/

theorem finish_alike {s : State} {e : Engine} {r1 r2 : Engine × Res Answer} (hs : s.eng.sameVisible e)
    (h : AlikeRun r1 r2) : (finish s r1.1 r1.2).sameVisible (finish (withEngine s e) r2.1 r2.2) := by
  obtain ⟨out, h'⟩ := h
  rcases out with (c | why) | a
  · by_cases hc : c = .internalError
    · subst hc; exact ⟨hs, rfl⟩
    · rw [finish_raise _ _ hc, finish_raise _ _ hc]
      exact ⟨h'.sameVisible, rfl⟩
  · exact ⟨hs, rfl⟩
  · exact ⟨h'.sameVisible, rfl⟩

/-- Alike engines have the same tables. -/
theorem Alike.env_eq {s : State} {e : Engine} (h : Alike s.eng e) : (withEngine s e).env = s.env := by
  cases h <;> rfl

theorem Alike.init_eq {e1 e2 : Engine} (h : Alike e1 e2) : e2.init = e1.init := by
  cases h <;> rfl

/-- A command is blind to what its body is blind to on set-up engines (R41). -/
theorem command_alike {s : State} {e : Engine} {body1 body2 : Env → Engine × Res Answer} (hinv : s.statusInv)
    (hs : s.eng.sameVisible e) (h : ∀ env, Alike s.eng e → AlikeRun (body1 env) (body2 env)) :
    (command s body1).sameVisible (command (withEngine s e) body2) := by
  obtain ⟨-, -, hvalid, henv⟩ := hinv
  cases hi : s.eng.init with
  | false =>
    have hi' : (withEngine s e).eng.init = false := hs.1.symm.trans hi
    rw [command_uninitialised hi, command_uninitialised hi']
    exact ⟨hs, rfl⟩
  | true =>
    have halike := alike_of_sameVisible hs hi (hvalid hi)
    obtain ⟨env, he⟩ := Option.isSome_iff_exists.mp (henv hi)
    have hi' : (withEngine s e).eng.init = true := halike.init_eq.trans hi
    rw [command_ready hi he, command_ready hi' (halike.env_eq.trans he)]
    exact finish_alike hs (h env halike)

theorem statusQuery_alike {s : State} {e : Engine} {bit1 bit2 : Bool} (hs : s.eng.sameVisible e)
    (hbit : s.eng.init = true → bit1 = bit2) :
    (statusQuery s bit1).sameVisible (statusQuery (withEngine s e) bit2) := by
  obtain ⟨hinit, hrest⟩ := hs
  cases hi : s.eng.init with
  | false =>
    have hi' : (withEngine s e).eng.init = false := hinit.symm.trans hi
    rw [statusQuery_uninitialised hi, statusQuery_uninitialised hi']
    exact ⟨⟨hinit, hrest⟩, rfl⟩
  | true =>
    have hi' : (withEngine s e).eng.init = true := hinit.symm.trans hi
    obtain ⟨-, -, hnv, hcv, hne, hce, -, -⟩ := hrest hi
    have hnumber : statusNumber (withEngine s e).eng = statusNumber s.eng := by
      simp only [statusNumber, withEngine_eng, hnv, hcv, hne, hce]
    rw [statusQuery_answer hi, statusQuery_answer hi', hnumber, hbit hi]
    exact ⟨⟨hinit, hrest⟩, rfl⟩

/-! ## Loads -/

/-- The two ends of a load run with two engines: the engine is replaced, or kept. -/
inductive Blind (s : State) (e : Engine) : State → State → Prop where
  | replaced (t : State) : Blind s e t t
  | kept (t : State) : t.eng = s.eng → Blind s e t (withEngine t e)

theorem Blind.sameVisible {s t1 t2 : State} {e : Engine} (h : Blind s e t1 t2) (hs : s.eng.sameVisible e) :
    t1.sameVisible t2 := by
  cases h with
  | replaced => exact ⟨Alike.same.sameVisible, rfl⟩
  | kept ht => exact ⟨ht ▸ hs, rfl⟩

theorem failLoad_blind (s : State) (e : Engine) (c : ResultCode) :
    Blind s e (failLoad s c) (failLoad (withEngine s e) c) := .replaced _

theorem refuse_blind (s : State) (e : Engine) (why : RefuseReason) :
    Blind s e (refuse s why) (refuse (withEngine s e) why) := .kept _ rfl

theorem raiseInternal_blind (s : State) (e : Engine) :
    Blind s e (raiseInternal s) (raiseInternal (withEngine s e)) := .kept _ rfl

theorem complete_blind (s : State) (e loaded : Engine) (a : Answer) :
    Blind s e (complete s loaded a) (complete (withEngine s e) loaded a) := .replaced _

theorem initInstance_blind (s : State) (e : Engine) :
    Blind s e (initInstance s) (initInstance (withEngine s e)) := by
  dsimp only [initInstance, withEngine_rom, withEngine_request]
  cases findModel s.rom s.request.a0.toNat with
  | none => exact failLoad_blind s e _
  | some md =>
    dsimp only
    cases findOpcode md s.request.a1 with
    | none => exact failLoad_blind s e _
    | some tabs => exact complete_blind s e _ _

theorem loadWord_blind (s : State) (e : Engine) (w0 : Word) (load : Env → ModelId → Res Engine) :
    Blind s e (loadWord s w0 load) (loadWord (withEngine s e) w0 load) := by
  dsimp only [loadWord, withEngine_rom, withEngine_request, withEngine_maskSense]
  cases findModel s.rom s.request.a0.toNat with
  | none => exact failLoad_blind s e _
  | some md =>
    dsimp only
    cases findTables md (opcodeOf w0) with
    | none => exact failLoad_blind s e _
    | some tabs =>
      dsimp only
      rcases load ⟨md, tabs, s.maskSense⟩ (s.request.a0.setWidth 32) with (c | why) | loaded
      · cases c with
        | internalError => exact raiseInternal_blind s e
        | _ => exact failLoad_blind s e _
      · exact refuse_blind s e why
      · exact complete_blind s e loaded _

theorem loadDecoded_blind (s : State) (e : Engine) (d : Except DecodeError Instr) :
    Blind s e (loadDecoded s d) (loadDecoded (withEngine s e) d) := by
  unfold loadDecoded
  split
  · exact loadWord_blind s e _ _
  · exact loadWord_blind s e _ _
  · exact failLoad_blind s e _

theorem decodeInstance_blind (s : State) (e : Engine) :
    Blind s e (decodeInstance s) (decodeInstance (withEngine s e)) := by
  unfold decodeInstance
  rw [withEngine_request, withEngine_rom]
  split
  · exact failLoad_blind s e _
  · split
    · exact refuse_blind s e _
    · split
      · exact failLoad_blind s e _
      · split
        · exact failLoad_blind s e _
        · exact loadDecoded_blind s e _

/-! ## Every instruction -/

/-- Two runs of one instruction that differ in what cannot be observed. -/
theorem exec_alike {i : Instr} {s t1 t2 : State} {e : Engine} (hinv : s.statusInv) (hs : s.eng.sameVisible e)
    (h1 : exec i s = .next t1) (h2 : exec i (withEngine s e) = .next t2) : t1.sameVisible t2 := by
  cases i <;> cases h1 <;> cases h2
  case init => exact (initInstance_blind s e).sameVisible hs
  case decode => exact (decodeInstance_blind s e).sameVisible hs
  case nativeInstruction | compactInstruction => exact (loadWord_blind s e _ _).sameVisible hs
  case isNativeEncoded =>
    exact statusQuery_alike hs fun hi => by obtain ⟨-, -, -, -, hne, -, -, -⟩ := hs.2 hi; exact hne
  case isCompactEncoded =>
    exact statusQuery_alike hs fun hi => by obtain ⟨-, -, -, -, -, hce, -, -⟩ := hs.2 hi; exact hce
  case encodeNative => exact command_alike hinv hs fun env h => encodeNative_alike h env
  case encodeCompact => exact command_alike hinv hs fun env h => encodeCompact_alike h env
  case setOpcode => exact command_alike hinv hs fun env h => setOpcode_alike h env
  case getSignedField | getUnsignedField | getSigned64Field | getUnsigned64Field | getRawField =>
    exact command_alike hinv hs fun env h => permit_alike (readField_alike h env _ _) _
  case getFieldSize => exact command_alike hinv hs fun env h => measureField_alike h env _
  case setSignedField | setUnsignedField | setSigned64Field | setUnsigned64Field =>
    rw [putField_eq, putField_eq]
    exact command_alike hinv hs fun env h => writeRun_alike h env _ _
  case countCompacted | retrieveAllCompactedFormats =>
    exact command_alike hinv hs fun env h => withForms_alike h env _
  case queryFieldBitLocation | printFieldBitLocation =>
    exact command_alike hinv hs fun env h => locateField_alike h env _
  case interpretPosition | reinterpretEnum =>
    exact command_alike hinv hs fun env h => descriptor_alike h _ _ fun d => readThen_alike h env _ _
  case collectFields =>
    exact command_alike hinv hs fun env h => descriptor_alike h _ _ fun d => collect_alike env _ h _

/-- Settles O16: a stale buffer is rebuilt before it is read, and a load or a refusal reads no engine. -/
theorem staleAndUninitialisedContentsAreUnobservable :
    Obligations.StaleAndUninitialisedContentsAreUnobservable := by
  intro i s1 s2 t1 t2 hinv _ hs h1 h2
  obtain ⟨heng, hrest⟩ := hs
  exact exec_alike hinv heng h1 ((congrArg (exec i) hrest).trans h2)

end Sys2Proof.Proofs
end

section
/-! SUPPORT. Every read is made of steps that look at the engine the regeneration leaves, so a second run finds
what the first one left (R90, R241). -/

namespace Sys2Proof.Proofs

open Sys2Proof Sys2Proof.Machine Sys2Proof.Claims Sys2Proof.Laws

/-! ## Reading twice -/

/-- A look at an engine that changes it by the regeneration only, and that finds the same when it is repeated. -/
structure ReadsOnce {α : Type} (env : Env) (look : Engine → Engine × Res α) : Prop where
  leaves : ∀ e, (look e).1 = e ∨ refresh env e = .ok (look e).1
  again : ∀ e, look (look e).1 = look e

/-- An engine with nothing to regenerate is left as it is. -/
theorem ReadsOnce.settled {α : Type} {env : Env} {look : Engine → Engine × Res α} (h : ReadsOnce env look)
    {e : Engine} (he : refresh env e = .ok e) : (look e).1 = e := by
  rcases h.leaves e with h1 | h1
  · exact h1
  · exact (Except.ok.inj (he.symm.trans h1)).symm

/-- What is made of the outcome does not matter. -/
theorem ReadsOnce.map {α β : Type} {env : Env} {look : Engine → Engine × Res α} (h : ReadsOnce env look)
    (g : Res α → Res β) : ReadsOnce env fun e => ((look e).1, g (look e).2) where
  leaves := h.leaves
  again e := by simp only [h.again e]

theorem onRefreshed_readsOnce {α : Type} (env : Env) (look : Engine → Res α) :
    ReadsOnce env fun e => onRefreshed env e look where
  leaves e := by
    cases h : refresh env e with
    | error stop => exact .inl (by simp only [onRefreshed, h])
    | ok e' => exact .inr (by simp only [onRefreshed, h])
  again e := by
    cases h : refresh env e with
    | error stop => simp only [onRefreshed, h]
    | ok e' => simp only [onRefreshed, h, refresh_again h]

theorem readField_readsOnce (env : Env) (f : FieldId) (mode : Mode) :
    ReadsOnce env fun e => readField env e f mode :=
  onRefreshed_readsOnce env fun e => readBuffers env e f mode

theorem measureField_readsOnce (env : Env) (f : FieldId) : ReadsOnce env fun e => measureField env e f := by
  simp only [measureField_eq]
  exact onRefreshed_readsOnce env _

theorem locateField_readsOnce (env : Env) (f : FieldId) : ReadsOnce env fun e => locateField env e f :=
  onRefreshed_readsOnce env fun e => locateIn env e f

/-- A derived value is an answer made of a raw read (R411, R413). -/
theorem readThen_eq (env : Env) (e : Engine) (f : FieldId) (k : U64 → Res U64) :
    readThen env e f k = ((readField env e f .encoded).1,
      (readField env e f .encoded).2 >>= fun r => permit fitsAny (k r)) := by
  rcases h : readField env e f .encoded with ⟨e', stop | r⟩ <;> simp only [readThen, h] <;> rfl

theorem readThen_readsOnce (env : Env) (f : FieldId) (k : U64 → Res U64) :
    ReadsOnce env fun e => readThen env e f k := by
  simp only [readThen_eq]
  exact (readField_readsOnce env f .encoded).map fun out => out >>= fun r => permit fitsAny (k r)

/-- A read that finds a value leaves nothing to regenerate. -/
theorem readField_found {env : Env} {e e' : Engine} {f : FieldId} {mode : Mode} {r : U64}
    (h : readField env e f mode = (e', .ok r)) : refresh env e = .ok e' := by
  rcases readField_cases env e f mode with ⟨e1, hr, h1⟩ | ⟨-, h1⟩ <;> rw [h] at h1
  · rw [hr, (Prod.mk.inj h1).1]
  · cases h1

/-- The first part of a collector regenerates what there is to regenerate; the others find the engine settled
(R415). -/
theorem collect_readsOnce (env : Env) (parts : List (FieldId × Nat)) (v : U64) :
    ReadsOnce env fun e => collect env e parts v := by
  induction parts generalizing v with
  | nil => exact ⟨fun _ => .inl rfl, fun _ => rfl⟩
  | cons part parts ih =>
    have hread := readField_readsOnce env part.1 .encoded
    suffices h : ∀ e, ((collect env e (part :: parts) v).1 = e ∨
        refresh env e = .ok (collect env e (part :: parts) v).1)
        ∧ collect env (collect env e (part :: parts) v).1 (part :: parts) v = collect env e (part :: parts) v from
      ⟨fun e => (h e).1, fun e => (h e).2⟩
    intro e
    have hleaves := hread.leaves e
    have hagain := hread.again e
    rcases hr : readField env e part.1 .encoded with ⟨e', stop | r⟩ <;> simp only [hr] at hleaves hagain
    · simp only [collect, hr, hagain]
      exact ⟨hleaves, trivial⟩
    · have hrefresh := readField_found hr
      have hrest := (ih (v ||| r <<< part.2)).settled (refresh_again hrefresh)
      simp only [collect, hr, hrest, hagain]
      exact ⟨.inr hrefresh, trivial⟩

theorem descriptor_readsOnce {α : Type} {env : Env} (list : List α) (id : BitVec 16)
    {k : Engine → α → Engine × Res Answer} (h : ∀ d, ReadsOnce env fun e => k e d) :
    ReadsOnce env fun e => descriptor e list id (k e) := by
  unfold descriptor
  cases list[id.toNat]? with
  | none => exact ⟨fun _ => .inl rfl, fun _ => rfl⟩
  | some d => exact h d

/-- Every read is a command whose body reads once. -/
theorem exec_of_isRead {i : Instr} (h : isRead i = true) :
    ∃ look : Env → Engine → Engine × Res Answer, (∀ env, ReadsOnce env (look env))
      ∧ ∀ s, exec i s = .next (command s fun env => look env s.eng) := by
  cases i with
  | getSignedField f | getUnsignedField f | getSigned64Field f | getUnsigned64Field f | getRawField f =>
    exact ⟨_, fun env => (readField_readsOnce env f.toNat _).map (permit _), fun _ => rfl⟩
  | getFieldSize f => exact ⟨_, fun env => measureField_readsOnce env f.toNat, fun _ => rfl⟩
  | queryFieldBitLocation f | printFieldBitLocation f =>
    exact ⟨_, fun env => locateField_readsOnce env f.toNat, fun _ => rfl⟩
  | interpretPosition p =>
    exact ⟨_, fun env => descriptor_readsOnce env.md.positionInterpreters p
      fun d => readThen_readsOnce env d.base (interpret d), fun _ => rfl⟩
  | reinterpretEnum e =>
    exact ⟨_, fun env => descriptor_readsOnce env.md.enumReinterpreters e
      fun d => readThen_readsOnce env d.source (remap d.table), fun _ => rfl⟩
  | collectFields k =>
    exact ⟨_, fun env => descriptor_readsOnce env.md.collectors k
      fun d => collect_readsOnce env d.parts 0, fun _ => rfl⟩
  | _ => cases h

/-! ## Ending twice -/

/-- The engine an ending leaves: the one given, or the one before the command (R505). -/
theorem finish_eng_cases (s : State) (e : Engine) (out : Res Answer) :
    (finish s e out).eng = e ∨ (finish s e out).eng = s.eng := by
  rcases finish_cases s e out with ⟨a, -, h⟩ | ⟨why, -, h⟩ | ⟨-, h⟩ | ⟨c, -, -, h⟩ <;> rw [h]
  · exact .inl rfl
  · exact .inr rfl
  · exact .inr rfl
  · exact .inl rfl

/-- The same ending from the state it gave: the same response, and the engine stays. -/
theorem finish_again {s : State} {e : Engine} {out : Res Answer} {r : Response}
    (h : answered s (finish s e out) r) :
    answered (finish s e out) (finish (finish s e out) e out) r
      ∧ (finish (finish s e out) e out).eng = (finish s e out).eng := by
  rcases out with (c | why) | a
  · by_cases hc : c = .internalError
    · subst hc; cases answered_unique h rfl; exact ⟨rfl, rfl⟩
    · simp only [finish_raise _ _ hc] at h ⊢
      cases answered_unique h rfl
      exact ⟨rfl, rfl⟩
  · cases answered_unique h rfl; exact ⟨rfl, rfl⟩
  · cases answered_unique h rfl; exact ⟨rfl, rfl⟩

/-- A set-up engine whose tables the ROM lacks (log entry 7). -/
theorem command_noTables {s : State} (hi : s.eng.init = true) (he : s.env = none)
    (body : Env → Engine × Res Answer) : command s body = raiseInternal s := by
  simp only [command, hi, he, if_true]

/-- The regeneration leaves the set-up bit, the model and the opcode. -/
theorem refresh_identity {env : Env} {e e' : Engine} (h : refresh env e = .ok e') :
    e'.init = e.init ∧ e'.model = e.model ∧ e'.opc = e.opc := by
  rcases refresh_cases env e with h1 | ⟨w, -, -, -, h1⟩ | h1 <;> rw [h] at h1 <;> cases h1 <;> exact ⟨rfl, rfl, rfl⟩

/-- A body that reads once leaves the engine or its regeneration, whatever the outcome, and would find the same
there. -/
theorem finish_readsOnce {env : Env} {look : Engine → Engine × Res Answer} (h : ReadsOnce env look) {s t : State}
    (ht : t = finish s (look s.eng).1 (look s.eng).2) :
    (t.eng = s.eng ∨ refresh env s.eng = .ok t.eng) ∧ look t.eng = look s.eng := by
  subst ht
  rcases finish_eng_cases s (look s.eng).1 (look s.eng).2 with heng | heng <;> rw [heng]
  · exact ⟨h.leaves s.eng, h.again s.eng⟩
  · exact ⟨.inl rfl, rfl⟩

/-- A command that reads once, run again: the same response, and nothing changes any more (R90). -/
theorem command_readsOnce_again {look : Env → Engine → Engine × Res Answer}
    (hlook : ∀ env, ReadsOnce env (look env)) {s t : State} {r : Response}
    (ht : t = command s fun env => look env s.eng) (ha : answered s t r) :
    answered t (command t fun env => look env t.eng) r ∧ (command t fun env => look env t.eng).eng = t.eng := by
  rcases command_cases s fun env => look env s.eng with ⟨hi, hc⟩ | ⟨hi, he, hc⟩ | ⟨env, hi, he, hc⟩ <;>
    rw [hc] at ht
  · subst ht
    cases answered_unique ha rfl
    rw [command_uninitialised (s := refuse s .uninitialised) hi]
    exact ⟨rfl, rfl⟩
  · subst ht
    cases answered_unique ha rfl
    rw [command_noTables (s := raiseInternal s) hi he]
    exact ⟨rfl, rfl⟩
  · obtain ⟨hrom, -, hsense, -, -⟩ := (finish_ending s (look env s.eng).1 (look env s.eng).2).frame
    rw [← ht] at hrom hsense
    obtain ⟨heng, hsame⟩ := finish_readsOnce (hlook env) ht
    obtain ⟨hinit, hmodel, hopc⟩ :
        t.eng.init = s.eng.init ∧ t.eng.model = s.eng.model ∧ t.eng.opc = s.eng.opc :=
      heng.elim (fun h => by rw [h]; exact ⟨rfl, rfl, rfl⟩) refresh_identity
    have henv : t.env = some env := by
      rw [State.env, tablesOf_congr hrom hsense, hmodel, hopc]
      exact he
    rw [command_ready (hinit.trans hi) henv, hsame]
    subst ht
    exact finish_again ha

/-- Settles O17: a read leaves what the regeneration leaves, and there a second read finds nothing to do. -/
theorem readsOnlyRebuildAStaleNativeBuffer : Obligations.ReadsOnlyRebuildAStaleNativeBuffer := by
  intro i s t r hread ht ha
  obtain ⟨look, hlook, hexec⟩ := exec_of_isRead hread
  rw [hexec, Host.Outcome.next.injEq] at ht
  refine ⟨?_, _, hexec t, command_readsOnce_again hlook ht.symm ha⟩
  rcases command_cases s fun env => look env s.eng with ⟨-, hc⟩ | ⟨-, -, hc⟩ | ⟨env, hi, he, hc⟩ <;>
    rw [hc] at ht
  · subst ht; exact .inl rfl
  · subst ht; exact .inl rfl
  · rcases (finish_readsOnce (hlook env) ht.symm).1 with h | h
    · exact .inl h
    · rcases refresh_cases env s.eng with h1 | ⟨w, hn, hcv, hw, h1⟩ | h1 <;> rw [h] at h1
      · exact .inl (Except.ok.inj h1)
      · exact .inr ⟨env, w, ⟨hi, he⟩, hn, hcv, hw, Except.ok.inj h1⟩
      · cases h1

end Sys2Proof.Proofs
end

section
/-! SUPPORT. The words of a host buffer, the instruction a `DECODE` finds in them, and its checks in order (R80,
R83, R123, R432, R504). -/

namespace Sys2Proof.Proofs

open Sys2Proof Sys2Proof.Machine Sys2Proof.Claims Sys2Proof.Laws

/-! ## The words of a host buffer (R80) -/

theorem hostWord_drop (bytes : List Byte) (i : Nat) : hostWord (bytes.drop 4) i = hostWord bytes (i + 1) := by
  have h0 : 4 + 4 * i = 4 * (i + 1) := by omega
  have h : ∀ j, 4 + (4 * i + j) = 4 * (i + 1) + j := by omega
  simp only [hostWord, List.getD_eq_getElem?_getD, List.getElem?_drop, h0, h]

/-- A word that lies inside the first `n` bytes. -/
theorem hostWord_take {n i : Nat} (h : 4 * i + 4 ≤ n) (bytes : List Byte) :
    hostWord (bytes.take n) i = hostWord bytes i := by
  simp only [hostWord, List.getD_eq_getElem?_getD]
  rw [List.getElem?_take_of_lt (by omega), List.getElem?_take_of_lt (by omega),
    List.getElem?_take_of_lt (by omega), List.getElem?_take_of_lt (by omega)]

/-- Four bytes make a word. -/
theorem leWords_of_le {bytes : List Byte} (h : 4 ≤ bytes.length) :
    leWords bytes = hostWord bytes 0 :: leWords (bytes.drop 4) := by
  match bytes, h with
  | b0 :: b1 :: b2 :: b3 :: rest, _ => rfl

/-- Bytes that fill no whole word make none (R80). -/
theorem length_leWords (bytes : List Byte) : (leWords bytes).length = bytes.length / 4 := by
  induction bytes using leWords.induct with
  | case1 b0 b1 b2 b3 rest ih => simp only [leWords, List.length_cons, ih]; omega
  | case2 bytes h =>
    match bytes, h with
    | [], _ | [_], _ | [_, _], _ | [_, _, _], _ => simp [leWords]
    | b0 :: b1 :: b2 :: b3 :: rest, h => exact absurd rfl (h b0 b1 b2 b3 rest)

theorem leWords_of_eight_le {bytes : List Byte} (h : 8 ≤ bytes.length) :
    leWords bytes = hostWord bytes 0 :: hostWord bytes 1 :: leWords (bytes.drop 8) := by
  rw [leWords_of_le (by omega), leWords_of_le (bytes := bytes.drop 4) (by rw [List.length_drop]; omega), hostWord_drop,
    List.drop_drop]

/-! ## The instruction in a host buffer (R120, R123) -/

theorem decodeInstruction_compact {bytes : List Byte} (h : 8 ≤ bytes.length)
    (hc : cmptCtrl (hostWord bytes 0) = true) :
    decodeInstruction (leWords bytes) = .ok (.compactInstruction (hostWord bytes 0) (hostWord bytes 1)) := by
  rw [leWords_of_eight_le h]
  simp only [decodeInstruction, hc, if_true]

theorem decodeInstruction_native {bytes : List Byte} (h : 16 ≤ bytes.length)
    (hc : cmptCtrl (hostWord bytes 0) = false) :
    decodeInstruction (leWords bytes) = .ok (.nativeInstruction (hostWord bytes 0) (hostWord bytes 1)
      (hostWord bytes 2) (hostWord bytes 3)) := by
  have hrest := leWords_of_eight_le (bytes := bytes.drop 8) (by rw [List.length_drop]; omega)
  rw [leWords_of_eight_le (by omega), hrest, ← List.drop_drop (i := 4) (j := 4)]
  simp only [decodeInstruction, hc, hostWord_drop]
  rfl

/-- Eight to fifteen bytes hold no native word. -/
theorem decodeInstruction_truncated {bytes : List Byte} (h8 : 8 ≤ bytes.length) (h16 : bytes.length < 16)
    (hc : cmptCtrl (hostWord bytes 0) = false) : decodeInstruction (leWords bytes) = .error .truncated := by
  have hrest : (leWords (bytes.drop 8)).length < 2 := by rw [length_leWords, List.length_drop]; omega
  rw [leWords_of_eight_le h8]
  generalize leWords (bytes.drop 8) = rest at hrest
  match rest, hrest with
  | [], _ | [_], _ => simp only [decodeInstruction, hc]; rfl

/-! ## The checks of `DECODE` (R432, R504) -/

section
variable {s : State} {bytes : List Byte} {md : ModelData} {tabs : OpcodeTables}

theorem decodeInstance_noBuffer (hb : s.request.inBuf = none) : decodeInstance s = failLoad s .nullPointer := by
  simp only [decodeInstance, hb]

theorem decodeInstance_hostBufferShort (hb : s.request.inBuf = some bytes)
    (hlen : bytes.length < s.request.a1.toNat) : decodeInstance s = refuse s .hostBufferShort := by
  simp only [decodeInstance, hb, if_pos hlen]

theorem decodeInstance_unknownModel (hb : s.request.inBuf = some bytes) (hlen : s.request.a1.toNat ≤ bytes.length)
    (hm : findModel s.rom s.request.a0.toNat = none) : decodeInstance s = failLoad s .invalidModel := by
  simp only [decodeInstance, hb, if_neg (Nat.not_lt.mpr hlen), hm]

theorem decodeInstance_sizeBelowEight (hb : s.request.inBuf = some bytes)
    (hlen : s.request.a1.toNat ≤ bytes.length) (hm : findModel s.rom s.request.a0.toNat = some md)
    (h8 : s.request.a1.toNat < 8) : decodeInstance s = failLoad s .bufferTooShort := by
  simp only [decodeInstance, hb, if_neg (Nat.not_lt.mpr hlen), hm, if_pos h8]

/-- With the model known and eight bytes there, the word in the first `size` bytes is loaded. -/
theorem decodeInstance_loadDecoded (hb : s.request.inBuf = some bytes)
    (hlen : s.request.a1.toNat ≤ bytes.length) (hm : findModel s.rom s.request.a0.toNat = some md)
    (h8 : 8 ≤ s.request.a1.toNat) :
    decodeInstance s = loadDecoded s (decodeInstruction (leWords (bytes.take s.request.a1.toNat))) := by
  simp only [decodeInstance, hb, if_neg (Nat.not_lt.mpr hlen), hm, if_neg (Nat.not_lt.mpr h8)]

theorem decodeInstance_truncated (hb : s.request.inBuf = some bytes) (hlen : s.request.a1.toNat ≤ bytes.length)
    (hm : findModel s.rom s.request.a0.toNat = some md) (h8 : 8 ≤ s.request.a1.toNat)
    (h16 : s.request.a1.toNat < 16) (hc : cmptCtrl (hostWord bytes 0) = false) :
    decodeInstance s = failLoad s .bufferTooShort := by
  have htake : (bytes.take s.request.a1.toNat).length = s.request.a1.toNat := List.length_take_of_le hlen
  rw [decodeInstance_loadDecoded hb hlen hm h8, decodeInstruction_truncated (by omega) (by omega)
    (by rw [hostWord_take (by omega)]; exact hc)]
  rfl

theorem decodeInstance_native (hb : s.request.inBuf = some bytes) (hlen : s.request.a1.toNat ≤ bytes.length)
    (hm : findModel s.rom s.request.a0.toNat = some md) (h16 : 16 ≤ s.request.a1.toNat)
    (hc : cmptCtrl (hostWord bytes 0) = false) :
    decodeInstance s
      = loadNative (hostWord bytes 0) (hostWord bytes 1) (hostWord bytes 2) (hostWord bytes 3) s := by
  have htake : (bytes.take s.request.a1.toNat).length = s.request.a1.toNat := List.length_take_of_le hlen
  have hw : ∀ i, i < 4 → hostWord (bytes.take s.request.a1.toNat) i = hostWord bytes i :=
    fun i hi => hostWord_take (by omega) bytes
  rw [decodeInstance_loadDecoded hb hlen hm (by omega), decodeInstruction_native (by omega)
    (by rw [hw 0 (by decide)]; exact hc), hw 0 (by decide), hw 1 (by decide), hw 2 (by decide), hw 3 (by decide)]
  rfl

theorem decodeInstance_compact (hb : s.request.inBuf = some bytes) (hlen : s.request.a1.toNat ≤ bytes.length)
    (hm : findModel s.rom s.request.a0.toNat = some md) (h8 : 8 ≤ s.request.a1.toNat)
    (hc : cmptCtrl (hostWord bytes 0) = true) :
    decodeInstance s = loadCompact (hostWord bytes 0) (hostWord bytes 1) s := by
  have htake : (bytes.take s.request.a1.toNat).length = s.request.a1.toNat := List.length_take_of_le hlen
  have hw : ∀ i, i < 2 → hostWord (bytes.take s.request.a1.toNat) i = hostWord bytes i :=
    fun i hi => hostWord_take (by omega) bytes
  rw [decodeInstance_loadDecoded hb hlen hm h8, decodeInstruction_compact (by omega)
    (by rw [hw 0 (by decide)]; exact hc), hw 0 (by decide), hw 1 (by decide)]
  rfl

/-! ## The load of a word (R432) -/

theorem loadWord_unsupported {w0 : Word} (load : Env → ModelId → Res Engine)
    (hm : findModel s.rom s.request.a0.toNat = some md) (ht : findTables md (opcodeOf w0) = none) :
    loadWord s w0 load = failLoad s .opcodeNotSupported := by
  simp only [loadWord, hm, ht]

theorem loadNative_loads {w0 : Word} (w1 w2 w3 : Word) (hm : findModel s.rom s.request.a0.toNat = some md)
    (ht : findTables md (opcodeOf w0) = some tabs) :
    loadNative w0 w1 w2 w3 s = complete s (nativeEngine (s.request.a0.setWidth 32) w0 w1 w2 w3) {} := by
  simp only [loadNative, loadWord, hm, ht]

theorem loadCompact_loads {w0 w1 : Word} {nw : Vector Word 4} (hm : findModel s.rom s.request.a0.toNat = some md)
    (ht : findTables md (opcodeOf w0) = some tabs)
    (hw : buildNative ⟨md, tabs, s.maskSense⟩ #v[w0, w1] = .ok nw) :
    loadCompact w0 w1 s = complete s (compactEngine (s.request.a0.setWidth 32) w0 w1 nw) {} := by
  simp only [loadCompact, loadWord, hm, ht, hw]

theorem loadCompact_undecodable {w0 w1 : Word} (hm : findModel s.rom s.request.a0.toNat = some md)
    (ht : findTables md (opcodeOf w0) = some tabs)
    (hw : buildNative ⟨md, tabs, s.maskSense⟩ #v[w0, w1] = .error (.raise .badCompactEncoding)) :
    loadCompact w0 w1 s = failLoad s .badCompactEncoding := by
  simp only [loadCompact, loadWord, hm, ht, hw]

theorem loadCompact_broken {w0 w1 : Word} (hm : findModel s.rom s.request.a0.toNat = some md)
    (ht : findTables md (opcodeOf w0) = some tabs)
    (hw : buildNative ⟨md, tabs, s.maskSense⟩ #v[w0, w1] = .error (.raise .internalError)) :
    loadCompact w0 w1 s = raiseInternal s := by
  simp only [loadCompact, loadWord, hm, ht, hw]

end

/-! ## The statements -/

/-- Settles O19: bit 29 of word 0 chooses the load. -/
theorem decodeLoadsTheInstructionItIsGiven : Obligations.DecodeLoadsTheInstructionItIsGiven := by
  refine fun s bytes md tabs hb hlen hm ht => ⟨fun h16 hc => ?_, fun h8 hc w hw => ?_⟩
  · exact congrArg Host.Outcome.next ((decodeInstance_native hb hlen hm h16 hc).trans (loadNative_loads _ _ _ hm ht))
  · exact congrArg Host.Outcome.next ((decodeInstance_compact hb hlen hm h8 hc).trans (loadCompact_loads hm ht hw))

/-- A `DECODE` that fails with a code answers it and leaves the engine Uninitialised (R506). -/
theorem exec_decode_failLoad {s : State} {c : ResultCode} (h : decodeInstance s = failLoad s c) :
    ∃ t, exec .decode s = .next t ∧ answered s t (.done c 0 [] []) ∧ t.eng.init = false :=
  ⟨_, congrArg Host.Outcome.next h, rfl, failLoad_uninitialised s c⟩

/-- Settles O22, check by check in the order of R504. -/
theorem decodeChecksInOrder : Obligations.DecodeChecksInOrder := by
  refine fun s => ⟨fun hb => exec_decode_failLoad (decodeInstance_noBuffer hb), fun bytes hb =>
    ⟨fun hlen => congrArg Host.Outcome.next (decodeInstance_hostBufferShort hb hlen), fun hlen =>
      ⟨fun hm => exec_decode_failLoad (decodeInstance_unknownModel hb hlen hm), fun md hm =>
        ⟨fun hshort => exec_decode_failLoad ?_, fun hlong => ⟨fun ht => exec_decode_failLoad ?_,
          fun tabs ht hc => ?_⟩⟩⟩⟩⟩
  · by_cases h8 : s.request.a1.toNat < 8
    · exact decodeInstance_sizeBelowEight hb hlen hm h8
    · obtain ⟨h16, hc⟩ := hshort.resolve_left h8
      exact decodeInstance_truncated hb hlen hm (Nat.not_lt.mp h8) h16 hc
  · cases hc : cmptCtrl (hostWord bytes 0) with
    | false =>
      have h16 : 16 ≤ s.request.a1.toNat := hlong.resolve_right fun h => Bool.false_ne_true (hc.symm.trans h.2)
      exact (decodeInstance_native hb hlen hm h16 hc).trans (loadWord_unsupported _ hm ht)
    | true =>
      exact (decodeInstance_compact hb hlen hm (by omega) hc).trans (loadWord_unsupported _ hm ht)
  · have hload := decodeInstance_compact hb hlen hm (by omega) hc
    exact ⟨fun hw => exec_decode_failLoad (hload.trans (loadCompact_undecodable hm ht hw)),
      fun hw => congrArg Host.Outcome.next (hload.trans (loadCompact_broken hm ht hw))⟩

end Sys2Proof.Proofs
end

section
/-! SUPPORT. The forms of a scratch build: their order, their bytes, and how `RETRIEVE_ALL_COMPACTED_FORMATS`
ends (R85, R361, R362, R398, R433). -/

namespace Sys2Proof.Proofs

open Sys2Proof Sys2Proof.Machine Sys2Proof.Claims Sys2Proof.Laws

/-! ## A range in blocks -/

/-- The numbers below `a * b`, as `a` blocks of `b`. -/
theorem range_mul_eq_flatMap (a b : Nat) :
    List.range (a * b) = (List.range a).flatMap fun i => (List.range b).map (i * b + ·) := by
  induction a with
  | zero => simp
  | succ a ih => rw [Nat.succ_mul, List.range_add, ih, List.range_succ, List.flatMap_append]; simp

theorem eq_range_map_getD {α : Type} (l : List α) (d : α) : l = (List.range l.length).map (l.getD · d) := by
  apply List.ext_getElem (by simp)
  intro i h1 h2
  simp [h1]

/-! ## The bytes of a buffer (R84) -/

theorem toList_eq_wordAt {n : Nat} (ws : Vector Word n) : ws.toList = (List.range n).map (wordAt ws) := by
  apply List.ext_getElem (by simp)
  intro i h1 h2
  have hi : i < n := by simpa using h1
  simp [wordAt, hi]

theorem leBytes_wordAt {n : Nat} (ws : Vector Word n) (i : Nat) :
    leBytes (wordAt ws i) = (List.range 4).map fun j => byteAt ws (i * 4 + j) := by
  have hbyte : ∀ j, j < 4 → byteAt ws (i * 4 + j) = (wordAt ws i).extractLsb' (8 * j) 8 := by
    intro j hj
    rw [byteAt, show (i * 4 + j) / 4 = i by omega, show (i * 4 + j) % 4 = j by omega]
  exact (List.map_congr_left fun j hj => hbyte j (List.mem_range.mp hj)).symm

/-- The bytes of a buffer are its bytes in turn (R84). -/
theorem bufferBytes_eq {n : Nat} (ws : Vector Word n) :
    bufferBytes ws = (List.range (4 * n)).map (byteAt ws) := by
  rw [Nat.mul_comm, range_mul_eq_flatMap, List.map_flatMap, bufferBytes, toList_eq_wordAt, List.flatMap_map]
  simp only [leBytes_wordAt, List.map_map]
  rfl

/-! ## Insertion bit by bit (R212, R213) -/

/-- A further fragment at the head of a list counts only where no later one covers the bit. -/
theorem bitAfterInsert_cons {n : Nat} {ws w1 : Vector Word n} {p : Fragment} {raw : U64} {b : Nat}
    (ps : List Fragment) (h : bitAt w1 b = bitAfterInsert ws [p] raw b) :
    bitAfterInsert ws (p :: ps) raw b = bitAfterInsert w1 ps raw b := by
  simp only [bitAfterInsert, List.reverse_cons, List.find?_append] at h ⊢
  cases ps.reverse.find? fun q => covers q b with
  | none => simpa using h.symm
  | some q => simp

theorem bitAt_insertFrag {n : Nat} {ws ws' : Vector Word n} {p : Fragment} {raw : U64}
    (h : insertFrag ws p raw = .ok ws') (b : Nat) : bitAt ws' b = bitAfterInsert ws [p] raw b := by
  by_cases hp : fragOk n p = true
  · obtain ⟨w1, h1, hbit⟩ := insertFrag_spec ws raw hp
    obtain ⟨-, hword, -⟩ := (fragOk_iff n p).1 hp
    have hlow : fragLow p = p.lowBit % 32 := by simp only [fragLow, Config.wordBits]; omega
    rw [h1, Except.ok.injEq] at h
    subst h
    rw [hbit]
    by_cases hc : p.lowBit ≤ b ∧ b ≤ p.highBit
    · rw [if_pos hc]
      simp [bitAfterInsert, covers, hc, fragDst, hlow]
    · rw [if_neg hc]
      have hcov : covers p b = false := by simpa [covers] using hc
      simp [bitAfterInsert, hcov]
  · rw [insertFrag_malformed ws raw (by simpa using hp)] at h
    cases h

/-- Each bit after an insertion is the last covering fragment's (R213). -/
theorem bitAt_insertFrags {n : Nat} {ps : List Fragment} {raw : U64} {ws ws' : Vector Word n}
    (h : insertFrags ws ps raw = .ok ws') (b : Nat) : bitAt ws' b = bitAfterInsert ws ps raw b := by
  induction ps generalizing ws with
  | nil => cases h; rfl
  | cons p ps ih =>
    cases h1 : insertFrag ws p raw with
    | error stop => simp only [insertFrags, h1] at h; cases h
    | ok w1 =>
      simp only [insertFrags, h1] at h
      rw [ih h, bitAfterInsert_cons ps (bitAt_insertFrag h1 b)]

/-! ## The order of the forms (R360, R361) -/

theorem countForms_eq (picks : List Pick) : countForms picks = (picks.map (·.candidates.length)).prod := by
  induction picks with
  | nil => rfl
  | cons p ps ih => rw [List.map_cons, List.prod_cons, ← ih]; rfl

theorem formChoice_length (picks : List Pick) (k : Nat) : (formChoice picks k).length = picks.length := by
  induction picks generalizing k with
  | nil => rfl
  | cons p ps ih => simp only [formChoice, List.length_cons, ih]

/-- Place `j` of block `i` of the odometer: the first field's candidate `i`, the others at place `j`. -/
theorem formChoice_block (p : Pick) (ps : List Pick) {i j : Nat} (hj : j < countForms ps) :
    formChoice (p :: ps) (i * countForms ps + j) = p.candidates.getD i 0 :: formChoice ps j := by
  have hpos : 0 < countForms ps := by omega
  simp only [formChoice, ← countForms_eq]
  rw [Nat.mul_comm, Nat.mul_add_div hpos, Nat.div_eq_of_lt hj, Nat.add_zero, Nat.mul_add_mod, Nat.mod_eq_of_lt hj]

/-- The combinations are the places of the odometer in turn (R361). -/
theorem combinations_eq (picks : List Pick) :
    combinations picks = (List.range (countForms picks)).map (formChoice picks) := by
  induction picks with
  | nil => rfl
  | cons p ps ih =>
    have hcount : countForms (p :: ps) = p.candidates.length * countForms ps := rfl
    have hblock : ∀ i, (List.range (countForms ps)).map (fun j => formChoice (p :: ps) (i * countForms ps + j))
        = (combinations ps).map (p.candidates.getD i 0 :: ·) := by
      intro i
      rw [ih, List.map_map]
      exact List.map_congr_left fun j hj => formChoice_block p ps (List.mem_range.mp hj)
    calc combinations (p :: ps)
        = ((List.range p.candidates.length).map (p.candidates.getD · 0)).flatMap
            fun i => (combinations ps).map (i :: ·) := by rw [← eq_range_map_getD]; rfl
      _ = (List.range p.candidates.length).flatMap fun i =>
            (List.range (countForms ps)).map fun j => formChoice (p :: ps) (i * countForms ps + j) := by
          simp only [List.flatMap_map, hblock]
      _ = (List.range (countForms (p :: ps))).map (formChoice (p :: ps)) := by
          rw [hcount, range_mul_eq_flatMap, List.map_flatMap]
          simp only [List.map_map]
          rfl

/-! ## The content of a form (R362, R398) -/

theorem choicesInserted_of_insertChoices {picks : List Pick} {choice : List Nat} {ws c : Vector Word 2}
    (hlen : choice.length = picks.length) (h : insertChoices ws picks choice = .ok c) :
    ChoicesInserted picks choice ws c := by
  induction picks generalizing choice ws with
  | nil => cases List.length_eq_zero_iff.mp hlen; cases h; rfl
  | cons p ps ih =>
    match choice, hlen with
    | i :: is, hlen =>
      cases hi : insertFrags ws p.frags (BitVec.ofNat 64 i) with
      | error stop => simp only [insertChoices, hi] at h; cases h
      | ok m =>
        simp only [insertChoices, hi] at h
        exact ⟨m, fun b _ => bitAt_insertFrags hi b, ih (Nat.succ.inj hlen) h⟩

/-- A form: the choice inserted, then the masks, then the eight bytes. -/
theorem formBytes_ok {env : Env} {t : Target 2} {choice : List Nat} {bs : List Byte}
    (h : formBytes env t choice = .ok bs) :
    ∃ c form, insertChoices t.words t.picks choice = .ok c ∧ applyCompactMasks env c = .ok form
      ∧ bs = (List.range 8).map (byteAt form) := by
  cases hc : insertChoices t.words t.picks choice with
  | error stop => simp only [formBytes, hc] at h; cases h
  | ok c =>
    cases hm : applyCompactMasks env c with
    | error stop => simp only [formBytes, hc, hm] at h; cases h
    | ok form =>
      simp only [formBytes, hc, hm, Except.ok.injEq] at h
      exact ⟨c, form, rfl, hm, h ▸ bufferBytes_eq form⟩

/-- The bytes of several forms: eight for each, in the order of the choices (R85). -/
theorem allForms_ok {env : Env} {t : Target 2} {choices : List (List Nat)} {bytes : List Byte}
    (h : allForms env t choices = .ok bytes) : bytes.length = 8 * choices.length
      ∧ ∀ k (hk : k < choices.length), formBytes env t choices[k] = .ok ((bytes.drop (8 * k)).take 8) := by
  induction choices generalizing bytes with
  | nil => cases h; exact ⟨rfl, nofun⟩
  | cons choice rest ih =>
    cases hb : formBytes env t choice with
    | error stop => simp only [allForms, hb] at h; cases h
    | ok bs =>
      cases hr : allForms env t rest with
      | error stop => simp only [allForms, hb, hr] at h; cases h
      | ok more =>
        simp only [allForms, hb, hr, Except.ok.injEq] at h
        subst h
        obtain ⟨hlen, hforms⟩ := ih hr
        have h8 : bs.length = 8 := by obtain ⟨c, form, -, -, rfl⟩ := formBytes_ok hb; simp
        refine ⟨by rw [List.length_append, h8, hlen, List.length_cons]; omega, fun k hk => ?_⟩
        cases k with
        | zero => simp [hb, ← h8]
        | succ k =>
          have hdrop : (bs ++ more).drop (8 * (k + 1)) = more.drop (8 * k) := by
            rw [show 8 * (k + 1) = bs.length + 8 * k by omega, List.drop_length_add_append]
          rw [hdrop]
          exact hforms k (Nat.lt_of_succ_lt_succ hk)

/-- The forms of a finished retrieval, in the odometer's order. -/
theorem allForms_combinations {env : Env} {t : Target 2} {bytes : List Byte}
    (h : allForms env t (combinations t.picks) = .ok bytes) : bytes.length = 8 * countForms t.picks
      ∧ ∀ k, k < countForms t.picks → ∃ c form : Vector Word 2,
        ChoicesInserted t.picks (formChoice t.picks k) t.words c ∧ applyCompactMasks env c = .ok form
        ∧ (bytes.drop (8 * k)).take 8 = (List.range 8).map (byteAt form) := by
  rw [combinations_eq] at h
  obtain ⟨hlen, hforms⟩ := allForms_ok h
  rw [List.length_map, List.length_range] at hlen
  refine ⟨hlen, fun k hk => ?_⟩
  have hform := hforms k (by simpa using hk)
  rw [List.getElem_map, List.getElem_range] at hform
  obtain ⟨c, form, hc, hmask, hbytes⟩ := formBytes_ok hform
  exact ⟨c, form, choicesInserted_of_insertChoices (formChoice_length _ _) hc, hmask, hbytes⟩

/-! ## The preparation and the ends (R362, R433, R505) -/

/-- The engine with the native words `m`, Valid and Encoded: what `PrepareNative` leaves (R433). -/
def preparedEngine (e : Engine) (m : Vector Word 4) : Engine := { e with nw := m, nv := true, ne := true }

theorem preparedEngine_self {e : Engine} (hn : e.nv = true) (he : e.ne = true) : preparedEngine e e.nw = e := by
  cases e; cases hn; cases he; rfl

/-- A preparation of an engine from the native words `w`, masked to `m`. -/
theorem prepareNative_maskedWords {s : State} {env : Env} {w m : Vector Word 4} (h : MaskedWords s env w m) :
    prepareNative env s.eng = .ok (preparedEngine s.eng m) := by
  obtain ⟨hnative, hmasked⟩ := h
  rcases hmasked with ⟨hn, he, rfl⟩ | ⟨hnot, hm⟩
  · rcases hnative with ⟨-, rfl⟩ | ⟨hn', -⟩
    · rw [prepareNative_encoded env hn he, preparedEngine_self hn he]
    · exact absurd (hn'.symm.trans hn) Bool.false_ne_true
  · rcases hnative with ⟨hn, rfl⟩ | ⟨hn, hw⟩
    · rw [prepareNative_masked hn (Bool.eq_false_of_not_eq_true fun he => hnot ⟨hn, he⟩) hm]
      simp only [preparedEngine, Engine.maskedNative, ← hn]
    · rw [prepareNative_rebuilt hn hw hm]
      rfl

theorem prepareNative_rebuildFails {s : State} {env : Env} (h : RebuildFails s env) :
    prepareNative env s.eng = fail .badCompactEncoding := by
  obtain ⟨hn, hw⟩ := h
  simp only [prepareNative, hn, regenerateNative, hw]
  rfl

section
variable {s : State} {env : Env} {e : Engine} {t : Target 2} (reply : Target 2 → Res Answer)

theorem withForms_built (hv : s.validationMode = true) (hp : prepareNative env s.eng = .ok e)
    (ht : buildCompactTarget env true e.nw = .ok t) : withForms s env reply = (e, reply t) := by
  simp only [withForms, hv, hp, ht, if_true]

theorem withForms_unbuilt {stop : Stop} (hv : s.validationMode = true) (hp : prepareNative env s.eng = .ok e)
    (ht : buildCompactTarget env true e.nw = .error stop) : withForms s env reply = (e, .error stop) := by
  simp only [withForms, hv, hp, ht, if_true]

theorem withForms_unprepared {stop : Stop} (hv : s.validationMode = true)
    (hp : prepareNative env s.eng = .error stop) : withForms s env reply = (s.eng, .error stop) := by
  simp only [withForms, hv, hp, if_true]

end

theorem formsAnswer_tooShort (env : Env) {outCap : Nat} {t : Target 2} (h : outCap < 8 * countForms t.picks) :
    formsAnswer env outCap t = fail .bufferTooShort :=
  if_pos h

theorem formsAnswer_delivers {env : Env} {outCap : Nat} {t : Target 2} {bytes : List Byte}
    (h : 8 * countForms t.picks ≤ outCap) (hb : allForms env t (combinations t.picks) = .ok bytes)
    (hcount : countForms t.picks < 2 ^ 64) :
    formsAnswer env outCap t = .ok { value := BitVec.ofNat 64 (countForms t.picks), bytes := bytes } := by
  rw [formsAnswer, if_neg (Nat.not_lt.mpr h), hb, countValue, if_pos hcount]

/-- How a retrieval of a set-up engine ends. -/
theorem exec_retrieve {s : State} {env : Env} (h : Ready s env) {e : Engine} {out : Res Answer}
    (hf : withForms s env (formsAnswer env s.request.outCap) = (e, out)) :
    exec .retrieveAllCompactedFormats s = .next (finish s e out) := by
  obtain ⟨hi, he⟩ := h
  refine congrArg Host.Outcome.next ((command_ready hi he _).trans ?_)
  rw [hf]

/-- A command that fails with a code and keeps the engine `e`. -/
theorem finish_coded (s : State) (e : Engine) {c : ResultCode} (h : c ≠ .internalError) :
    finish s e (.error (.raise c)) = coded s e c :=
  finish_raise s e h

/-- Settles O55: the combinations run through the odometer, and each form is inserted, masked and copied out. -/
theorem retrieveDeliversEightBytesPerForm : Obligations.RetrieveDeliversEightBytesPerForm := by
  refine fun s env hready hv => ⟨fun w m hm => ?_, fun hfails => ?_⟩
  · have hp := prepareNative_maskedWords hm
    refine ⟨fun t bytes ht hbytes hcount => ?_, fun c hc hne => ?_⟩
    · rw [← countForms_eq] at hcount ⊢
      obtain ⟨hlen, hforms⟩ := allForms_combinations hbytes
      have hexec := exec_retrieve hready (withForms_built (formsAnswer env s.request.outCap) hv hp ht)
      refine ⟨hlen, hforms, fun hcap => ?_, fun hcap => ?_⟩
      · rw [hexec, formsAnswer_delivers (hlen ▸ hcap) hbytes hcount]
        rfl
      · rw [hexec, formsAnswer_tooShort env (hlen ▸ hcap)]
        rfl
    · rw [exec_retrieve hready (withForms_unbuilt _ hv hp hc), finish_coded _ _ hne]
      rfl
  · rw [exec_retrieve hready (withForms_unprepared _ hv (prepareNative_rebuildFails hfails))]
    rfl

end Sys2Proof.Proofs
end

section
/-! SUPPORT. Command words and instruction words: each part of an encoding is read back (R120 to R123, R171,
R172), the request made for an instruction asks for it (R170), and the loads (R432). -/

namespace Sys2Proof.Proofs

open Sys2Proof Sys2Proof.Machine Sys2Proof.Claims Sys2Proof.Laws

/-! ## The parts of a command word (R171) -/

@[simp] theorem commandWord_code (code : BitVec 8) (id : BitVec 16) :
    (commandWord code id).extractLsb' 0 8 = code := by
  simp only [commandWord, BitVec.extractLsb'_append_eq_right]

@[simp] theorem commandWord_id (code : BitVec 8) (id : BitVec 16) :
    (commandWord code id).extractLsb' 16 16 = id := by
  simp only [commandWord, BitVec.append_assoc]
  exact BitVec.extractLsb'_append_eq_left

/-! ## The decoder of command words (R171, R172) -/

theorem decodeCommand_reservedBits {w : Word} (h : w.extractLsb' 8 8 ≠ 0) :
    decodeCommand w = .error .reservedBits :=
  if_pos h

/-- The decoder of commands accepts exactly the words that R171 admits. -/
theorem decodeCommand_ok_iff (w : Word) : (∃ i, decodeCommand w = .ok i) ↔
    w.extractLsb' 8 8 = 0 ∧ (w.extractLsb' 0 8).toNat ∈ assignedCodes := by
  by_cases hr : w.extractLsb' 8 8 = 0
  · simp only [decodeCommand, hr, ne_eq, not_true_eq_false, if_false, true_and]
    split <;> simp_all [assignedCodes]
  · rw [decodeCommand_reservedBits hr]
    exact ⟨nofun, fun h => absurd h.1 hr⟩

/-- A command is encoded in one word, which decodes to it. -/
theorem decodeCommand_encode {i : Instr} (h : i.port = .command) :
    ∃ w, encode i = [w] ∧ decodeCommand w = .ok i := by
  cases i with
  | nativeInstruction w0 w1 w2 w3 => cases h
  | compactInstruction w0 w1 => cases h
  | _ =>
    refine ⟨_, rfl, ?_⟩
    simp only [decodeCommand, commandWord_reserved, commandWord_code, commandWord_id]
    rfl

/-- A word that decodes to a command is its encoding, but for an id that the command does not take: the code and
the id stand where R171 puts them. -/
theorem encode_of_decodeCommand {w : Word} {i : Instr} (h : decodeCommand w = .ok i) :
    encode i = [commandWord (w.extractLsb' 0 8)
      (if (w.extractLsb' 0 8).toNat ∈ idlessCodes then 0 else w.extractLsb' 16 16)] := by
  simp only [decodeCommand] at h
  generalize w.extractLsb' 0 8 = code at h ⊢
  have hcode : code = BitVec.ofNat 8 code.toNat := by simp
  generalize code.toNat = n at h hcode ⊢
  subst hcode
  split at h
  · cases h
  · -- each code with a command leaves an equation between closed code words
    split at h <;> cases h <;> rfl

/-- A command without an id decodes the same under every id (R171). -/
theorem decodeCommand_ignores_id {code : BitVec 8} (h : code.toNat ∈ idlessCodes) (id : BitVec 16) :
    decodeCommand (commandWord code id) = decodeCommand (commandWord code 0) := by
  simp only [decodeCommand, commandWord_reserved, commandWord_code, commandWord_id]
  generalize code.toNat = n at *
  simp only [idlessCodes, List.mem_cons, List.not_mem_nil, or_false] at h
  rcases h with rfl | rfl | rfl | rfl | rfl | rfl | rfl | rfl | rfl <;> rfl

/-! ## The decoder of instruction words (R120 to R123) -/

theorem decodeInstruction_encode {i : Instr} (hp : i.port = .instruction) (hwf : i.wf = true) :
    decodeInstruction (encode i) = .ok i := by
  cases i with
  | nativeInstruction w0 w1 w2 w3 =>
    have hc : cmptCtrl w0 = false := by simpa [Instr.wf] using hwf
    simp [encode, decodeInstruction, hc]
  | compactInstruction w0 w1 =>
    have hc : cmptCtrl w0 = true := hwf
    simp [encode, decodeInstruction, hc]
  | _ => cases hp

/-- The instructions of the second port are those `DECODE` loads (R432). -/
theorem exec_of_instruction_port {i : Instr} (hp : i.port = .instruction) (s : State) :
    exec i s = .next (loadDecoded s (.ok i)) := by
  cases i with
  | nativeInstruction w0 w1 w2 w3 => rfl
  | compactInstruction w0 w1 => rfl
  | _ => cases hp

theorem length_encode_le (i : Instr) : (encode i).length ≤ 4 := by
  cases i <;> simp [encode]

theorem loadDecoded_unknownModel {s : State} {i : Instr} (hp : i.port = .instruction)
    (hm : findModel s.rom s.request.a0.toNat = none) : loadDecoded s (.ok i) = failLoad s .invalidModel := by
  cases i with
  | nativeInstruction w0 w1 w2 w3 => simp only [loadDecoded, loadNative, loadWord, hm]
  | compactInstruction w0 w1 => simp only [loadDecoded, loadCompact, loadWord, hm]
  | _ => cases hp

/-- An instruction word is at least two words long (R123). -/
theorem decodeInstruction_ok {ws : List Word} {i : Instr} (h : decodeInstruction ws = .ok i) :
    i.port = .instruction ∧ 2 ≤ ws.length := by
  match ws with
  | [] | [_] => cases h
  | w0 :: w1 :: rest =>
    refine ⟨?_, by simp⟩
    simp only [decodeInstruction] at h
    split at h
    · cases h; rfl
    · split at h <;> cases h
      rfl

/-! ## The bytes of a word (R80) -/

theorem le32_leBytes (w : Word) :
    le32 (w.extractLsb' 0 8) (w.extractLsb' 8 8) (w.extractLsb' 16 8) (w.extractLsb' 24 8) = w := by
  simp only [le32]
  rw [BitVec.extractLsb'_append_extractLsb'_eq_extractLsb' (by omega),
    BitVec.extractLsb'_append_extractLsb'_eq_extractLsb' (by omega),
    BitVec.extractLsb'_append_extractLsb'_eq_extractLsb' (by omega)]
  exact BitVec.extractLsb'_eq_self

theorem leWords_flatMap_leBytes (ws : List Word) : leWords (ws.flatMap leBytes) = ws := by
  induction ws with
  | nil => rfl
  | cons w ws ih =>
    simp only [List.flatMap_cons, leBytes, List.cons_append, List.nil_append, leWords, le32_leBytes]
    exact congrArg (w :: ·) ih

theorem length_flatMap_leBytes (ws : List Word) : (ws.flatMap leBytes).length = 4 * ws.length := by
  induction ws with
  | nil => rfl
  | cons w ws ih =>
    simp only [List.flatMap_cons, List.length_append, ih, leBytes, List.length_cons, List.length_nil]
    omega

/-! ## The request for an instruction (R170, R432) -/

theorem decodeRequest_of_ne_decode {r : Request} {i : Instr} (h : decodeCommand r.cmd = .ok i) (hi : i ≠ .decode) :
    decodeRequest r = .ok i := by
  simp only [decodeRequest, h]
  split
  · next hd => cases hd; exact absurd rfl hi
  · rfl

theorem decodeRequest_of_carried {r : Request} {i : Instr} (h : decodeCommand r.cmd = .ok .decode)
    (hc : carriedInstruction r = some i) : decodeRequest r = .ok i := by
  simp only [decodeRequest, h, hc]

theorem decodeRequest_of_not_carried {r : Request} (h : decodeCommand r.cmd = .ok .decode)
    (hc : carriedInstruction r = none) : decodeRequest r = .ok .decode := by
  simp only [decodeRequest, h, hc]

theorem decodeRequest_of_error {r : Request} {e : DecodeError} (h : decodeCommand r.cmd = .error e) :
    decodeRequest r = .error e := by
  simp only [decodeRequest, h]

theorem carriedInstruction_noBuffer {r : Request} (h : r.inBuf = none) : carriedInstruction r = none := by
  simp only [carriedInstruction, h]

/-- What a carried instruction is: the whole word in the first `size` bytes of the buffer (R83, R123). -/
theorem carriedInstruction_eq_some_iff {r : Request} {i : Instr} : carriedInstruction r = some i ↔
    ∃ bytes, r.inBuf = some bytes ∧ r.a1.toNat ≤ bytes.length
      ∧ decodeInstruction (leWords (bytes.take r.a1.toNat)) = .ok i := by
  cases hb : r.inBuf with
  | none => simp [carriedInstruction, hb]
  | some bytes =>
    by_cases hlen : bytes.length < r.a1.toNat
    · simp [carriedInstruction, hb, hlen]
    · cases hd : decodeInstruction (leWords (bytes.take r.a1.toNat)) <;>
        simp [carriedInstruction, hb, hlen, hd, Except.toOption, Nat.not_lt.mp hlen]

/-- The buffer of the request made for an instruction word holds that word. -/
theorem carriedInstruction_requestFor (r : Request) {i : Instr} (hp : i.port = .instruction) (hwf : i.wf = true) :
    carriedInstruction (requestFor r i) = some i := by
  have hlen : ((encode i).flatMap leBytes).length < 2 ^ 64 := by
    have := length_encode_le i
    rw [length_flatMap_leBytes]
    omega
  have hsize : (requestFor r i).a1.toNat = ((encode i).flatMap leBytes).length := by
    simp only [requestFor, hp, BitVec.toNat_ofNat, Nat.mod_eq_of_lt hlen]
  refine carriedInstruction_eq_some_iff.mpr ⟨(encode i).flatMap leBytes, ?_, hsize.le, ?_⟩
  · simp only [requestFor, hp]
  · rw [hsize, List.take_length, leWords_flatMap_leBytes, decodeInstruction_encode hp hwf]

/-! ## The statements -/

/-- Settles O6: each port's decoder reads its encodings back. -/
theorem decodeOfEncodeIsTheInstruction : Obligations.DecodeOfEncodeIsTheInstruction := by
  intro i hwf
  cases hp : i.port with
  | command =>
    obtain ⟨w, hw, hdec⟩ := decodeCommand_encode hp
    rw [hw]
    exact hdec
  | instruction => exact decodeInstruction_encode hp hwf

/-- Settles O4: a word outside R171 fails to decode, which refuses the step; any other is read part by part. -/
theorem commandWordsAreCheckedAndReadAsR171Says : Obligations.CommandWordsAreCheckedAndReadAsR171Says := by
  refine ⟨fun s r hr hbad => ?_, fun w hres hcode => (decodeCommand_ok_iff w).mpr ⟨hres, hcode⟩,
    fun w i hi hid => ?_, fun id code h => decodeCommand_ignores_id h id⟩
  · cases hd : decodeCommand r.cmd with
    | ok i =>
      obtain ⟨hres, hcode⟩ := (decodeCommand_ok_iff r.cmd).mp ⟨i, hd⟩
      exact absurd hcode (hbad.resolve_left (absurd hres))
    | error e =>
      refine ⟨.rejected e, ?_⟩
      simp only [step, fetch_of_pending hr, decodeRequest_of_error hd]
      rfl
  · rw [encode_of_decodeCommand hi, if_neg hid]

/-- Settles O7: a command word asks for its command, and a `DECODE` whose buffer holds an instruction word asks
for that word. -/
theorem requestForAnInstructionAsksForIt : Obligations.RequestForAnInstructionAsksForIt := by
  intro r i hwf hbuf
  cases hp : i.port with
  | command =>
    obtain ⟨w, hw, hdec⟩ := decodeCommand_encode hp
    have hreq : requestFor r i = { r with cmd := w } := by simp only [requestFor, hp, hw, List.headD_cons]
    rw [hreq]
    by_cases hi : i = .decode
    · subst hi
      exact decodeRequest_of_not_carried hdec (carriedInstruction_noBuffer (hbuf rfl))
    · exact decodeRequest_of_ne_decode hdec hi
  | instruction =>
    have hcmd : decodeCommand (requestFor r i).cmd = .ok .decode := by
      simp only [requestFor, hp]
      rfl
    exact decodeRequest_of_carried hcmd (carriedInstruction_requestFor r hp hwf)

/-- Settles O20: the loads `DECODE` ends in (O19), reached without its checks of the host buffer. -/
theorem instructionWordsLoad : Obligations.InstructionWordsLoad :=
  fun _ _ _ _ _ _ _ hm ht => ⟨fun _ => congrArg Host.Outcome.next (loadNative_loads _ _ _ hm ht),
    fun _ _ hw => congrArg Host.Outcome.next (loadCompact_loads hm ht hw)⟩

/-- Settles O21: a whole word is at least eight bytes, so the checks left to `DECODE` are the load's own. -/
theorem decodeIsTheLoadOfTheCarriedWord : Obligations.DecodeIsTheLoadOfTheCarriedWord := by
  intro s i hc
  obtain ⟨bytes, hb, hlen, hdec⟩ := carriedInstruction_eq_some_iff.mp hc
  obtain ⟨hp, hwords⟩ := decodeInstruction_ok hdec
  have h8 : 8 ≤ s.request.a1.toNat := by
    rw [length_leWords, List.length_take_of_le hlen] at hwords
    omega
  rw [exec_of_instruction_port hp]
  refine congrArg Host.Outcome.next ?_
  cases hm : findModel s.rom s.request.a0.toNat with
  | none => rw [decodeInstance_unknownModel hb hlen hm, loadDecoded_unknownModel hp hm]
  | some md => rw [decodeInstance_loadDecoded hb hlen hm h8, hdec]

/-- Settles O5: each word is the encoding of its instruction, written out. -/
theorem writtenOutWordsDecode : Obligations.WrittenOutWordsDecode :=
  have hread := decodeOfEncodeIsTheInstruction
  ⟨hread .init rfl, hread (.getUnsignedField 2) rfl, hread (.setSignedField 4) rfl,
    hread .retrieveAllCompactedFormats rfl, hread (.printFieldBitLocation 5) rfl, hread (.interpretPosition 1) rfl,
    decodeCommand_reservedBits (w := 0x00000111) (by decide), hread (.nativeInstruction 0x002A0001 0 0 0) rfl,
    hread (.compactInstruction 0x20020101 0xFFFE) rfl⟩

end Sys2Proof.Proofs
end

section
/-! SUPPORT. The two ways to say a fragment's contribution (R130, R208), and the walks of a well-formed ROM (R156,
R202 to R206). -/

namespace Sys2Proof.Proofs

open Sys2Proof Sys2Proof.Machine Sys2Proof.Claims Sys2Proof.Laws

/-! ## A fragment's contribution (R208) -/

/-- Masking in place and shifting down by `k` is shifting down to bit 0, cutting, and shifting up to `dst`. -/
theorem mask_ushiftRight_eq (x : U64) (width dst k : Nat) :
    (x &&& (maxValue width <<< (dst + k))) >>> k = ((x >>> (dst + k)) &&& maxValue width) <<< dst := by
  apply BitVec.eq_of_getLsbD_eq
  intro i hi
  simp only [BitVec.getLsbD_ushiftRight, BitVec.getLsbD_and, BitVec.getLsbD_shiftLeft, getLsbD_maxValue, hi,
    decide_true, Bool.true_and]
  by_cases hdst : i < dst
  · simp [hdst, show k + i < dst + k by omega]
  · have hbit : dst + k + (i - dst) = k + i := by omega
    have hcut : k + i - (dst + k) = i - dst := by omega
    by_cases h64 : k + i < 64
    · simp [hdst, hbit, hcut, h64, show ¬k + i < dst + k by omega]
    · simp [hbit, BitVec.getLsbD_of_ge x (k + i) (by omega)]

/-- Masking in place and shifting up by `k` is shifting down to bit 0, cutting, and shifting up to `low + k`. -/
theorem mask_shiftLeft_eq (x : U64) (width low k : Nat) :
    (x &&& (maxValue width <<< low)) <<< k = ((x >>> low) &&& maxValue width) <<< (low + k) := by
  have := mask_ushiftRight_eq x width low 0
  simp only [Nat.add_zero, BitVec.ushiftRight_zero] at this
  rw [this, ← BitVec.shiftLeft_add]

/-- Settles O30: the sign of the shift chooses between the two identities. -/
theorem fragmentContributionsAgree : Obligations.FragmentContributionsAgree := by
  intro n ws p hp
  obtain ⟨-, hword, -, -, hdst, -⟩ := (fragOk_iff n p).mp hp
  have hlow : fragLow p = p.lowBit % 32 := by simp only [fragLow, Config.wordBits]; omega
  have hpiece : piece ws p = (((wordAt ws p.wordIndex).setWidth 64 >>> fragLow p) &&& maxValue (fragWidth p))
      <<< (fragDst p).toNat := by
    rw [fragDst, hlow, ← hword]
    rfl
  rw [hpiece]
  simp only [fragValue, fragMask]
  simp only [fragDst] at hdst ⊢
  split
  · have hsum : fragLow p = ((fragLow p : Int) - p.shift).toNat + p.shift.toNat := by omega
    generalize ((fragLow p : Int) - p.shift).toNat = dst at *
    rw [hsum, mask_ushiftRight_eq]
  · have hsum : ((fragLow p : Int) - p.shift).toNat = fragLow p + (-p.shift).toNat := by omega
    rw [hsum, mask_shiftLeft_eq]

/-! ## What a well-formed ROM gives a decoding table (R156) -/

theorem decodingTableOk_spec {n fields : Nat} {table : List FieldEntry} (h : decodingTableOk n fields table = true) :
    table.length = fields ∧ (∀ e ∈ table, ∀ t ∈ entryTerminals e, PlaceOk n t)
      ∧ ∀ f, f < fields → settled table fields f = true := by
  simp only [decodingTableOk, decodingOk, acyclic, Bool.and_eq_true, beq_iff_eq, List.all_eq_true,
    List.mem_range] at h
  obtain ⟨⟨⟨hlen, hterm⟩, hsettled⟩, -⟩ := h
  refine ⟨hlen, fun e he t ht => ?_, hsettled⟩
  have hok := hterm e he t ht
  simp only [terminalOk, Bool.and_eq_true] at hok
  obtain ⟨-, hplace⟩ := hok
  cases hp : t.place with
  | fixed v => simp [PlaceOk, hp]
  | fragments ps =>
    simp only [hp, List.all_eq_true, Bool.and_eq_true] at hplace
    simp only [PlaceOk, hp]
    exact fun p hps => (hplace p hps).1

/-- A chain that ends has a round to spare for its dependees. -/
theorem dependees_settled {n fields : Nat} {table : List FieldEntry} (h : decodingTableOk n fields table = true)
    {f d : FieldId} (hd : d ∈ dependees table f) : ∃ k, k ≤ fields ∧ settled table k d = true := by
  obtain ⟨hlen, -, hsettled⟩ := decodingTableOk_spec h
  cases he : table[f]? with
  | none => simp [dependees, he] at hd
  | some e =>
    obtain ⟨hlt, -⟩ := List.getElem?_eq_some_iff.mp he
    have hf := hsettled f (hlen ▸ hlt)
    cases fields with
    | zero => cases hf
    | succ k =>
      simp only [settled, List.all_eq_true] at hf
      exact ⟨k, Nat.le_succ k, hf d hd⟩

/-- The tables of an opcode that a well-formed ROM has. -/
theorem romOk_tables {rom : Rom} {m : Nat} {md : ModelData} {op : BitVec 7} {tabs : OpcodeTables}
    (h : romOk rom = true) (hm : findModel rom m = some md) (ht : findTables md op = some tabs) :
    tablesOk md.numberOfFields tabs = true := by
  obtain ⟨id, hmem, -⟩ := findModel_mem hm
  simp only [romOk, List.all_eq_true] at h
  have hmodel := h _ hmem
  simp only [modelOk, Bool.and_eq_true, List.all_eq_true] at hmodel
  exact hmodel.1 _ (findTables_mem ht)

theorem tablesOk_native {fields : Nat} {tabs : OpcodeTables} (h : tablesOk fields tabs = true) :
    decodingTableOk 4 fields tabs.nativeDecoding = true := by
  simp only [tablesOk, Bool.and_eq_true] at h
  obtain ⟨⟨⟨hnative, -⟩, -⟩, -⟩ := h
  exact hnative

theorem tablesOk_compact {fields : Nat} {tabs : OpcodeTables} (h : tablesOk fields tabs = true)
    {table : List FieldEntry} (ht : tabs.compactDecoding = some table) : decodingTableOk 2 fields table = true := by
  simp only [tablesOk, Bool.and_eq_true] at h
  obtain ⟨⟨⟨-, hcompact⟩, -⟩, -⟩ := h
  cases hmaps : tabs.compaction with
  | none => simp [compactPartOk, ht, hmaps] at hcompact
  | some maps =>
    simp only [compactPartOk, ht, hmaps, Bool.and_eq_true] at hcompact
    obtain ⟨⟨⟨hdecoding, -⟩, -⟩, -⟩ := hcompact
    exact hdecoding

/-! ## The walk of a chain whose dependees can be read (R202 to R205) -/

mutual
/-- A walk whose dependees are all read without an error ends in one of the chain's terminal entries, finds none,
or is deferred. -/
theorem walk_ends {read : FieldId → Res (Look U64)} :
    ∀ e : FieldEntry, (∀ l ∈ entryLinks e, ∃ look, read l.1 = .ok look) →
      ∃ look, walk read e = .ok look ∧ ∀ t, look = .found t → t ∈ entryTerminals e
  | .notSupported, _ => ⟨_, rfl, nofun⟩
  | .consecutive _ _ _, _ | .fragmented _ _ _, _ | .fixedValue _ _ _, _ =>
    ⟨_, rfl, fun t ht => by cases ht; simp [entryTerminals]⟩
  | .nextTable d child, h => by
    obtain ⟨hd, hchild⟩ := List.forall_mem_cons.mp h
    obtain ⟨look, hd⟩ := hd
    simp only [walk, hd]
    cases look with
    | found k => exact walkChild_ends child k.toNat hchild
    | absent => exact ⟨_, rfl, nofun⟩
    | deferred => exact ⟨_, rfl, nofun⟩
/-- The same for a child table. -/
theorem walkChild_ends {read : FieldId → Res (Look U64)} :
    ∀ (table : FieldTable) (k : Nat), (∀ l ∈ tableLinks table, ∃ look, read l.1 = .ok look) →
      ∃ look, walkChild read table k = .ok look ∧ ∀ t, look = .found t → t ∈ tableTerminals table
  | .nil, _, _ => ⟨_, rfl, nofun⟩
  | .cons e rest, k, h => by
    obtain ⟨he, hrest⟩ := List.forall_mem_append.mp h
    cases k with
    | zero =>
      obtain ⟨look, hw, ht⟩ := walk_ends e he
      exact ⟨look, hw, fun t hf => List.mem_append_left _ (ht t hf)⟩
    | succ k =>
      obtain ⟨look, hw, ht⟩ := walkChild_ends rest k hrest
      exact ⟨look, hw, fun t hf => List.mem_append_right _ (ht t hf)⟩
end

/-! ## The budget suffices (R206) -/

section
variable {n : Nat} {c : Ctx n} {table : List FieldEntry}

/-- The walk of a field whose dependees are read without an error, in a well-formed table. -/
theorem resolveWith_ends {read : FieldId → Res (Look U64)} {f : FieldId} (htab : c.table = some table)
    (hok : decodingTableOk n c.fields table = true) (hread : ∀ d ∈ dependees table f, ∃ look, read d = .ok look) :
    ∃ look, resolveWith c read f = .ok look ∧ ∀ t, look = .found t → PlaceOk n t := by
  obtain ⟨hlen, hplace, -⟩ := decodingTableOk_spec hok
  cases he : table[f]? with
  | none =>
    have hge : ¬f < c.fields := by rw [← hlen]; exact Nat.not_lt.mpr (List.getElem?_eq_none_iff.mp he)
    exact ⟨.absent, by simp only [resolveWith, topEntry, htab, he, hge, if_false], nofun⟩
  | some e =>
    simp only [dependees, he, List.forall_mem_map] at hread
    obtain ⟨look, hw, ht⟩ := walk_ends e hread
    refine ⟨look, by simp only [resolveWith, topEntry, htab, he, hw], fun t hf => ?_⟩
    exact hplace e (List.mem_of_getElem? he) t (ht t hf)

/-- Where no build is in progress, an entry with well-formed fragments has a raw value. -/
theorem rawOf_ends {t : Terminal} (hu : c.unwritten = none) (ht : PlaceOk n t) : ∃ look, rawOf c t = .ok look := by
  cases hp : t.place with
  | fixed v => exact ⟨_, by simp only [rawOf, hp]; rfl⟩
  | fragments ps =>
    simp only [PlaceOk, hp] at ht
    exact ⟨_, by simp only [rawOf, hp]; exact extractFrags_settled c hu ps 0 ht⟩

/-- A field whose chain is known to end within `k` rounds is read with any budget of `k` or more: each round spends
one. -/
theorem dependee_ends (htab : c.table = some table) (hok : decodingTableOk n c.fields table = true)
    (hu : c.unwritten = none) {k : Nat} : ∀ {depth : Nat} {f : FieldId}, settled table k f = true → k ≤ depth →
      ∃ look, dependee c depth f = .ok look := by
  induction k with
  | zero => exact nofun
  | succ k ih =>
    intro depth f hf hk
    obtain ⟨depth, rfl⟩ : ∃ m, depth = m + 1 := ⟨depth - 1, by omega⟩
    simp only [settled, List.all_eq_true] at hf
    obtain ⟨look, hres, hplace⟩ := resolveWith_ends htab hok fun d hd => ih (hf d hd) (Nat.le_of_succ_le_succ hk)
    simp only [dependee, rawWith, hres]
    cases look with
    | found t => exact rawOf_ends hu (hplace t rfl)
    | absent => exact ⟨_, rfl⟩
    | deferred => exact ⟨_, rfl⟩

/-- Every walk in a well-formed table, started with the budget of R206, answers. -/
theorem resolve_ends (htab : c.table = some table) (hok : decodingTableOk n c.fields table = true)
    (hu : c.unwritten = none) (f : FieldId) : ∃ look, resolve c c.fields f = .ok look := by
  have hread : ∀ d ∈ dependees table f, ∃ look, dependee c c.fields d = .ok look := fun d hd =>
    have ⟨_, hk, hsettled⟩ := dependees_settled hok hd
    dependee_ends htab hok hu hsettled hk
  obtain ⟨look, hres, -⟩ := resolveWith_ends htab hok hread
  exact ⟨look, hres⟩

end

/-- A format without a decoding table has no field (R204). -/
theorem resolve_noTable {n : Nat} {c : Ctx n} (htab : c.table = none) (depth : Nat) (f : FieldId) :
    resolve c depth f = .ok .absent := by
  simp only [resolve, resolveWith, topEntry, htab]

/-- Settles O36: a well-formed ROM settles every field within `numberOfFields` rounds. -/
theorem wellFormedRomsNeverSpendTheBudget : Obligations.WellFormedRomsNeverSpendTheBudget := by
  intro rom m md op tabs sense nw cw f hrom hm ht
  have hok := romOk_tables hrom hm ht
  refine ⟨resolve_ends (c := nativeCtx ⟨md, tabs, sense⟩ nw) rfl (tablesOk_native hok) rfl f, ?_⟩
  cases hc : tabs.compactDecoding with
  | none => exact ⟨_, resolve_noTable hc _ f⟩
  | some table => exact resolve_ends (c := compactCtx ⟨md, tabs, sense⟩ cw) hc (tablesOk_compact hok hc) rfl f

end Sys2Proof.Proofs
end

section
/-! SUPPORT. Extraction and insertion outside a build: what a settled context reads, and what an extraction finds
after an insertion (R203 to R214, R241). -/

namespace Sys2Proof.Proofs

open Sys2Proof Sys2Proof.Machine Sys2Proof.Claims Sys2Proof.Laws

/-! ## What defers a read (R205, R208) -/

/-- The only way a fragment is deferred. -/
theorem frag_deferred {n : Nat} {c : Ctx n} {p : Fragment} (h : frag c p = .ok .deferred) :
    p.lowBit ≤ p.highBit ∧ rangeUnwritten c p.lowBit p.highBit = true := by
  cases hp : fragOk n p with
  | false => simp [frag, hp, broken, fail] at h
  | true =>
    obtain ⟨hle, -⟩ := (fragOk_iff n p).mp hp
    cases hu : rangeUnwritten c p.lowBit p.highBit with
    | false => simp [frag, hp, hu] at h
    | true => exact ⟨hle, rfl⟩

/-- A range with an unwritten bit lies in a build. -/
theorem exists_unwritten_of_rangeUnwritten {n : Nat} {c : Ctx n} {lo hi : Nat} (hle : lo ≤ hi)
    (h : rangeUnwritten c lo hi = true) :
    ∃ u b, c.unwritten = some u ∧ (lo ≤ b ∧ b ≤ hi) ∧ u.getLsbD b = true := by
  cases hu : c.unwritten with
  | none => simp [rangeUnwritten, hu] at h
  | some u =>
    simp only [rangeUnwritten, hu, bne_iff_ne, ne_eq] at h
    by_contra hnone
    refine h (BitVec.eq_of_getLsbD_eq fun b _ => ?_)
    refine Eq.trans ?_ BitVec.getLsbD_zero.symm
    rw [BitVec.getLsbD_and, getLsbD_bitRange _ _ _ _ hle, Bool.eq_false_iff]
    intro hb
    simp only [Bool.and_eq_true, decide_eq_true_eq] at hb
    obtain ⟨hset, ⟨-, hlo⟩, hhi⟩ := hb
    exact hnone ⟨u, b, rfl, ⟨hlo, hhi⟩, hset⟩

mutual
/-- A walk is deferred only where a read of a dependee is (R202, R205). -/
theorem walk_not_deferred {read : FieldId → Res (Look U64)} (hr : ∀ d, read d ≠ .ok .deferred) :
    ∀ e : FieldEntry, walk read e ≠ .ok .deferred
  | .notSupported | .consecutive _ _ _ | .fragmented _ _ _ | .fixedValue _ _ _ => by simp [walk]
  | .nextTable d child => by
    simp only [walk]
    cases hd : read d with
    | error e => simp
    | ok look =>
      cases look with
      | found k => exact walkChild_not_deferred hr child k.toNat
      | absent => simp
      | deferred => exact absurd hd (hr d)
/-- The same for a child table. -/
theorem walkChild_not_deferred {read : FieldId → Res (Look U64)} (hr : ∀ d, read d ≠ .ok .deferred) :
    ∀ (table : FieldTable) (k : Nat), walkChild read table k ≠ .ok .deferred
  | .nil, _ => by simp [walkChild]
  | .cons e _, 0 => walk_not_deferred hr e
  | .cons _ rest, k + 1 => walkChild_not_deferred hr rest k
end

section
variable {n : Nat} {c : Ctx n}

theorem frag_not_deferred (hu : c.unwritten = none) (p : Fragment) : frag c p ≠ .ok .deferred := by
  intro h
  obtain ⟨hle, hrange⟩ := frag_deferred h
  obtain ⟨u, b, hsome, -, -⟩ := exists_unwritten_of_rangeUnwritten hle hrange
  cases hu.symm.trans hsome

theorem extractFrags_not_deferred (hu : c.unwritten = none) (ps : List Fragment) (acc : U64) :
    extractFrags c ps acc ≠ .ok .deferred := by
  induction ps generalizing acc with
  | nil => simp [extractFrags]
  | cons p ps ih =>
    simp only [extractFrags]
    cases hf : frag c p with
    | error e => simp
    | ok look =>
      cases look with
      | found x => exact ih _
      | absent => simp
      | deferred => exact absurd hf (frag_not_deferred hu p)

theorem rawOf_not_deferred (hu : c.unwritten = none) (t : Terminal) : rawOf c t ≠ .ok .deferred := by
  cases hp : t.place with
  | fixed v => simp [rawOf, hp]
  | fragments ps => simp only [rawOf, hp]; exact extractFrags_not_deferred hu ps 0

theorem resolveWith_not_deferred {read : FieldId → Res (Look U64)} (hr : ∀ d, read d ≠ .ok .deferred)
    (f : FieldId) : resolveWith c read f ≠ .ok .deferred := by
  rcases resolveWith_cases c read f with ⟨_, e, -, -, h⟩ | h | ⟨-, h⟩ <;> rw [h]
  · exact walk_not_deferred hr e
  · simp
  · simp

theorem rawWith_not_deferred {read : FieldId → Res (Look U64)} (hu : c.unwritten = none)
    (hr : ∀ d, read d ≠ .ok .deferred) (f : FieldId) : rawWith c read f ≠ .ok .deferred := by
  simp only [rawWith]
  cases h : resolveWith c read f with
  | error e => simp
  | ok look =>
    cases look with
    | found t => exact rawOf_not_deferred hu t
    | absent => simp
    | deferred => exact absurd h (resolveWith_not_deferred hr f)

/-- Each nested read spends one of the budget (R206), so the budget carries the induction. -/
theorem dependee_not_deferred (hu : c.unwritten = none) (depth : Nat) (d : FieldId) :
    dependee c depth d ≠ .ok .deferred := by
  induction depth generalizing d with
  | zero => simp [dependee, broken, fail]
  | succ depth ih => exact rawWith_not_deferred hu ih d

/-- All that a walk outside a build can do (R205). -/
theorem resolve_settled_cases (hu : c.unwritten = none) (depth : Nat) (f : FieldId) :
    (∃ t, resolve c depth f = .ok (.found t)) ∨ resolve c depth f = .ok .absent
      ∨ resolve c depth f = .error (.raise .internalError) := by
  cases h : resolve c depth f with
  | error stop => exact .inr (.inr (by rw [resolve_error c depth f stop h]))
  | ok look =>
    cases look with
    | found t => exact .inl ⟨t, rfl⟩
    | absent => exact .inr (.inl rfl)
    | deferred => exact absurd h (resolveWith_not_deferred (dependee_not_deferred hu depth) f)

end

/-- Settles O35: only an unwritten bit defers, and a context without a build has none. -/
theorem nothingIsDeferredOutsideABuild : Obligations.NothingIsDeferredOutsideABuild := by
  refine ⟨fun n c p h => ?_, fun n c depth f hu => ⟨resolve_settled_cases hu depth f, ?_⟩⟩
  · obtain ⟨hle, hrange⟩ := frag_deferred h
    obtain ⟨u, b, hu, hcov, hset⟩ := exists_unwritten_of_rangeUnwritten hle hrange
    exact ⟨u, b, hu, by simpa [covers] using hcov, hset⟩
  · exact rawWith_not_deferred hu (dependee_not_deferred hu depth) f

/-! ## The raw value of a settled entry (R203, R209) -/

section
variable {n : Nat} {c : Ctx n}

/-- Extraction outside a build is the OR of the fragments' contributions. -/
theorem extractFrags_eq_fieldBits (hu : c.unwritten = none) {ps : List Fragment}
    (hps : ∀ p ∈ ps, fragOk n p = true) : extractFrags c ps 0 = .ok (.found (fieldBits c.words ps)) := by
  rw [extractFrags_settled c hu ps 0 hps, fieldBits, List.foldl_ext]
  intro v p hp
  rw [fragmentContributionsAgree n c.words p (hps p hp)]

theorem rawOf_eq_rawValue (hu : c.unwritten = none) {t : Terminal} (ht : PlaceOk n t) :
    rawOf c t = .ok (.found (rawValue c.words t)) := by
  cases hp : t.place with
  | fixed v => simp only [rawOf, rawValue, hp]
  | fragments ps =>
    simp only [PlaceOk, hp] at ht
    simp only [rawOf, rawValue, hp]
    exact extractFrags_eq_fieldBits hu ht

/-- A read of one buffer outside a build, for a field whose walk finds a well-formed entry (R242). -/
theorem readIn_found {env : Env} {f : FieldId} {t : Terminal} (mode : Mode) (hu : c.unwritten = none)
    (hr : resolve c env.budget f = .ok (.found t)) (ht : PlaceOk n t) :
    readIn env c f mode = inMode env f t mode (rawValue c.words t) := by
  simp only [readIn, hr, rawOf_eq_rawValue hu ht]

end

/-! ## A read of the native buffer (R241) -/

section
variable {s : State} {env : Env} {w : Vector Word 4}

/-- After a read found the native words, the native buffer is Valid and holds them. -/
theorem afterRead_native (h : Readable s env w) : (afterRead s w).nv = true ∧ (afterRead s w).nw = w := by
  obtain ⟨⟨hn, rfl⟩ | ⟨hn, -⟩, -⟩ := h <;> simp [afterRead, hn]

theorem refresh_readable (h : Readable s env w) : refresh env s.eng = .ok (afterRead s w) := by
  obtain ⟨⟨hn, rfl⟩ | ⟨hn, hw⟩, hc⟩ := h
  · rw [refresh_valid env hn]; simp [afterRead, hn]
  · rw [refresh_rebuilt hn (hc hn) hw]; simp [afterRead, hn, Engine.rebuiltNative]

/-- An ENCODED read of a field found in the native buffer ends there: no pipeline runs that could fail (R241, R242). -/
theorem readField_encoded_native {f : FieldId} {t : Terminal} (hw : Readable s env w)
    (hf : NativeField env w f t) : readField env s.eng f .encoded = (afterRead s w, .ok (rawValue w t)) := by
  obtain ⟨hres, hplace⟩ := hf
  obtain ⟨hnv, hnw⟩ := afterRead_native hw
  have hread : readNative env (afterRead s w) f .encoded = .ok (rawValue w t) := by
    rw [readNative, hnw]
    exact readIn_found (c := nativeCtx env w) .encoded rfl hres hplace
  simp only [readField, refresh_readable hw, readBuffers, hnv, if_true, hread]

/-- How `GET_RAW_FIELD` of a set-up engine ends (R249). -/
theorem exec_getRawField (h : Ready s env) (f : BitVec 16) {e : Engine} {out : Res U64}
    (hread : readField env s.eng f.toNat .encoded = (e, out)) :
    exec (.getRawField f) s = .next (finish s e (permit fitsAny out)) := by
  obtain ⟨hi, he⟩ := h
  refine congrArg Host.Outcome.next ((command_ready hi he _).trans ?_)
  rw [hread]

end

/-- Settles O31: the read finds the field in the native buffer it leaves, and every raw value fits. -/
theorem getRawFieldReadsTheNativeBits : Obligations.GetRawFieldReadsTheNativeBits := by
  intro s env w f t hready hw hf
  rw [exec_getRawField hready f (readField_encoded_native hw hf)]
  rfl

/-! ## Extraction after insertion (R212 to R214) -/

/-- Settles O37: well-formed fragments are inserted, each bit as the last covering fragment says. -/
theorem insertionWritesOnlyTheFragments : Obligations.InsertionWritesOnlyTheFragments := by
  intro n ws ps raw hps
  obtain ⟨ws', h⟩ := insertFrags_ok ps raw ws hps
  exact ⟨ws', h, fun b _ => bitAt_insertFrags h b⟩

/-- A bit no fragment covers keeps its value. -/
theorem bitAfterInsert_uncovered {n : Nat} {ws : Vector Word n} {ps : List Fragment} {raw : U64} {b : Nat}
    (h : ∀ p ∈ ps, covers p b = false) : bitAfterInsert ws ps raw b = bitAt ws b := by
  have hnone : (ps.reverse.find? fun p => covers p b) = none := by
    rw [List.find?_eq_none]
    intro p hp
    simp [h p (List.mem_reverse.mp hp)]
  simp only [bitAfterInsert, hnone]

/-- A bit that one fragment alone covers takes the value bit which that fragment carries there. -/
theorem bitAfterInsert_covered {n : Nat} {ws : Vector Word n} {ps : List Fragment} {p : Fragment} {raw : U64}
    {b : Nat} (hp : p ∈ ps) (hpb : covers p b = true) (honly : ∀ q ∈ ps, covers q b = true → q = p) :
    bitAfterInsert ws ps raw b
      = raw.getLsbD ((((p.lowBit % 32 : Nat) : Int) - p.shift).toNat + (b - p.lowBit)) := by
  cases hfind : ps.reverse.find? fun q => covers q b with
  | none => exact absurd hpb (List.find?_eq_none.mp hfind p (List.mem_reverse.mpr hp))
  | some q =>
    have hqb : covers q b = true := List.find?_some (p := fun q => covers q b) hfind
    have hq := honly q (List.mem_reverse.mp (List.mem_of_find?_eq_some hfind)) hqb
    simp only [bitAfterInsert, hfind, hq]

/-- Disjoint fragments do not share a covered bit. -/
theorem eq_of_covers_of_disjoint {ps : List Fragment}
    (hdisj : ps.Pairwise fun p q => p.highBit < q.lowBit ∨ q.highBit < p.lowBit) {p q : Fragment} {b : Nat}
    (hp : p ∈ ps) (hq : q ∈ ps) (hpb : covers p b = true) (hqb : covers q b = true) : q = p := by
  have : Std.Symm fun p q : Fragment => p.highBit < q.lowBit ∨ q.highBit < p.lowBit := ⟨fun _ _ => Or.symm⟩
  by_contra hne
  have hsep := hdisj.forall hq hp hne
  simp only [covers, Bool.and_eq_true, decide_eq_true_eq] at hpb hqb
  omega

/-- The value bits that a fragment carries (R214). -/
def carried (p : Fragment) : U64 := BitVec.ofNat 64 (2 ^ fragWidth p - 1) <<< (fragDst p).toNat

theorem getLsbD_carried (p : Fragment) (i : Nat) : (carried p).getLsbD i
    = (decide (i < 64) && decide ((fragDst p).toNat ≤ i) && decide (i < (fragDst p).toNat + fragWidth p)) := by
  have hmax := getLsbD_maxValue (fragWidth p) (i - (fragDst p).toNat)
  simp only [maxValue] at hmax
  rw [carried, BitVec.getLsbD_shiftLeft, hmax, Bool.eq_iff_iff]
  simp only [Bool.and_eq_true, Bool.not_eq_true', decide_eq_true_eq, decide_eq_false_iff_not]
  omega

theorem fragDst_of_fragOk {n : Nat} {p : Fragment} (hp : fragOk n p = true) :
    fragDst p = ((p.lowBit % 32 : Nat) : Int) - p.shift := by
  obtain ⟨-, hword, -⟩ := (fragOk_iff n p).mp hp
  simp only [fragDst, fragLow, Config.wordBits]
  omega

/-- A fragment's contribution, bit by bit: the value bits it carries are the buffer bits it covers. -/
theorem getLsbD_piece {n : Nat} (ws : Vector Word n) {p : Fragment} (hp : fragOk n p = true) (i : Nat) :
    (piece ws p).getLsbD i
      = ((carried p).getLsbD i && bitAt ws (p.lowBit + (i - (fragDst p).toNat))) := by
  obtain ⟨hle, hlow, hhigh, -, -, -⟩ := (fragOk_iff n p).mp hp
  have hwidth : fragWidth p = p.highBit - p.lowBit + 1 := rfl
  have hmask : BitVec.ofNat 64 (2 ^ (p.highBit - p.lowBit + 1) - 1) = maxValue (fragWidth p) := rfl
  rw [piece, ← fragDst_of_fragOk hp, hmask, getLsbD_carried]
  simp only [BitVec.getLsbD_shiftLeft, BitVec.getLsbD_and, BitVec.getLsbD_ushiftRight, BitVec.getLsbD_setWidth,
    getLsbD_maxValue]
  generalize (fragDst p).toNat = dst
  by_cases hge : dst ≤ i
  · obtain ⟨j, rfl⟩ := Nat.exists_eq_add_of_le hge
    by_cases hj : j < fragWidth p
    · have hword : (p.lowBit + j) / 32 = p.lowBit / 32 := by omega
      have hbit : (p.lowBit + j) % 32 = p.lowBit % 32 + j := by omega
      have h64 : j < 64 ∧ p.lowBit % 32 + j < 64 := by omega
      simp [bitAt, Config.wordBits, hword, hbit, h64, hj]
    · simp [hj]
  · simp [hge, Nat.lt_of_not_le hge]

/-- After an insertion, a fragment that shares no buffer bit with the others contributes the value bits it
carries. -/
theorem piece_insertFrags {n : Nat} {ws ws' : Vector Word n} {ps : List Fragment} {raw : U64}
    (hdisj : ps.Pairwise fun p q => p.highBit < q.lowBit ∨ q.highBit < p.lowBit)
    (h : insertFrags ws ps raw = .ok ws') {p : Fragment} (hp : p ∈ ps) (hok : fragOk n p = true) :
    piece ws' p = raw &&& carried p := by
  refine BitVec.eq_of_getLsbD_eq fun i _ => ?_
  rw [getLsbD_piece ws' hok, BitVec.getLsbD_and, Bool.and_comm]
  cases hc : (carried p).getLsbD i with
  | false => simp
  | true =>
    simp only [getLsbD_carried, Bool.and_eq_true, decide_eq_true_eq] at hc
    obtain ⟨⟨-, hge⟩, hlt⟩ := hc
    obtain ⟨hle, -⟩ := (fragOk_iff n p).mp hok
    have hwidth : fragWidth p = p.highBit - p.lowBit + 1 := rfl
    have hcov : covers p (p.lowBit + (i - (fragDst p).toNat)) = true := by
      simp only [covers, Bool.and_eq_true, decide_eq_true_eq]; omega
    have hbit : (fragDst p).toNat + (p.lowBit + (i - (fragDst p).toNat) - p.lowBit) = i := by omega
    rw [bitAt_insertFrags h,
      bitAfterInsert_covered hp hcov fun q hq hqb => eq_of_covers_of_disjoint hdisj hp hq hcov hqb,
      ← fragDst_of_fragOk hok, hbit]

/-- The field's bits after an insertion. -/
theorem fieldBits_insertFrags {n : Nat} {ws ws' : Vector Word n} {ps : List Fragment} {raw : U64}
    (hps : ∀ p ∈ ps, fragOk n p = true)
    (hdisj : ps.Pairwise fun p q => p.highBit < q.lowBit ∨ q.highBit < p.lowBit)
    (h : insertFrags ws ps raw = .ok ws') :
    fieldBits ws' ps = raw &&& ps.foldl (fun m p => m ||| carried p) 0 := by
  calc fieldBits ws' ps
      = ps.foldl (fun v p => v ||| (raw &&& carried p)) 0 :=
        List.foldl_ext _ _ 0 fun v p hp => by rw [piece_insertFrags hdisj h hp (hps p hp)]
    _ = ps.foldl (fun v p => v ||| (raw &&& carried p)) (raw &&& 0) := by
        congr 1; exact BitVec.and_zero.symm
    _ = raw &&& ps.foldl (fun m p => m ||| carried p) 0 :=
        List.foldl_hom (raw &&& ·) fun m p => BitVec.and_or_distrib_left.symm

/-- Settles O38: each fragment gives back what it carries, and the other bits are not written. The buffer bits'
disjointness suffices: fragments that share value bits would carry the same ones. -/
theorem extractionAfterInsertion : Obligations.ExtractionAfterInsertion := by
  intro n ws ws' ps raw hps hdisj _ h
  refine ⟨fun c hw hu => ?_, fun b _ hb => ?_⟩
  · rw [extractFrags_eq_fieldBits hu hps, hw, fieldBits_insertFrags hps hdisj h]
    rfl
  · rw [bitAt_insertFrags h, bitAfterInsert_uncovered hb]

end Sys2Proof.Proofs
end

section
/-! SUPPORT. The reads of one field over both buffers: what the regeneration leaves, which buffer answers, and
what the getters and `GET_FIELD_SIZE` make of it (R241 to R249, R262). -/

namespace Sys2Proof.Proofs

open Sys2Proof Sys2Proof.Machine Sys2Proof.Claims Sys2Proof.Laws

/-! ## Fallback to the compact buffer (R241) -/

section
variable {s : State} {env : Env} {f : FieldId} {e : Engine}

@[simp] theorem afterRead_cv (s : State) (w : Vector Word 4) : (afterRead s w).cv = s.eng.cv := by
  unfold afterRead; split <;> rfl

@[simp] theorem afterRead_cw (s : State) (w : Vector Word 4) : (afterRead s w).cw = s.eng.cw := by
  unfold afterRead; split <;> rfl

theorem refresh_unreadable (h : Unreadable s env) : refresh env s.eng = .ok s.eng := by
  obtain ⟨hn, hw⟩ := h
  cases hc : s.eng.cv with
  | false => exact refresh_neither env hc
  | true => rw [refresh_failed hn hc (hw hc), if_neg (by decide)]

/-- A read that the native buffer does not answer keeps the compact buffer, and finds no native position where
the native buffer is Valid in the end. -/
theorem noNativeRead_leaves (h : NoNativeRead s env f e) :
    refresh env s.eng = .ok e ∧ e.cv = s.eng.cv ∧ e.cw = s.eng.cw
      ∧ (e.nv = true → resolve (nativeCtx env e.nw) env.budget f = .ok .absent) := by
  rcases h with ⟨w, hw, hres, rfl⟩ | ⟨hun, rfl⟩
  · refine ⟨refresh_readable hw, afterRead_cv s w, afterRead_cw s w, fun _ => ?_⟩
    rw [(afterRead_native hw).2]
    exact hres
  · exact ⟨refresh_unreadable hun, rfl, rfl, fun hn => absurd (hun.1.symm.trans hn) Bool.false_ne_true⟩

/-- A read that the native buffer does not answer goes on in the compact one. -/
theorem readField_noNativeRead (h : NoNativeRead s env f e) (mode : Mode) :
    readField env s.eng f mode = (e, readCompact env s.eng f mode) := by
  obtain ⟨hrefresh, hcv, hcw, habsent⟩ := noNativeRead_leaves h
  have hcompact : readCompact env e f mode = readCompact env s.eng f mode := by
    simp only [readCompact, hcv, hcw]
  have hbuffers : readBuffers env e f mode = readCompact env e f mode := by
    cases hn : e.nv with
    | false => simp [readBuffers, hn]
    | true => simp [readBuffers, hn, readNative, readIn_absent (habsent hn), fail]
  simp only [readField, hrefresh, hbuffers, hcompact]

theorem readCompact_stale (hc : e.cv = false) (mode : Mode) :
    readCompact env e f mode = fail .invalidField := by
  simp [readCompact, hc]

theorem readCompact_absent (hc : e.cv = true)
    (hres : resolve (compactCtx env e.cw) env.md.numberOfFields f = .ok .absent) (mode : Mode) :
    readCompact env e f mode = fail .invalidField := by
  rw [readCompact, if_pos hc]
  exact readIn_absent hres

theorem readCompact_found {t : Terminal} (hc : e.cv = true) (hf : CompactField env e.cw f t) (mode : Mode) :
    readCompact env e f mode = inMode env f t mode (rawValue e.cw t) := by
  obtain ⟨hres, hplace⟩ := hf
  rw [readCompact, if_pos hc]
  exact readIn_found (c := compactCtx env e.cw) mode rfl hres hplace

/-! ## A read that the native buffer answers (R241, R242) -/

/-- The decode pipeline never ends with `InvalidField`, so a field found in one buffer is not looked for in the
other. -/
theorem inMode_ne_invalidField (env : Env) (f : FieldId) (t : Terminal) (mode : Mode) (raw : U64) :
    inMode env f t mode raw ≠ .error (.raise .invalidField) := by
  cases mode with
  | encoded => simp [inMode]
  | processed =>
    intro h
    rcases decodePipeline_error h with hsign | ⟨r, -, v, hone⟩
    · simpa using (decodePipeline_nil_error hsign).1
    · rcases decodeOne_error hone with ⟨hstop, -⟩ | ⟨hstop, -⟩ <;> simp at hstop

theorem readField_native {w : Vector Word 4} {t : Terminal} (hw : Readable s env w)
    (hf : NativeField env w f t) (mode : Mode) :
    readField env s.eng f mode = (afterRead s w, inMode env f t mode (rawValue w t)) := by
  obtain ⟨hres, hplace⟩ := hf
  obtain ⟨hnv, hnw⟩ := afterRead_native hw
  have hread : readNative env (afterRead s w) f mode = inMode env f t mode (rawValue w t) := by
    rw [readNative, hnw]
    exact readIn_found (c := nativeCtx env w) mode rfl hres hplace
  have hbuffers : readBuffers env (afterRead s w) f mode = inMode env f t mode (rawValue w t) := by
    rw [readBuffers, if_pos hnv, hread]
    split
    · next h => exact absurd h (inMode_ne_invalidField env f t mode _)
    · rfl
  simp only [readField, refresh_readable hw, hbuffers]

end

/-! ## The getters (R243 to R249) -/

section
variable {s : State} {env : Env} {f : BitVec 16} {e : Engine}

/-- How a getter of a set-up engine ends, in every mode and with every bound on the value. -/
theorem getField_next (h : Ready s env) {mode : Mode} {out : Res U64}
    (hread : readField env s.eng f.toNat mode = (e, out)) (ok : U64 → Bool) :
    (.next (getField mode ok f s) : Host.Outcome State Fault Refusal) = .next (finish s e (permit ok out)) := by
  obtain ⟨hi, he⟩ := h
  refine congrArg Host.Outcome.next ((command_ready hi he _).trans ?_)
  rw [hread]

/-- A value outside the accessor's range is refused (R244). -/
theorem finish_permit_ok (s : State) (e : Engine) {ok : U64 → Bool} {p : Prop} [Decidable p] {v : U64}
    (hok : ok v = decide p) :
    finish s e (permit ok (.ok v)) = if p then answer s e v [] [] else refusal s .doesNotFit := by
  simp only [permit, hok, decide_eq_true_eq]
  split <;> rfl

theorem fitsInt32_eq (v : U64) : fitsInt32 v = decide (-2 ^ 31 ≤ v.toInt ∧ v.toInt < 2 ^ 31) := by
  simp only [fitsInt32, Bool.decide_and, Int.le_sub_one_iff]

theorem fitsUInt32_eq (v : U64) : fitsUInt32 v = decide (v.toNat < 2 ^ 32) :=
  decide_eq_decide.2 (Nat.le_sub_one_iff_lt (by decide))

theorem gettersAnswer_of_readField (h : Ready s env) {v : U64}
    (hread : readField env s.eng f.toNat .processed = (e, .ok v)) : GettersAnswer s f e v := by
  have hget := getField_next h hread
  refine ⟨hget fitsAny, hget fitsAny, ?_, ?_⟩
  · rw [← finish_permit_ok s e (fitsInt32_eq v)]; exact hget fitsInt32
  · rw [← finish_permit_ok s e (fitsUInt32_eq v)]; exact hget fitsUInt32

theorem gettersRaise_of_readField (h : Ready s env) {c : ResultCode} (hc : c ≠ .internalError)
    (hread : readField env s.eng f.toNat .processed = (e, fail c)) : GettersRaise s f e c := by
  have hget := getField_next h hread
  unfold GettersRaise
  rw [← finish_coded s e hc]
  exact ⟨hget fitsAny, hget fitsAny, hget fitsInt32, hget fitsUInt32⟩

theorem gettersProcess_of_readField (h : Ready s env) {t : Terminal} {raw : U64}
    (hread : readField env s.eng f.toNat .processed = (e, inMode env f.toNat t .processed raw)) :
    GettersProcess s env f e t raw := by
  refine ⟨fun v hv => gettersAnswer_of_readField h ?_,
    fun hbad => gettersRaise_of_readField h (by decide) ?_⟩
  · rw [hread, inMode, hv]
  · rw [hread, inMode, hbad]; rfl

end

/-- Settles O32: the buffer that answers the read gives the pipeline its raw value. -/
theorem gettersReadTheProcessedValue : Obligations.GettersReadTheProcessedValue := by
  refine fun s env f hready =>
    ⟨fun w t hw hf => gettersProcess_of_readField hready (readField_native hw hf .processed), fun e hno => ?_⟩
  have hread := readField_noNativeRead hno .processed
  refine ⟨fun hc => gettersRaise_of_readField hready (by decide) ?_, fun hc =>
    ⟨fun habs => gettersRaise_of_readField hready (by decide) ?_,
      fun t hf => gettersProcess_of_readField hready ?_⟩⟩
  · rw [hread, readCompact_stale hc]
  · rw [hread, readCompact_absent hc habs]
  · rw [hread, readCompact_found hc hf]

/-- Settles O33: the same fallback, with no pipeline after it. -/
theorem rawReadsFallBackToTheCompactBuffer : Obligations.RawReadsFallBackToTheCompactBuffer := by
  intro s env f e hready hno
  rw [exec_getRawField hready f (readField_noNativeRead hno .encoded)]
  refine ⟨fun hc => ?_, fun hc => ⟨fun habs => ?_, fun t hf => ?_⟩⟩
  · rw [readCompact_stale hc]; rfl
  · rw [readCompact_absent hc habs]; rfl
  · rw [readCompact_found hc hf]; rfl

/-! ## `GET_FIELD_SIZE` (R262) -/

section
variable {env : Env} {e : Engine} {f : FieldId} {n : Nat} {c : Ctx n}

theorem sizeIn_found {t : Terminal} (h : resolve c env.budget f = .ok (.found t)) :
    sizeIn env c f = .ok (some t.bitSize) := by
  simp only [sizeIn, h]

theorem sizeIn_absent (h : resolve c env.budget f = .ok .absent) : sizeIn env c f = .ok none := by
  simp only [sizeIn, h]

theorem fieldSize_native {t : Terminal} (hn : e.nv = true)
    (h : resolve (nativeCtx env e.nw) env.budget f = .ok (.found t)) : fieldSize env e f = .ok t.bitSize := by
  simp only [fieldSize, hn, if_true, sizeIn_found h]

/-- The size a compact buffer gives counts where the native one gives none. -/
theorem fieldSize_compact (hnative : e.nv = true → resolve (nativeCtx env e.nw) env.budget f = .ok .absent)
    {size : Option Nat} (hcompact : (if e.cv then sizeIn env (compactCtx env e.cw) f else .ok none) = .ok size) :
    fieldSize env e f = .ok (size.getD 0) := by
  have hnone : (if e.nv then sizeIn env (nativeCtx env e.nw) f else .ok none) = .ok none := by
    split
    · next hn => exact sizeIn_absent (hnative hn)
    · rfl
  simp only [fieldSize, hnone, hcompact]
  cases size <;> rfl

theorem exec_getFieldSize {s : State} {id : BitVec 16} (h : Ready s env) (hrefresh : refresh env s.eng = .ok e)
    {size : Nat} (hsize : fieldSize env e id.toNat = .ok size) :
    exec (.getFieldSize id) s = .next (answer s e (BitVec.ofNat 64 size) [] []) := by
  obtain ⟨hi, he⟩ := h
  have hmeasure : measureField env s.eng id.toNat = (e, .ok { value := BitVec.ofNat 64 size }) := by
    simp only [measureField, hrefresh, hsize]
  refine congrArg Host.Outcome.next ((command_ready hi he _).trans ?_)
  rw [hmeasure]
  rfl

end

/-- Settles O34: the entry's size is taken in the buffer that would answer a read. -/
theorem getFieldSizeReportsTheEntrySize : Obligations.GetFieldSizeReportsTheEntrySize := by
  refine fun s env f hready => ⟨fun w t hw hres => ?_, fun e hno => ?_⟩
  · obtain ⟨hnv, hnw⟩ := afterRead_native hw
    refine exec_getFieldSize hready (refresh_readable hw) (fieldSize_native hnv ?_)
    rw [hnw]
    exact hres
  · obtain ⟨hrefresh, hcv, hcw, habsent⟩ := noNativeRead_leaves hno
    have hexec {size : Option Nat}
        (h : (if s.eng.cv then sizeIn env (compactCtx env s.eng.cw) f.toNat else .ok none) = .ok size) :=
      exec_getFieldSize hready hrefresh (fieldSize_compact (size := size) habsent (by rw [hcv, hcw, h]))
    refine ⟨fun hc => hexec (size := none) ?_, fun hc => ⟨fun t ht => hexec (size := some t.bitSize) ?_,
      fun habs => hexec (size := none) ?_⟩⟩
    · rw [hc]; rfl
    · rw [if_pos hc]; exact sizeIn_found ht
    · rw [if_pos hc]; exact sizeIn_absent habs

end Sys2Proof.Proofs
end

section
/-! SUPPORT. The writes of one field: what a write does in one buffer, how the attempts in both are settled, and
how a setter ends (R252 to R260). -/

namespace Sys2Proof.Proofs

open Sys2Proof Sys2Proof.Machine Sys2Proof.Claims Sys2Proof.Laws

/-! ## How a setter ends (R255, R257 to R260) -/

theorem unsigned32_eq_and (a : U64) : unsigned32 a = a &&& 0xFFFFFFFF := by
  have hmask : (0xFFFFFFFF : U64) = maxValue 32 := rfl
  refine BitVec.eq_of_getLsbD_eq fun i hi => ?_
  rw [hmask, BitVec.getLsbD_and, getLsbD_maxValue]
  simp [unsigned32, hi, Bool.and_comm]

/-- The four setters are one write, each of its own value. -/
theorem exec_of_setterValue {i : Instr} {s : State} {f : BitVec 16} {v : U64}
    (h : setterValue s.request.a0 i = some (f, v)) :
    exec i s = .next (command s fun env => writeRun env s.eng f.toNat v) := by
  cases i with
  | setSignedField | setSigned64Field | setUnsigned64Field => cases h; rfl
  | setUnsignedField => cases h; rw [← unsigned32_eq_and]; rfl
  | _ => cases h

/-- Settles O42: a setter leaves another engine only by completing. -/
theorem failedWritesChangeNothing : Obligations.FailedWritesChangeNothing := by
  intro s t i f v r hi ht ha hr
  rw [exec_of_setterValue hi, Host.Outcome.next.injEq] at ht
  subst ht
  rcases command_cases s fun env => writeRun env s.eng f.toNat v with ⟨-, h⟩ | ⟨-, -, h⟩ | ⟨env, -, -, h⟩ <;>
    rw [h] at ha ⊢
  · rfl
  · rfl
  · cases hset : setField env s.eng f.toNat v with
    | error stop =>
      simp only [writeRun, hset]
      exact (finish_eng_cases s s.eng _).elim id id
    | ok e =>
      simp only [writeRun, hset] at ha
      exact absurd (answered_unique ha rfl) (hr _ _ _)

section
variable {i : Instr} {s : State} {env : Env} {f : BitVec 16} {v : U64}

theorem exec_setter (h : Ready s env) (hi : setterValue s.request.a0 i = some (f, v)) :
    exec i s = .next (finish s (writeRun env s.eng f.toNat v).1 (writeRun env s.eng f.toNat v).2) := by
  obtain ⟨hinit, henv⟩ := h
  rw [exec_of_setterValue hi, command_ready hinit henv]

theorem exec_setter_ok (h : Ready s env) (hi : setterValue s.request.a0 i = some (f, v)) {e : Engine}
    (hset : setField env s.eng f.toNat v = .ok e) : exec i s = .next (answer s e 0 [] []) := by
  rw [exec_setter h hi]
  simp only [writeRun, hset]
  rfl

theorem exec_setter_raise (h : Ready s env) (hi : setterValue s.request.a0 i = some (f, v)) {k : ResultCode}
    (hk : k ≠ .internalError) (hset : setField env s.eng f.toNat v = fail k) :
    exec i s = .next (coded s s.eng k) := by
  rw [exec_setter h hi, ← finish_coded s s.eng hk]
  simp only [writeRun, hset, fail]

theorem exec_setter_refuse (h : Ready s env) (hi : setterValue s.request.a0 i = some (f, v)) {why : RefuseReason}
    (hset : setField env s.eng f.toNat v = .error (.refuse why)) : exec i s = .next (refusal s why) := by
  rw [exec_setter h hi]
  simp only [writeRun, hset]
  rfl

end

/-! ## The attempts and their settlement (R253, R254) -/

/-- What a write that fails with a code leaves of a Valid buffer's attempt. -/
def failedAttempt (n : Nat) (k : ResultCode) : Attempt n := if k = .invalidValue then .badValue else .noField

/-- The two codes by which a write fails in one buffer without ending the command. -/
def FieldFailure (k : ResultCode) : Prop := k = .invalidField ∨ k = .invalidValue

theorem FieldFailure.ne_internalError {k : ResultCode} (hk : FieldFailure k) : k ≠ .internalError := by
  rcases hk with rfl | rfl <;> decide

theorem tryWrite_failed {n : Nat} {k : ResultCode} (hk : FieldFailure k) :
    tryWrite true (.error (.raise k) : Res (Vector Word n)) = .ok (failedAttempt n k) := by
  rcases hk with rfl | rfl <;> rfl

theorem tryWrite_refused {n : Nat} (why : RefuseReason) :
    tryWrite true (.error (.refuse why) : Res (Vector Word n)) = .error (.refuse why) := rfl

/-- A write goes on in the other buffer unless it is refused or raises `InternalError`. -/
theorem tryWrite_goes_on {n : Nat} {valid : Bool} {w : Res (Vector Word n)}
    (h : valid = true → ∀ stop, w = .error stop → stop = .raise .invalidField ∨ stop = .raise .invalidValue) :
    ∃ a, tryWrite valid w = .ok a := by
  cases valid with
  | false => exact ⟨.skipped, rfl⟩
  | true =>
    cases w with
    | ok ws => exact ⟨.wrote ws, rfl⟩
    | error stop => rcases h rfl stop rfl with rfl | rfl <;> exact ⟨_, rfl⟩

@[simp] theorem failedAttempt_wrote (n : Nat) (k : ResultCode) : (failedAttempt n k).wrote? = false := by
  unfold failedAttempt; split <;> rfl

@[simp] theorem failedAttempt_bad (n : Nat) (k : ResultCode) :
    (failedAttempt n k).bad? = decide (k = .invalidValue) := by
  unfold failedAttempt; split <;> simp [Attempt.bad?, *]

@[simp] theorem commitNative_failed (e : Engine) (k : ResultCode) :
    commitNative e (failedAttempt 4 k) = e.staleNative := by
  unfold failedAttempt; split <;> rfl

@[simp] theorem commitCompact_failed (e : Engine) (k : ResultCode) :
    commitCompact e (failedAttempt 2 k) = e.staleCompact := by
  unfold failedAttempt; split <;> rfl

/-- Where no buffer takes the write, `InvalidValue` goes before `InvalidField`. -/
theorem settleWrite_failed (e : Engine) (k1 k2 : ResultCode) :
    settleWrite e (failedAttempt 4 k1) (failedAttempt 2 k2)
      = fail (if k1 = .invalidValue ∨ k2 = .invalidValue then .invalidValue else .invalidField) := by
  simp only [settleWrite, failedAttempt_wrote, failedAttempt_bad, Bool.or_self, Bool.false_eq_true, if_false,
    Bool.or_eq_true, decide_eq_true_eq]
  split <;> rfl

section
variable {env : Env} {e : Engine} {f : FieldId} {v : U64}

theorem setField_settles {a : Attempt 4} {b : Attempt 2}
    (ha : tryWrite e.nv (writeIn env (nativeCtx env e.nw) f v) = .ok a)
    (hb : tryWrite e.cv (writeIn env (compactCtx env e.cw) f v) = .ok b) :
    setField env e f v = settleWrite e a b := by
  simp only [setField, ha, hb]

theorem setField_native_refused {why : RefuseReason} (hn : e.nv = true)
    (h : writeIn env (nativeCtx env e.nw) f v = .error (.refuse why)) :
    setField env e f v = .error (.refuse why) := by
  simp only [setField, hn, h, tryWrite_refused]

theorem setField_compact_refused {why : RefuseReason} {a : Attempt 4} (hc : e.cv = true)
    (ha : tryWrite e.nv (writeIn env (nativeCtx env e.nw) f v) = .ok a)
    (h : writeIn env (compactCtx env e.cw) f v = .error (.refuse why)) :
    setField env e f v = .error (.refuse why) := by
  simp only [setField, ha, hc, h, tryWrite_refused]

end

/-- Settles O40: each of the four outcomes is one pair of attempts. -/
theorem writesCommitEachBufferThatSucceeds : Obligations.WritesCommitEachBufferThatSucceeds := by
  intro s env i f v hready hn hc hi
  have hsettles {a : Attempt 4} {b : Attempt 2}
      (ha : tryWrite true (writeIn env (nativeCtx env s.eng.nw) f.toNat v) = .ok a)
      (hb : tryWrite true (writeIn env (compactCtx env s.eng.cw) f.toNat v) = .ok b) :
      setField env s.eng f.toNat v = settleWrite s.eng a b :=
    setField_settles (by rw [hn, ha]) (by rw [hc, hb])
  refine ⟨fun n c ha hb => ?_, fun n k ha hb hk => ?_, fun c k ha hb hk => ?_, fun k1 k2 ha hb hk1 hk2 => ?_⟩ <;>
    rw [ha, hb] at hsettles
  · exact exec_setter_ok hready hi (hsettles rfl rfl)
  · refine exec_setter_ok hready hi ((hsettles rfl (tryWrite_failed hk)).trans ?_)
    simp [settleWrite, Attempt.wrote?, commitNative, Engine.wroteNative, Engine.staleCompact]
  · refine exec_setter_ok hready hi ((hsettles (tryWrite_failed hk) rfl).trans ?_)
    simp [settleWrite, Attempt.wrote?, commitCompact, Engine.wroteCompact, Engine.staleNative]
  · refine exec_setter_raise hready hi ?_
      ((hsettles (tryWrite_failed hk1) (tryWrite_failed hk2)).trans (settleWrite_failed _ k1 k2))
    split <;> decide

/-! ## Protected bits (R256) -/

theorem fragProtected_iff {p : Fragment} (hle : p.lowBit ≤ p.highBit) :
    fragProtected p = true ↔ ∃ b, (b ≤ 6 ∨ b = 29) ∧ covers p b = true := by
  simp only [fragProtected, covers, Config.opcodeHi, Config.cmptCtrlBit, Bool.or_eq_true, Bool.and_eq_true,
    decide_eq_true_eq]
  constructor
  · rintro (hlow | hcover)
    · exact ⟨p.lowBit, .inl hlow, Nat.le_refl _, hle⟩
    · exact ⟨29, .inr rfl, hcover⟩
  · rintro ⟨b, hb | rfl, hcover⟩
    · exact .inl (hcover.1.trans hb)
    · exact .inr hcover

/-- A write to a field of which one well-formed fragment covers a protected bit. -/
theorem writeIn_covers {n : Nat} {env : Env} {c : Ctx n} {f : FieldId} {v : U64} {ps : List Fragment} {size : Nat}
    {rs : List Restriction} {p : Fragment} {b : Nat}
    (hres : resolve c env.budget f = .ok (.found ⟨.fragments ps, size, rs⟩))
    (hplace : PlaceOk n ⟨.fragments ps, size, rs⟩) (hp : p ∈ ps) (hcover : covers p b = true)
    (hb : b ≤ 6 ∨ b = 29) : writeIn env c f v = .error (.refuse .protectedBits) :=
  writeIn_protected hres hplace hp
    ((fragProtected_iff ((fragOk_iff n p).1 (hplace p hp)).1).2 ⟨b, hb, hcover⟩)

/-- Settles O41: the refusal in one buffer is the command's. -/
theorem writesToProtectedBitsAreRefused : Obligations.WritesToProtectedBitsAreRefused := by
  intro s env i f v ps size rs p b hready hi hp hcover hb
  refine ⟨fun hn ⟨hres, hplace⟩ => ?_, fun hc ⟨hres, hplace⟩ hgo => ?_⟩
  · exact exec_setter_refuse hready hi (setField_native_refused hn (writeIn_covers hres hplace hp hcover hb))
  · obtain ⟨a, ha⟩ := tryWrite_goes_on hgo
    exact exec_setter_refuse hready hi (setField_compact_refused hc ha (writeIn_covers hres hplace hp hcover hb))

/-! ## A write in one buffer (R252) -/

/-- An encoded value put where a terminal entry has its bits (R252). -/
def putRaw {n : Nat} (ws : Vector Word n) : Place → U64 → Res (Vector Word n)
  | .fixed x, raw => if raw = x then .ok ws else fail .invalidValue
  | .fragments ps, raw => insertFrags ws ps raw

/-- A write to a field whose walk finds a well-formed entry outside the protected bits encodes the value and puts
it in its place. -/
theorem writeIn_found {n : Nat} {env : Env} {c : Ctx n} {f : FieldId} {t : Terminal}
    (hres : resolve c env.budget f = .ok (.found t)) (hplace : PlaceOk n t)
    (hfree : ∀ ps, t.place = .fragments ps → Unprotected ps) (v : U64) :
    writeIn env c f v
      = encodePipeline env.maskSense (fieldSignInfo env f t) t.rs v >>= putRaw c.words t.place := by
  obtain ⟨place, size, rs⟩ := t
  cases place with
  | fixed x =>
    simp only [writeIn, hres]
    cases encodePipeline env.maskSense (fieldSignInfo env f ⟨.fixed x, size, rs⟩) rs v with
    | error stop => rfl
    | ok raw => exact if_congr beq_iff_eq rfl rfl
  | fragments ps =>
    have hunprotected (p : Fragment) (hp : p ∈ ps) : fragProtected p = false := by
      refine Bool.eq_false_iff.2 fun hprot => ?_
      obtain ⟨b, hb, hcover⟩ := (fragProtected_iff ((fragOk_iff n p).1 (hplace p hp)).1).1 hprot
      exact Bool.false_ne_true ((hfree ps rfl p hp b hb).symm.trans hcover)
    rw [writeIn_fragments hres hplace hunprotected]
    cases encodePipeline env.maskSense (fieldSignInfo env f ⟨.fragments ps, size, rs⟩) rs v <;> rfl

/-- How a setter ends by its write in the one Valid buffer: `wrote` is the engine with that buffer's new words. -/
structure EndsByWriteIn {n : Nat} (i : Instr) (s : State) (env : Env) (f : FieldId) (v : U64) (c : Ctx n)
    (wrote : Vector Word n → Engine) : Prop where
  ok : ∀ ws, writeIn env c f v = .ok ws → exec i s = .next (answer s (wrote ws) 0 [] [])
  fails : ∀ k, FieldFailure k → writeIn env c f v = fail k → exec i s = .next (coded s s.eng k)

section
variable {n : Nat} {i : Instr} {s : State} {env : Env} {f : FieldId} {v : U64} {c : Ctx n}
  {wrote : Vector Word n → Engine}

theorem EndsByWriteIn.absent (h : EndsByWriteIn i s env f v c wrote)
    (hres : resolve c env.budget f = .ok .absent) : exec i s = .next (coded s s.eng .invalidField) :=
  h.fails _ (.inl rfl) (by simp only [writeIn, hres])

/-- The outcomes of a setter for a field with a position in the one Valid buffer: the value rejected, a fixed
entry, fragments. -/
theorem EndsByWriteIn.found (h : EndsByWriteIn i s env f v c wrote) {t : Terminal}
    (hsense : env.maskSense = s.maskSense) (hres : resolve c env.budget f = .ok (.found t)) (hplace : PlaceOk n t)
    (hfree : ∀ ps, t.place = .fragments ps → Unprotected ps) :
    (encodePipeline s.maskSense (fieldSignInfo env f t) t.rs v = .error (.raise .invalidValue) →
      exec i s = .next (coded s s.eng .invalidValue))
    ∧ ∀ raw, encodePipeline s.maskSense (fieldSignInfo env f t) t.rs v = .ok raw →
      (∀ x, t.place = .fixed x → exec i s = .next
        (if raw = x then answer s (wrote c.words) 0 [] [] else coded s s.eng .invalidValue))
      ∧ ∀ ps, t.place = .fragments ps → ∃ ws : Vector Word n,
        exec i s = .next (answer s (wrote ws) 0 [] [])
        ∧ ∀ b, b < 32 * n → bitAt ws b = bitAfterInsert c.words ps raw b := by
  have hwrite := writeIn_found hres hplace hfree v
  rw [hsense] at hwrite
  refine ⟨fun hbad => ?_, fun raw hraw => ?_⟩
  · rw [hbad] at hwrite
    exact h.fails _ (.inr rfl) hwrite
  · rw [hraw] at hwrite
    refine ⟨fun x hx => ?_, fun ps hps => ?_⟩
    · by_cases heq : raw = x
      · rw [if_pos heq]
        exact h.ok _ (hwrite.trans (by rw [hx]; exact if_pos heq))
      · rw [if_neg heq]
        exact h.fails _ (.inr rfl) (hwrite.trans (by rw [hx]; exact if_neg heq))
    · simp only [PlaceOk, hps] at hplace
      obtain ⟨ws, hws, hbits⟩ := insertionWritesOnlyTheFragments n c.words ps raw hplace
      exact ⟨ws, h.ok ws (hwrite.trans (by rw [hps]; exact hws)), hbits⟩

end

section
variable {i : Instr} {s : State} {env : Env} {f : BitVec 16} {v : U64}

/-- The stale compact buffer is skipped. -/
theorem endsByWriteIn_native (hready : Ready s env) (hi : setterValue s.request.a0 i = some (f, v))
    (hn : s.eng.nv = true) (hc : s.eng.cv = false) :
    EndsByWriteIn i s env f.toNat v (nativeCtx env s.eng.nw) s.eng.wroteNative := by
  have hsettles {a : Attempt 4} (ha : tryWrite true (writeIn env (nativeCtx env s.eng.nw) f.toNat v) = .ok a) :
      setField env s.eng f.toNat v = settleWrite s.eng a .skipped :=
    setField_settles (by rw [hn, ha]) (by rw [hc]; rfl)
  refine ⟨fun ws hws => exec_setter_ok hready hi (hsettles (a := .wrote ws) (by rw [hws]; rfl)),
    fun k hk hfail => ?_⟩
  refine exec_setter_raise hready hi hk.ne_internalError
    ((hsettles (by rw [hfail]; exact tryWrite_failed hk)).trans ?_)
  rcases hk with rfl | rfl <;> rfl

/-- The stale native buffer is skipped: it is not rebuilt for a write. -/
theorem endsByWriteIn_compact (hready : Ready s env) (hi : setterValue s.request.a0 i = some (f, v))
    (hn : s.eng.nv = false) (hc : s.eng.cv = true) :
    EndsByWriteIn i s env f.toNat v (compactCtx env s.eng.cw) s.eng.wroteCompact := by
  have hsettles {b : Attempt 2} (hb : tryWrite true (writeIn env (compactCtx env s.eng.cw) f.toNat v) = .ok b) :
      setField env s.eng f.toNat v = settleWrite s.eng .skipped b :=
    setField_settles (by rw [hn]; rfl) (by rw [hc, hb])
  refine ⟨fun ws hws => exec_setter_ok hready hi (hsettles (b := .wrote ws) (by rw [hws]; rfl)),
    fun k hk hfail => ?_⟩
  refine exec_setter_raise hready hi hk.ne_internalError
    ((hsettles (by rw [hfail]; exact tryWrite_failed hk)).trans ?_)
  rcases hk with rfl | rfl <;> rfl

end

/-- Settles O39: with one Valid buffer the write there decides how the setter ends. -/
theorem settersWriteTheEncodedValue : Obligations.SettersWriteTheEncodedValue := by
  intro s env i f v hready hi
  obtain ⟨-, -, hsense⟩ := env_eq_some hready.2
  refine ⟨fun hn hc => ?_, fun hn hc => ?_⟩
  · have hends := endsByWriteIn_native hready hi hn hc
    exact ⟨hends.absent, fun t ⟨hres, hplace⟩ hfree => hends.found hsense hres hplace hfree⟩
  · have hends := endsByWriteIn_compact hready hi hn hc
    exact ⟨hends.absent, fun t ⟨hres, hplace⟩ hfree => hends.found hsense hres hplace hfree⟩

end Sys2Proof.Proofs
end

section
/-! SUPPORT. The encode pipeline: a sole `Enum` as a search for its least slot, at most two slots run in turn, and
the accepted values coming back on decode (R300 to R308). -/

namespace Sys2Proof.Proofs

open Sys2Proof Sys2Proof.Machine Sys2Proof.Claims Sys2Proof.Laws

/-! ## A sole `Enum` (R306) -/

theorem idxOf?_eq_some_iff_getElem? {α : Type} [BEq α] [LawfulBEq α] {l : List α} {a : α} {k : Nat} :
    l.idxOf? a = some k ↔ l[k]? = some a ∧ ∀ j < k, l[j]? ≠ some a := by
  rw [List.idxOf?_eq_some_iff, List.getElem?_eq_some_iff]
  constructor
  · rintro ⟨hk, ha, hbefore⟩
    refine ⟨⟨hk, ha⟩, fun j hj hja => ?_⟩
    obtain ⟨_, hja⟩ := List.getElem?_eq_some_iff.1 hja
    exact hbefore j hj hja
  · rintro ⟨⟨hk, ha⟩, hbefore⟩
    exact ⟨hk, ha, fun j hj hja => hbefore j hj (List.getElem?_eq_some_iff.2 ⟨hj.trans hk, hja⟩)⟩

/-- The model's scan of a table is the library's search for the least index. -/
theorem enumIndex_eq_idxOf? (v : U64) (table : List (Option U64)) (k : Nat) :
    enumIndex v table k = (table.idxOf? (some v)).map (· + k) := by
  induction table generalizing k with
  | nil => rfl
  | cons slot rest ih =>
    rw [enumIndex, List.idxOf?_cons, ih]
    by_cases hslot : slot = some v
    · simp [hslot]
    · simp [hslot, Function.comp_def, Nat.add_assoc, Nat.add_comm 1]

section
variable (sense : MaskSense) (si : SignInfo) {table : List (Option U64)} {rest : List Restriction} {v : U64}

theorem encodePipeline_enum_slot {k : Nat} (h : table.idxOf? (some v) = some k) :
    encodePipeline sense si [.enum table] v = .ok (BitVec.ofNat 64 k) := by
  simp [encodePipeline, isNone, enumIndex_eq_idxOf?, h]

theorem encodePipeline_enum_noSlot (h : table.idxOf? (some v) = none) :
    encodePipeline sense si [.enum table] v = .error (.raise .invalidValue) := by
  simp [encodePipeline, isNone, enumIndex_eq_idxOf?, h, fail]

theorem encodePipeline_enum_sole (h : rest.all isNone = true) :
    encodePipeline sense si (.enum table :: rest) v = encodePipeline sense si [.enum table] v := by
  simp [encodePipeline, isNone, h]

/-- An `Enum` beside a restriction that is not `None` is broken ROM data (R511). -/
theorem encodePipeline_enum_notSole (h : rest.all isNone = false) :
    encodePipeline sense si (.enum table :: rest) v = broken := by
  simp [encodePipeline, isNone, h]

end

/-- Settles O45: the search finds the least slot. -/
theorem enumEncodesAsTheLeastSlot : Obligations.EnumEncodesAsTheLeastSlot := by
  intro sense si table v
  refine ⟨fun k hk hbefore => ?_, fun hno => ?_⟩
  · exact encodePipeline_enum_slot sense si (idxOf?_eq_some_iff_getElem?.2 ⟨hk, hbefore⟩)
  · refine encodePipeline_enum_noSlot sense si (List.idxOf?_eq_none_iff.2 fun hmem => ?_)
    obtain ⟨k, hk⟩ := List.mem_iff_getElem?.1 hmem
    exact hno k hk

/-! ## One slot on encode (R300, R303 to R307) -/

theorem guardValue_of_iff {ok : Bool} {p : Prop} [Decidable p] (h : ok = true ↔ p) (v : U64) :
    guardValue ok v = if p then .ok v else .error (.raise .invalidValue) := by
  simp [guardValue, h, fail]

/-- A bounded encoding succeeds exactly when the bound check holds, and gives the raw value it guards. -/
theorem bind_guardValue_eq_ok {check : Res Bool} {x raw : U64} :
    (check >>= fun ok => guardValue ok x) = .ok raw ↔ check = .ok true ∧ x = raw := by
  rcases check with stop | _ | _
  · exact ⟨nofun, nofun⟩
  · exact ⟨nofun, nofun⟩
  · exact ⟨fun h => ⟨rfl, Except.ok.inj h⟩, fun h => congrArg Except.ok h.2⟩

theorem inRange_iff {v lo hi : U64} {signed : Bool} : inRange v signed lo hi = true ↔
    if signed then lo.toInt ≤ v.toInt ∧ v.toInt ≤ hi.toInt
    else lo.toInt ≤ v.toNat ∧ (v.toNat : Int) ≤ hi.toInt := by
  cases signed <;> simp [inRange]

/-- What a `FieldType` makes of an accepted value: its low bits, and a copy of them above where it duplicates
(R307). -/
def fieldTypeRaw (bits : Nat) (dup : Bool) (v : U64) : U64 :=
  if dup then (v &&& maxValue bits) ||| ((v &&& maxValue bits) <<< bits) else v &&& maxValue bits

theorem encodeOne_fieldType (sense : MaskSense) (fieldSign : Bool) (v : U64) (bits : Nat) (signed dup : Bool) :
    encodeOne sense fieldSign v (.fieldType bits signed dup)
      = fits v signed bits >>= fun ok => guardValue ok (fieldTypeRaw bits dup v) := by
  simp only [encodeOne]
  rcases fits v signed bits with stop | _ | _ <;> rfl

/-! ## Two slots (R301) -/

section
variable {sense : MaskSense} {si : SignInfo} {r r1 r2 : Restriction} {rest : List Restriction} {v : U64}

theorem encodeAll_cons (signed : Bool) (rs : List Restriction) :
    encodeAll sense signed (r :: rs) v = encodeOne sense signed v r >>= encodeAll sense signed rs := by
  rw [encodeAll]
  cases encodeOne sense signed v r <;> rfl

/-- A list that does not begin with an `Enum` runs its first two slots. -/
theorem encodePipeline_slots (hnone : (r :: rest).all isNone = false) (henum : isEnum r = false) :
    encodePipeline sense si (r :: rest) v = encodeAll sense si.signed ((r :: rest).take 2) v := by
  unfold encodePipeline
  rw [hnone]
  cases r with
  | enum table => cases henum
  | none | value | range | mask | padding | fieldType => rfl

theorem encodePipeline_single (hnone : isNone r = false) (henum : isEnum r = false) :
    encodePipeline sense si [r] v = encodeOne sense si.signed v r := by
  rw [encodePipeline_slots (by simp [hnone]) henum]
  exact (encodeAll_cons si.signed []).trans (bind_pure _)

/-- A sole restriction that only checks the value gives it back where the check holds. -/
theorem encodePipeline_check {ok : Bool} {p : Prop} [Decidable p] (hnone : isNone r = false)
    (henum : isEnum r = false) (hone : encodeOne sense si.signed v r = guardValue ok v) (h : ok = true ↔ p) :
    encodePipeline sense si [r] v = if p then .ok v else .error (.raise .invalidValue) := by
  rw [encodePipeline_single hnone henum, hone, guardValue_of_iff h]

/-- The second slot sees what the first gave; slots past the second are not looked at. -/
theorem encodePipeline_pair (hnone : (r1 :: r2 :: rest).all isNone = false) (henum : isEnum r1 = false) :
    encodePipeline sense si (r1 :: r2 :: rest) v
      = encodeOne sense si.signed v r1 >>= fun v' => encodeOne sense si.signed v' r2 := by
  rw [encodePipeline_slots hnone henum]
  refine (encodeAll_cons si.signed [r2]).trans (congrArg _ (funext fun v' => ?_))
  exact (encodeAll_cons si.signed []).trans (bind_pure _)

theorem eq_none_of_isNone (h : isNone r = true) : r = .none := by
  cases r with
  | none => rfl
  | value | range | mask | padding | fieldType | enum => cases h

/-- Two slots without an `Enum`, by which of them are `None`. -/
theorem encodePipeline_twoSlots (h1 : isEnum r1 = false) (h2 : isEnum r2 = false) :
    (isNone r1 = false → isNone r2 = false → encodePipeline sense si (r1 :: r2 :: rest) v
      = encodePipeline sense si [r1] v >>= encodePipeline sense si [r2])
    ∧ (isNone r1 = true → isNone r2 = false →
      encodePipeline sense si (r1 :: r2 :: rest) v = encodePipeline sense si [r2] v)
    ∧ (isNone r1 = false → isNone r2 = true →
      encodePipeline sense si (r1 :: r2 :: rest) v = encodePipeline sense si [r1] v)
    ∧ (isNone r1 = true → isNone r2 = true → rest.all isNone = false →
      encodePipeline sense si (r1 :: r2 :: rest) v = .ok v) := by
  refine ⟨fun n1 n2 => ?_, fun n1 n2 => ?_, fun n1 n2 => ?_, fun n1 n2 hrest => ?_⟩
  · rw [encodePipeline_pair (by simp [n1]) h1, encodePipeline_single n1 h1]
    exact congrArg _ (funext fun v' => (encodePipeline_single n2 h2).symm)
  · rw [encodePipeline_pair (by simp [n2]) h1, encodePipeline_single n2 h2, eq_none_of_isNone n1]
    rfl
  · rw [encodePipeline_pair (by simp [n1]) h1, encodePipeline_single n1 h1, eq_none_of_isNone n2]
    exact bind_pure _
  · rw [encodePipeline_pair (by simp [n1, n2, hrest]) h1, eq_none_of_isNone n1, eq_none_of_isNone n2]
    rfl

/-- An `Enum` in the second slot counts once the first slot has let the value pass (R511). -/
theorem encodePipeline_enum_second (table : List (Option U64)) (henum : isEnum r = false) :
    encodePipeline sense si (r :: .enum table :: rest) v = encodeOne sense si.signed v r >>= fun _ => broken := by
  rw [encodePipeline_pair (by simp [isNone]) henum]
  rfl

end

/-! ## A `FieldType` alone (R307) -/

section
variable {sense : MaskSense} {si : SignInfo} {bits : Nat} {dup : Bool} {v : U64}

theorem encodePipeline_fieldType (signed : Bool) : encodePipeline sense si [.fieldType bits signed dup] v
    = fits v signed bits >>= fun ok => guardValue ok (fieldTypeRaw bits dup v) := by
  rw [encodePipeline_single rfl rfl, encodeOne_fieldType]

theorem encodePipeline_fieldType_signed (h1 : 1 ≤ bits) (h64 : bits ≤ 64) :
    encodePipeline sense si [.fieldType bits true dup] v
      = if -(2 ^ (bits - 1)) ≤ v.toInt ∧ v.toInt < 2 ^ (bits - 1) then .ok (fieldTypeRaw bits dup v)
        else .error (.raise .invalidValue) := by
  rw [encodePipeline_fieldType, fits_signed h1 h64]
  exact guardValue_decide _ _

theorem fieldTypeRaw_of_lt (h64 : bits ≤ 64) (h : v.toNat < 2 ^ bits) :
    fieldTypeRaw bits dup v = if dup then v ||| (v <<< bits) else v := by
  rw [fieldTypeRaw, and_maxValue_of_lt h64 h]

theorem encodePipeline_fieldType_unsigned (h64 : bits ≤ 64) :
    encodePipeline sense si [.fieldType bits false dup] v
      = if v.toNat < 2 ^ bits then .ok (if dup then v ||| (v <<< bits) else v)
        else .error (.raise .invalidValue) := by
  rw [encodePipeline_fieldType, fits_unsigned h64]
  refine (guardValue_decide _ _).trans ?_
  split
  · next hlt => rw [fieldTypeRaw_of_lt h64 hlt]
  · rfl

theorem encodePipeline_fieldType_broken {signed : Bool} (h : (signed = true ∧ bits = 0) ∨ 64 < bits) :
    encodePipeline sense si [.fieldType bits signed dup] v = broken := by
  rw [encodePipeline_fieldType, fits_broken h]
  rfl

end

/-- Settles O46: each clause is the equation of its slot, of two slots, or of an `Enum` in company. -/
theorem contentRestrictionsOnEncode : Obligations.ContentRestrictionsOnEncode := by
  refine ⟨fun si sense v x lo hi m pv pm => ⟨encodePipeline_check rfl rfl rfl beq_iff_eq,
      encodePipeline_check rfl rfl rfl inRange_iff, encodePipeline_check rfl rfl rfl beq_iff_eq,
      encodePipeline_check rfl rfl rfl beq_iff_eq, encodePipeline_check rfl rfl rfl beq_iff_eq⟩,
    fun si sense bits dup v => ⟨encodePipeline_fieldType_signed, encodePipeline_fieldType_unsigned,
      fun signed hw => encodePipeline_fieldType_broken hw.symm⟩,
    fun si sense r1 r2 rest v h1 h2 => ?_,
    fun si sense table r rest v => ⟨encodePipeline_enum_sole sense si, encodePipeline_enum_notSole sense si,
      fun henum hpass => ?_, fun henum hnone stop hstop => ?_⟩⟩
  · obtain ⟨hboth, hskips⟩ := encodePipeline_twoSlots (sense := sense) (si := si) (rest := rest) (v := v) h1 h2
    refine ⟨fun n1 n2 => (hboth n1 n2).trans ?_, hskips⟩
    cases encodePipeline sense si [r1] v <;> rfl
  · rw [encodePipeline_enum_second table henum]
    cases hnone : isNone r with
    | true => rw [eq_none_of_isNone hnone]; rfl
    | false =>
      obtain ⟨v', hv'⟩ := hpass.resolve_left (by simp [hnone])
      rw [← encodePipeline_single hnone henum, hv']
      rfl
  · rw [encodePipeline_enum_second table henum, ← encodePipeline_single hnone henum, hstop]
    rfl

/-! ## The way back (R308) -/

/-- In a value of a two's-complement range every bit from the range's sign bit on is the sign. -/
theorem getLsbD_eq_msb_of_bounded {v : U64} {n i : Nat} (hlo : -(2 ^ n : Int) ≤ v.toInt)
    (hhi : v.toInt < (2 ^ n : Int)) (hn : n ≤ i) (hi : i < 64) : v.getLsbD i = v.msb := by
  have hpow : ((2 ^ n : Nat) : Int) = 2 ^ n := by norm_cast
  have hmono : 2 ^ n ≤ 2 ^ i := Nat.pow_le_pow_right (by decide) hn
  cases hmsb : v.msb with
  | false =>
    rw [BitVec.toInt_eq_toNat_of_msb hmsb] at hhi
    have hlt : v.toNat < 2 ^ i := by omega
    exact Nat.testBit_lt_two_pow hlt
  | true =>
    rw [BitVec.toInt_eq_msb_cond, if_pos hmsb] at hlo
    have hlt : (~~~ v).toNat < 2 ^ i := by
      rw [BitVec.toNat_not]
      omega
    have hnot : (~~~ v).getLsbD i = false := Nat.testBit_lt_two_pow hlt
    simpa [hi] using hnot

section
variable {v raw : U64} {n : Nat}

/-- Sign extension of a raw value that has a bounded value's low bits gives back a negative value, and leaves the raw
value of another as it is. -/
theorem sext_of_bounded (h1 : 1 ≤ n) (h64 : n ≤ 64) (hlo : -(2 ^ (n - 1) : Int) ≤ v.toInt)
    (hhi : v.toInt < (2 ^ (n - 1) : Int)) (hlow : ∀ i < n, raw.getLsbD i = v.getLsbD i) :
    sext n raw = .ok (if v.msb then v else raw) := by
  have hsign : raw.getLsbD (n - 1) = v.msb :=
    (hlow (n - 1) (by omega)).trans (getLsbD_eq_msb_of_bounded hlo hhi le_rfl (by omega))
  rw [sext_of_width h1 h64, hsign]
  cases hmsb : v.msb with
  | false => rfl
  | true =>
    refine congrArg Except.ok (BitVec.eq_of_getLsbD_eq fun i hi => ?_)
    rw [if_pos rfl, if_pos rfl, BitVec.getLsbD_or, BitVec.getLsbD_not, getLsbD_maxValue]
    by_cases hin : i < n
    · rw [hlow i hin]
      simp [hin, hi]
    · rw [getLsbD_eq_msb_of_bounded hlo hhi (by omega) hi, hmsb]
      simp [hin, hi]

/-- A nonnegative value of a two's-complement range is its own low bits. -/
theorem lt_two_pow_of_bounded (hhi : v.toInt < (2 ^ (n - 1) : Int)) (hmsb : v.msb = false) : v.toNat < 2 ^ n := by
  have hpow : ((2 ^ (n - 1) : Nat) : Int) = 2 ^ (n - 1) := by norm_cast
  have hmono : 2 ^ (n - 1) ≤ 2 ^ n := Nat.pow_le_pow_right (by decide) (Nat.sub_le n 1)
  rw [BitVec.toInt_eq_toNat_of_msb hmsb] at hhi
  omega

/-- Trimming a raw value to the bits it shares with a value that they hold gives the value. -/
theorem and_maxValue_of_low (h64 : n ≤ 64) (hlt : v.toNat < 2 ^ n)
    (hlow : ∀ i < n, raw.getLsbD i = v.getLsbD i) : raw &&& maxValue n = v := by
  rw [← and_maxValue_of_lt h64 hlt]
  refine BitVec.eq_of_getLsbD_eq fun i _ => ?_
  simp only [BitVec.getLsbD_and, getLsbD_maxValue]
  by_cases hin : i < n
  · simp [hin, hlow i hin]
  · simp [hin]

theorem getLsbD_fieldTypeRaw_low (h64 : n ≤ 64) (dup : Bool) {i : Nat} (hi : i < n) :
    (fieldTypeRaw n dup v).getLsbD i = v.getLsbD i := by
  have hi64 : i < 64 := by omega
  cases dup <;> simp [fieldTypeRaw, getLsbD_maxValue, hi, hi64]

/-- The duplicate of a nonnegative value does not make the raw value negative (R294, R307). -/
theorem msb_fieldTypeRaw {dup : Bool} (h1 : 1 ≤ n) (hdup : dup = true → 2 * n ≤ 64)
    (hlo : -(2 ^ (n - 1) : Int) ≤ v.toInt) (hhi : v.toInt < (2 ^ (n - 1) : Int)) (hmsb : v.msb = false) :
    (fieldTypeRaw n dup v).getLsbD 63 = false := by
  have htop : v.getLsbD 63 = false := (BitVec.msb_eq_getLsbD_last v).symm.trans hmsb
  cases dup with
  | false => simp only [fieldTypeRaw, Bool.false_eq_true, if_false, BitVec.getLsbD_and, htop, Bool.false_and]
  | true =>
    have hwidth := hdup rfl
    have hcopy : v.getLsbD (63 - n) = false :=
      (getLsbD_eq_msb_of_bounded hlo hhi (by omega) (by omega)).trans hmsb
    simp only [fieldTypeRaw, if_true, BitVec.getLsbD_or, BitVec.getLsbD_shiftLeft, BitVec.getLsbD_and, htop, hcopy,
      Bool.false_and, Bool.and_false, Bool.or_false]

theorem decode_encode_unrestricted {sense : MaskSense} {signed : Bool} (h1 : 1 ≤ n) (h64 : n ≤ 64)
    (h : encodePipeline sense ⟨signed, n⟩ [] v = .ok raw) : decodePipeline ⟨signed, n⟩ [] raw = .ok v := by
  rw [encodePipeline_unrestricted (List.forall_mem_nil _), bind_guardValue_eq_ok] at h
  obtain ⟨hfits, rfl⟩ := h
  rw [decodePipeline_nil]
  cases signed with
  | false =>
    rw [fits_unsigned h64] at hfits
    rw [and_maxValue_of_lt h64 (of_decide_eq_true (Except.ok.inj hfits))]
    rfl
  | true =>
    rw [fits_signed h1 h64] at hfits
    obtain ⟨hlo, hhi⟩ := of_decide_eq_true (Except.ok.inj hfits)
    have hext := sext_of_bounded h1 h64 hlo hhi fun _ => getLsbD_fieldTypeRaw_low h64 false
    refine hext.trans (congrArg Except.ok ?_)
    cases hmsb : v.msb with
    | true => rfl
    | false => exact and_maxValue_of_lt h64 (lt_two_pow_of_bounded hhi hmsb)

theorem decode_encode_fieldType {sense : MaskSense} {si : SignInfo} {signed dup : Bool} (h1 : 1 ≤ n)
    (h64 : n ≤ 64) (hdup : dup = true → 2 * n ≤ 64)
    (h : encodePipeline sense si [.fieldType n signed dup] v = .ok raw) :
    decodePipeline ⟨signed, n⟩ [.fieldType n signed dup] raw = .ok v := by
  rw [encodePipeline_fieldType, bind_guardValue_eq_ok] at h
  obtain ⟨hfits, rfl⟩ := h
  have hlow : ∀ i < n, (fieldTypeRaw n dup v).getLsbD i = v.getLsbD i := fun _ => getLsbD_fieldTypeRaw_low h64 dup
  cases signed with
  | false =>
    rw [fits_unsigned h64] at hfits
    rw [decodePipeline_single (decodePipeline_nil _ _), decodeOne_fieldType h64 (fun _ => h1)]
    exact congrArg Except.ok (and_maxValue_of_low h64 (of_decide_eq_true (Except.ok.inj hfits)) hlow)
  | true =>
    rw [fits_signed h1 h64] at hfits
    obtain ⟨hlo, hhi⟩ := of_decide_eq_true (Except.ok.inj hfits)
    have hext := (decodePipeline_nil ⟨true, n⟩ _).trans (sext_of_bounded h1 h64 hlo hhi hlow)
    rw [decodePipeline_single hext, decodeOne_fieldType h64 (fun _ => h1)]
    refine congrArg Except.ok ?_
    cases hmsb : v.msb with
    | true =>
      have htop : v.getLsbD 63 = true := (BitVec.msb_eq_getLsbD_last v).symm.trans hmsb
      simp only [if_true, htop, and_self]
    | false =>
      simp only [msb_fieldTypeRaw h1 hdup hlo hhi hmsb, Bool.false_eq_true, and_false, if_false]
      exact and_maxValue_of_low h64 (lt_two_pow_of_bounded hhi hmsb) hlow

/-- The index a value encodes as names a slot that holds the value (R308 item b). -/
theorem decode_encode_enum {sense : MaskSense} {si : SignInfo} {table : List (Option U64)}
    (hlen : table.length ≤ 2 ^ 64) (h : encodePipeline sense si [.enum table] v = .ok raw)
    (hraw : decodePipeline si [] raw = .ok raw) : decodePipeline si [.enum table] raw = .ok v := by
  cases hk : table.idxOf? (some v) with
  | none =>
    rw [encodePipeline_enum_noSlot sense si hk] at h
    cases h
  | some k =>
    rw [encodePipeline_enum_slot sense si hk] at h
    obtain rfl := Except.ok.inj h
    obtain ⟨hslot, -⟩ := idxOf?_eq_some_iff_getElem?.1 hk
    have hlt : k < table.length := (List.getElem?_eq_some_iff.1 hslot).1
    rw [decodePipeline_single hraw]
    refine decodeOne_enum_slot ?_
    rwa [BitVec.toNat_ofNat, Nat.mod_eq_of_lt (by omega)]

end

/-- Settles O47: the bound check leaves exactly the values that sign extension and the trim give back. -/
theorem acceptedValuesDecodeBack : Obligations.AcceptedValuesDecodeBack :=
  ⟨fun _ _ _ _ _ _ _ h1 h64 hdup =>
    ⟨decode_encode_unrestricted h1 h64, decode_encode_fieldType h1 h64 hdup⟩,
   fun _ _ _ _ _ hlen => decode_encode_enum hlen⟩

end Sys2Proof.Proofs
end

section
/-! SUPPORT. The worklist of a build (R333): the order in which the fields are applied, what a finished build is
made of, and how a build fails (R334, R340, R350, R354). -/

namespace Sys2Proof.Proofs

open Sys2Proof Sys2Proof.Machine Sys2Proof.Claims Sys2Proof.Laws

/-! ## The order of application (R333) -/

section
variable {σ : Type} {apply : FieldId → σ → Res (Option σ)}

theorem replay_append {l1 l2 : List FieldId} {a b c : σ} (h1 : Replay apply l1 a b) (h2 : Replay apply l2 b c) :
    Replay apply (l1 ++ l2) a c := by
  induction l1 generalizing a with
  | nil => cases h1; exact h2
  | cons f fs ih =>
    obtain ⟨m, hm, hrest⟩ := h1
    exact ⟨m, hm, ih hrest⟩

/-- Every field of a replayed order is applied at some turn. -/
theorem exists_applied_of_replay {order : List FieldId} {a b : σ} (h : Replay apply order a b) {f : FieldId}
    (hf : f ∈ order) : ∃ t t', apply f t = .ok (some t') := by
  induction order generalizing a with
  | nil => cases hf
  | cons g fs ih =>
    obtain ⟨m, hm, hrest⟩ := h
    rcases List.mem_cons.1 hf with rfl | hf
    · exact ⟨a, m, hm⟩
    · exact ih hrest hf

/-- A pass splits its fields into those it applied, in turn, and those it deferred. -/
theorem sweep_ok {fs deferred done : List FieldId} {t t' : σ} (h : sweep apply fs t = .ok (t', deferred, done)) :
    (done ++ deferred).Perm fs ∧ Replay apply done t t' := by
  induction fs generalizing t deferred done with
  | nil => cases h; exact ⟨.nil, rfl⟩
  | cons f fs ih =>
    unfold sweep at h
    split at h
    · cases h
    · split at h
      · cases h
      · next hs =>
        cases h
        obtain ⟨hperm, hreplay⟩ := ih hs
        exact ⟨List.perm_middle.trans (hperm.cons f), hreplay⟩
    · next t1 happly =>
      split at h
      · cases h
      · next hs =>
        cases h
        obtain ⟨hperm, hreplay⟩ := ih hs
        exact ⟨hperm.cons f, t1, happly, hreplay⟩

/-- A pass ends a command only as some application does. -/
theorem sweep_error {fs : List FieldId} {t : σ} {stop : Stop} (h : sweep apply fs t = .error stop) :
    ∃ f t', apply f t' = .error stop := by
  induction fs generalizing t with
  | nil => cases h
  | cons f fs ih =>
    unfold sweep at h
    split at h
    · next happly => cases h; exact ⟨f, t, happly⟩
    · split at h
      · next hs => cases h; exact ih hs
      · cases h
    · split at h
      · next hs => cases h; exact ih hs
      · cases h

/-- The passes that end apply every field of the worklist once, after those applied before. -/
theorem passes_ok {n : Nat} {work order order' : List FieldId} {t final : σ}
    (h : passes apply n work t order = .ok (final, order')) :
    ∃ rest, order' = order ++ rest ∧ rest.Perm work ∧ Replay apply rest t final := by
  induction n generalizing work t order with
  | zero =>
    cases work with
    | nil => cases h; exact ⟨[], (List.append_nil _).symm, .nil, rfl⟩
    | cons f fs => cases h
  | succ n ih =>
    cases work with
    | nil => cases h; exact ⟨[], (List.append_nil _).symm, .nil, rfl⟩
    | cons f fs =>
      cases hs : sweep apply (f :: fs) t with
      | error stop => simp only [passes, hs] at h; cases h
      | ok r =>
        obtain ⟨t1, deferred, done⟩ := r
        simp only [passes, hs] at h
        split at h
        · cases h
        · obtain ⟨hperm, hreplay⟩ := sweep_ok hs
          obtain ⟨rest, rfl, hrest, hlater⟩ := ih h
          exact ⟨done ++ rest, List.append_assoc .., (hrest.append_left done).trans hperm,
            replay_append hreplay hlater⟩

/-- The passes end a command as some application does, or with `BadCompactEncoding`. -/
theorem passes_error {n : Nat} {work order : List FieldId} {t : σ} {stop : Stop}
    (h : passes apply n work t order = .error stop) :
    stop = .raise .badCompactEncoding ∨ ∃ f t', apply f t' = .error stop := by
  induction n generalizing work t order with
  | zero =>
    cases work with
    | nil => cases h
    | cons f fs => cases h; exact .inl rfl
  | succ n ih =>
    cases work with
    | nil => cases h
    | cons f fs =>
      cases hs : sweep apply (f :: fs) t with
      | error e => simp only [passes, hs] at h; cases h; exact .inr (sweep_error hs)
      | ok r =>
        simp only [passes, hs] at h
        split at h
        · cases h; exact .inl rfl
        · exact ih h

/-- A build that ends applies every field once, in the order it answers (R333). -/
theorem runFixedPoint_ok {fields : Nat} {start final : σ} {order : List FieldId}
    (h : runFixedPoint fields apply start = .ok (final, order)) :
    order.Perm (List.range fields) ∧ Replay apply order start final := by
  cases hs : sweep apply (List.range fields) start with
  | error stop => simp only [runFixedPoint, hs] at h; cases h
  | ok r =>
    obtain ⟨t1, deferred, done⟩ := r
    simp only [runFixedPoint, hs] at h
    obtain ⟨hperm, hreplay⟩ := sweep_ok hs
    obtain ⟨rest, rfl, hrest, hlater⟩ := passes_ok h
    exact ⟨(hrest.append_left done).trans hperm, replay_append hreplay hlater⟩

/-- A build fails as some application does, or with `BadCompactEncoding` (R333, R334). -/
theorem runFixedPoint_error {fields : Nat} {start : σ} {stop : Stop}
    (h : runFixedPoint fields apply start = .error stop) :
    stop = .raise .badCompactEncoding ∨ ∃ f t, apply f t = .error stop := by
  cases hs : sweep apply (List.range fields) start with
  | error e => simp only [runFixedPoint, hs] at h; cases h; exact .inr (sweep_error hs)
  | ok r => simp only [runFixedPoint, hs] at h; exact passes_error h

end

/-- Settles O48: a build that ended would have applied the field that is always deferred, so such a build fails,
and only the worklist itself can fail it. -/
theorem buildsApplyEveryFieldOnceOrFail : Obligations.BuildsApplyEveryFieldOnceOrFail := by
  refine fun σ fields apply start => ⟨fun final order => runFixedPoint_ok, fun f hf hok hdeferred => ?_⟩
  cases hr : runFixedPoint fields apply start with
  | ok r =>
    obtain ⟨hperm, hreplay⟩ := runFixedPoint_ok hr
    obtain ⟨t, t', happlied⟩ := exists_applied_of_replay hreplay (hperm.mem_iff.2 (List.mem_range.2 hf))
    cases (hdeferred t).symm.trans happlied
  | error stop =>
    rcases runFixedPoint_error hr with rfl | ⟨g, t, herr⟩
    · rfl
    · obtain ⟨x, hx⟩ := hok g t
      cases hx.symm.trans herr

/-! ## One step of a build (R331, R333) -/

section
variable {n : Nat} {env : Env} {context : Target n → Ctx n} {maps : List MapEntry}
  {apply : FieldId → Mapping → Target n → Res (Option (Target n))} {f : FieldId} {t t' : Target n}

/-- All that a step that applies its field can do: nothing, where the field maps nothing, or the direction's
`Apply` on the mapping found. -/
theorem buildStep_applied (h : buildStep env context maps apply f t = .ok (some t')) :
    (resolveMap env (context t) maps f = .ok .absent ∧ t' = t)
    ∨ ∃ m, resolveMap env (context t) maps f = .ok (.found m) ∧ apply f m t = .ok (some t') := by
  cases hr : resolveMap env (context t) maps f with
  | error stop => simp only [buildStep, hr] at h; cases h
  | ok look =>
    cases look with
    | absent => simp only [buildStep, hr] at h; cases h; exact .inl ⟨rfl, rfl⟩
    | deferred => simp only [buildStep, hr] at h; cases h
    | found m => simp only [buildStep, hr] at h; exact .inr ⟨m, rfl, h⟩

theorem buildStep_error {stop : Stop} (h : buildStep env context maps apply f t = .error stop) :
    stop = .raise .internalError ∨ ∃ m, apply f m t = .error stop := by
  rcases resolveMap_cases env (context t) maps f with ⟨-, m, -, -, hr⟩ | hr | hr | hr
  · simp only [buildStep, hr] at h; exact .inr ⟨m, h⟩
  · simp only [buildStep, hr] at h; cases h
  · simp only [buildStep, hr] at h; cases h
  · simp only [buildStep, hr] at h; cases h; exact .inl rfl

end

/-! ## The codes of the builders (R334, R340, R350, R354) -/

theorem scatterMap_error {t : Target 4} {mf : MapFragment} {s : U64} {stop : Stop}
    (h : scatterMap t mf s = .error stop) : stop = .raise .internalError := by
  by_cases hok : mapFragOk mf = true
  · cases ht : mf.type <;> simp [scatterMap, hok, ht] at h
  · simp only [scatterMap, hok] at h; cases h; rfl

theorem scatterAll_error {frags : List MapFragment} {t : Target 4} {s : U64} {stop : Stop}
    (h : scatterAll t frags s = .error stop) : stop = .raise .internalError := by
  induction frags generalizing t with
  | nil => cases h
  | cons mf rest ih =>
    cases hm : scatterMap t mf s with
    | error e => simp only [scatterAll, hm] at h; cases h; exact scatterMap_error hm
    | ok t1 => simp only [scatterAll, hm] at h; exact ih h

theorem mappedValue_error {m : Mapping} {raw : U64} {stop : Stop} (h : mappedValue m raw = .error stop) :
    stop = .raise .badCompactEncoding := by
  cases m with
  | value frags sm => cases h
  | index frags sm table om =>
    simp only [mappedValue] at h
    split at h
    · cases h
    · cases h; rfl

theorem applyDecompact_error {env : Env} {cw : Vector Word 2} {f : FieldId} {m : Mapping} {t : Target 4}
    {stop : Stop} (h : applyDecompact env cw f m t = .error stop) :
    stop = .raise .badCompactEncoding ∨ stop = .raise .internalError := by
  unfold applyDecompact at h
  split at h
  · next hr => cases h; exact .inr (readRaw_error _ _ _ _ hr)
  · cases h
  · cases h; exact .inr rfl
  · split at h
    · next hv => cases h; exact .inl (mappedValue_error hv)
    · split at h
      · next hs => cases h; exact .inr (scatterAll_error hs)
      · cases h

theorem decompact_error {env : Env} {maps : List MapEntry} {cw : Vector Word 2} {stop : Stop}
    (h : decompact env maps cw = .error stop) : stop = .raise .badCompactEncoding ∨ stop = .raise .internalError := by
  rcases runFixedPoint_error h with hbad | ⟨f, t, hstep⟩
  · exact .inl hbad
  · rcases buildStep_error hstep with hint | ⟨m, happly⟩
    · exact .inr hint
    · exact applyDecompact_error happly

theorem buildNative_error {env : Env} {cw : Vector Word 2} {stop : Stop} (h : buildNative env cw = .error stop) :
    stop = .raise .badCompactEncoding ∨ stop = .raise .internalError := by
  unfold buildNative at h
  split at h
  · split at h
    · next hr => cases h; exact decompact_error hr
    · cases h
  · cases h; exact .inl rfl

/-- The codes a single application of compaction can end with. -/
def CompactFailure (stop : Stop) : Prop := stop = .raise .noCompactForm ∨ stop = .raise .internalError

theorem gatherMap_error {nw : Vector Word 4} {mf : MapFragment} {stop : Stop} (h : gatherMap nw mf = .error stop) :
    CompactFailure stop := by
  unfold gatherMap at h
  split at h
  · cases h; exact .inr rfl
  · split at h
    · cases h
    · split at h
      · cases h
      · cases h; exact .inl rfl
    · split at h
      · cases h
      · cases h; exact .inl rfl

theorem gatherAll_error {nw : Vector Word 4} {frags : List MapFragment} {s : U64} {stop : Stop}
    (h : gatherAll nw frags s = .error stop) : CompactFailure stop := by
  induction frags generalizing s with
  | nil => cases h
  | cons mf rest ih =>
    cases hm : gatherMap nw mf with
    | error e => simp only [gatherAll, hm] at h; cases h; exact gatherMap_error hm
    | ok x => simp only [gatherAll, hm] at h; exact ih h

theorem compactValue_error {all : Bool} {m : Mapping} {s : U64} {stop : Stop}
    (h : compactValue all m s = .error stop) : stop = .raise .noCompactForm := by
  cases m with
  | value frags sm =>
    simp only [compactValue] at h
    split at h
    · cases h
    · cases h; rfl
  | index frags sm table om =>
    simp only [compactValue] at h
    split at h
    · cases h; rfl
    · split at h
      · cases h
      · cases h; rfl

theorem insertFrags_error {n : Nat} {ps : List Fragment} {ws : Vector Word n} {raw : U64} {stop : Stop}
    (h : insertFrags ws ps raw = .error stop) : stop = .raise .internalError := by
  induction ps generalizing ws with
  | nil => cases h
  | cons p ps ih =>
    by_cases hp : fragOk n p = true
    · obtain ⟨w1, h1, -⟩ := insertFrag_spec ws raw hp
      simp only [insertFrags, h1] at h
      exact ih h
    · simp only [insertFrags, insertFrag_malformed ws raw (Bool.eq_false_of_not_eq_true hp)] at h
      cases h
      rfl

theorem placeCompact_error {t : Target 2} {entry : Terminal} {val : U64} {candidates : Option (List Nat)}
    {stop : Stop} (h : placeCompact t entry val candidates = .error stop) : CompactFailure stop := by
  unfold placeCompact at h
  split at h
  · split at h
    · cases h
    · cases h; exact .inl rfl
  · split at h
    · cases h; exact .inr rfl
    · split at h
      · cases h; exact .inl rfl
      · split at h
        · next hi => cases h; exact .inr (insertFrags_error hi)
        · cases h

theorem applyCompact_error {env : Env} {all : Bool} {nw : Vector Word 4} {f : FieldId} {m : Mapping} {t : Target 2}
    {stop : Stop} (h : applyCompact env all nw f m t = .error stop) : CompactFailure stop := by
  unfold applyCompact at h
  split at h
  · next hg => cases h; exact gatherAll_error hg
  · split at h
    · next hv => cases h; exact .inl (compactValue_error hv)
    · split at h
      · next hr => cases h; exact .inr (resolve_error _ _ _ _ hr)
      · cases h
      · cases h; exact .inl rfl
      · exact placeCompact_error h

theorem compact_error {env : Env} {all : Bool} {maps : List MapEntry} {nw : Vector Word 4} {stop : Stop}
    (h : compact env all maps nw = .error stop) : stop = .raise .badCompactEncoding ∨ CompactFailure stop := by
  rcases runFixedPoint_error h with hbad | ⟨f, t, hstep⟩
  · exact .inl hbad
  · rcases buildStep_error hstep with hint | ⟨m, happly⟩
    · exact .inr (.inr hint)
    · exact .inr (applyCompact_error happly)

theorem buildCompactTarget_error {env : Env} {all : Bool} {nw : Vector Word 4} {stop : Stop}
    (h : buildCompactTarget env all nw = .error stop) :
    stop = .raise .badCompactEncoding ∨ CompactFailure stop := by
  unfold buildCompactTarget at h
  split at h
  · split at h
    · next hr => cases h; exact compact_error hr
    · cases h
  · cases h; exact .inr (.inl rfl)

/-- Settles O52: a failed build failed at a step of its worklist, or in the worklist itself. -/
theorem buildersFailOnlyByTheirCodes : Obligations.BuildersFailOnlyByTheirCodes := by
  refine fun env nw cw stop => ⟨buildNative_error, fun h => ?_⟩
  cases ht : buildCompactTarget env false nw with
  | ok t => simp only [buildCompact, ht] at h; cases h
  | error e =>
    simp only [buildCompact, ht] at h
    cases h
    rcases buildCompactTarget_error ht with hbad | hnone | hint
    · exact .inr (.inl hbad)
    · exact .inl hnone
    · exact .inr (.inr hint)

end Sys2Proof.Proofs
end

section
/-! SUPPORT. What decompaction writes, bit by bit: one mapping fragment, the fragments of a mapping, a whole build,
and how gathering reads it back (R341 to R345, R351, R355, R359). -/

namespace Sys2Proof.Proofs

open Sys2Proof Sys2Proof.Machine Sys2Proof.Claims Sys2Proof.Laws

/-! ## Well-formed mapping fragments (R149) -/

section
variable {mf : MapFragment}

theorem dst_of_mapFragOk (h : mapFragOk mf = true) :
    mf.dstLow ≤ mf.dstHigh ∧ mf.dstHigh < 128 ∧ mf.dstLow / 32 = mf.dstHigh / 32 := by
  rw [mapFragOk, Bool.and_eq_true] at h
  obtain ⟨hdst, -⟩ := h
  exact (dstOk_iff mf).1 hdst

theorem dstWidth_of_oneToOne (h : mapFragOk mf = true) (ht : mf.type = .oneToOne) : dstWidth mf = srcWidth mf := by
  simp only [mapFragOk, ht, Bool.and_eq_true, beq_iff_eq] at h
  obtain ⟨-, -, hwidth⟩ := h
  exact hwidth

/-- The copies of a replicated source fill the native range (R150). -/
theorem dstWidth_of_replicate (h : mapFragOk mf = true) (ht : mf.type = .replicate) :
    dstWidth mf = copies mf * srcWidth mf := by
  simp only [mapFragOk, ht, Bool.and_eq_true, beq_iff_eq] at h
  obtain ⟨-, -, hdvd⟩ := h
  exact (Nat.div_mul_cancel (Nat.dvd_of_mod_eq_zero hdvd)).symm

theorem fixedValue_lt (h : mapFragOk mf = true) (ht : mf.type = .fixed) :
    mf.fixedValue.toNat < 2 ^ dstWidth mf := by
  obtain ⟨hle, -, hword⟩ := dst_of_mapFragOk h
  have h64 : dstWidth mf ≤ 64 := by simp only [dstWidth]; omega
  simp only [mapFragOk, ht, Bool.and_eq_true, decide_eq_true_eq, toNat_maxValue h64] at h
  have hpos : 0 < 2 ^ dstWidth mf := Nat.two_pow_pos _
  omega

end

/-! ## One mapping fragment scattered (R342) -/

/-- Bit `i` of the native range of a mapping fragment through which `x` is scattered (R149, R150). -/
def scatteredBit (mf : MapFragment) (x : U64) (i : Nat) : Bool :=
  match mf.type with
  | .oneToOne => x.getLsbD (mf.srcLo + i)
  | .replicate => x.getLsbD (mf.srcLo + i % srcWidth mf)
  | .fixed => mf.fixedValue.getLsbD i

/-- The first `k` copies of a replicated source (R150). -/
def writeCopies (t : Target 4) (mf : MapFragment) (x : U64) (k : Nat) : Target 4 :=
  (List.range k).foldl
    (fun t j => writeRange t (copyLow mf j) (copyLow mf j + srcWidth mf - 1) (x >>> mf.srcLo)) t

theorem writeCopies_succ (t : Target 4) (mf : MapFragment) (x : U64) (k : Nat) : writeCopies t mf x (k + 1)
    = writeRange (writeCopies t mf x k) (copyLow mf k) (copyLow mf k + srcWidth mf - 1) (x >>> mf.srcLo) := by
  simp only [writeCopies, List.range_succ, List.foldl_append, List.foldl_cons, List.foldl_nil]

theorem bitAt_writeCopies {mf : MapFragment} (hok : mapFragOk mf = true) (ht : mf.type = .replicate) (t : Target 4)
    (x : U64) (b : Nat) {k : Nat} (hk : k ≤ copies mf) : bitAt (writeCopies t mf x k).words b
      = if mf.dstLow ≤ b ∧ b < mf.dstLow + k * srcWidth mf then x.getLsbD (mf.srcLo + (b - mf.dstLow) % srcWidth mf)
        else bitAt t.words b := by
  obtain ⟨hle, h128, hword⟩ := dst_of_mapFragOk hok
  have hdvd : dstWidth mf % srcWidth mf = 0 := by rw [dstWidth_of_replicate hok ht, Nat.mul_mod_left]
  have hpos : 0 < srcWidth mf := Nat.succ_pos _
  induction k with
  | zero => rw [if_neg (by omega)]; rfl
  | succ k ih =>
    obtain ⟨hlow, hhigh⟩ := copy_inside hle hdvd hk
    have hstart : copyLow mf k = mf.dstLow + k * srcWidth mf := rfl
    rw [writeCopies_succ, bitAt_writeRange _ _ _ _ _ (by omega) (by omega) (by omega), ih (by omega),
      Nat.succ_mul]
    by_cases hcopy : copyLow mf k ≤ b ∧ b ≤ copyLow mf k + srcWidth mf - 1
    · have hoffset : (b - mf.dstLow) % srcWidth mf = b - copyLow mf k := by
        rw [show b - mf.dstLow = srcWidth mf * k + (b - copyLow mf k) by rw [Nat.mul_comm]; omega,
          Nat.mul_add_mod, Nat.mod_eq_of_lt (by omega)]
      rw [if_pos hcopy, if_pos (by omega), BitVec.getLsbD_ushiftRight, hoffset]
    · rw [if_neg hcopy]
      exact if_congr (by omega) rfl rfl

/-- A mapping fragment scattered: its native range takes its bits, every other bit stays (R342). -/
theorem bitAt_scatterMap {t t' : Target 4} {mf : MapFragment} {x : U64} (h : scatterMap t mf x = .ok t') (b : Nat) :
    bitAt t'.words b
      = if mf.dstLow ≤ b ∧ b ≤ mf.dstHigh then scatteredBit mf x (b - mf.dstLow) else bitAt t.words b := by
  by_cases hok : mapFragOk mf = true
  · obtain ⟨hle, h128, hword⟩ := dst_of_mapFragOk hok
    cases ht : mf.type with
    | oneToOne =>
      simp only [scatterMap, hok, ht, Bool.not_true, Bool.false_eq_true, if_false, Except.ok.injEq] at h
      rw [← h, bitAt_writeRange t _ _ _ _ hle hword h128, BitVec.getLsbD_ushiftRight]
      simp only [scatteredBit, ht]
    | replicate =>
      simp only [scatterMap, hok, ht, Bool.not_true, Bool.false_eq_true, if_false, Except.ok.injEq] at h
      have hcopies : t' = writeCopies t mf x (copies mf) := h.symm
      have hwidth : dstWidth mf = mf.dstHigh - mf.dstLow + 1 := rfl
      rw [hcopies, bitAt_writeCopies hok ht t x b le_rfl, ← dstWidth_of_replicate hok ht]
      simp only [scatteredBit, ht]
      exact if_congr (by omega) rfl rfl
    | fixed =>
      simp only [scatterMap, hok, ht, Bool.not_true, Bool.false_eq_true, if_false, Except.ok.injEq] at h
      rw [← h, bitAt_writeRange t _ _ _ _ hle hword h128]
      simp only [scatteredBit, ht]
  · simp only [scatterMap, hok] at h
    cases h

/-! ## The fragments of a mapping (R341) -/

theorem bitAt_scatterAll_uncovered {frags : List MapFragment} {t t' : Target 4} {x : U64} {b : Nat}
    (h : scatterAll t frags x = .ok t') (hb : ∀ mf ∈ frags, ¬(mf.dstLow ≤ b ∧ b ≤ mf.dstHigh)) :
    bitAt t'.words b = bitAt t.words b := by
  induction frags generalizing t with
  | nil => cases h; rfl
  | cons mf rest ih =>
    cases hm : scatterMap t mf x with
    | error stop => simp only [scatterAll, hm] at h; cases h
    | ok t1 =>
      simp only [scatterAll, hm] at h
      rw [ih h fun q hq => hb q (List.mem_cons_of_mem _ hq), bitAt_scatterMap hm, if_neg (hb mf List.mem_cons_self)]

/-- Where the native ranges are disjoint, each holds what its own fragment scattered (R359). -/
theorem bitAt_scatterAll {frags : List MapFragment} {t t' : Target 4} {x : U64}
    (hdisjoint : frags.Pairwise fun a b => a.dstHigh < b.dstLow ∨ b.dstHigh < a.dstLow)
    (h : scatterAll t frags x = .ok t') {mf : MapFragment} (hmf : mf ∈ frags) {b : Nat}
    (hb : mf.dstLow ≤ b ∧ b ≤ mf.dstHigh) : bitAt t'.words b = scatteredBit mf x (b - mf.dstLow) := by
  induction frags generalizing t with
  | nil => cases hmf
  | cons q rest ih =>
    obtain ⟨hq, hrest⟩ := List.pairwise_cons.1 hdisjoint
    cases hm : scatterMap t q x with
    | error stop => simp only [scatterAll, hm] at h; cases h
    | ok t1 =>
      simp only [scatterAll, hm] at h
      rcases List.mem_cons.1 hmf with rfl | hmf
      · have hlater : ∀ p ∈ rest, ¬(p.dstLow ≤ b ∧ b ≤ p.dstHigh) := by
          intro p hp
          have := hq p hp
          omega
        rw [bitAt_scatterAll_uncovered h hlater, bitAt_scatterMap hm, if_pos hb]
      · exact ih hrest h hmf

/-! ## Gathering (R351, R355) -/

theorem getLsbD_nRange (nw : Vector Word 4) {lo hi : Nat} (hword : lo / 32 = hi / 32) (i : Nat) :
    (nRange nw lo hi).getLsbD i = (decide (i < hi - lo + 1) && bitAt nw (lo + i)) := by
  rw [nRange, getLsbD_getBits]
  by_cases hi' : i < hi - lo + 1
  · by_cases hle : lo ≤ hi
    · simp only [bitAt, Config.wordBits, show (lo + i) / 32 = lo / 32 by omega,
        show (lo + i) % 32 = lo % 32 + i by omega]
    · simp only [bitAt, Config.wordBits, show i = 0 by omega, Nat.add_zero]
  · simp only [hi', decide_false, Bool.false_and]

/-- The bits of the compact-side value that gathering a mapping fragment gives back: those of its source range, and
none for a `Fixed` one (R351). -/
def sourceBits (mf : MapFragment) : U64 :=
  if mf.type = .fixed then 0 else maxValue (srcWidth mf) <<< mf.srcLo

/-- A value that holds a source range's bits, moved to their place. -/
theorem shiftLeft_eq_and_sourceBits {mf : MapFragment} {x v : U64} (ht : mf.type ≠ .fixed)
    (hv : ∀ i, v.getLsbD i = (decide (i < srcWidth mf) && x.getLsbD (mf.srcLo + i))) :
    v <<< mf.srcLo = x &&& sourceBits mf := by
  refine BitVec.eq_of_getLsbD_eq fun i hi => ?_
  simp only [sourceBits, if_neg ht, BitVec.getLsbD_and, BitVec.getLsbD_shiftLeft, getLsbD_maxValue, hv]
  by_cases hlo : i < mf.srcLo
  · simp [hlo]
  · rw [show mf.srcLo + (i - mf.srcLo) = i by omega]
    simp [hlo, hi, show i - mf.srcLo < 64 by omega, Bool.and_comm]

/-- Each copy of a replicated source reads back the source (R345). -/
theorem getLsbD_copyBits {nw : Vector Word 4} {mf : MapFragment} {x : U64} (hok : mapFragOk mf = true)
    (ht : mf.type = .replicate)
    (hbits : ∀ b, mf.dstLow ≤ b ∧ b ≤ mf.dstHigh → bitAt nw b = scatteredBit mf x (b - mf.dstLow))
    {j : Nat} (hj : j < copies mf) (i : Nat) :
    (copyBits nw mf j).getLsbD i = (decide (i < srcWidth mf) && x.getLsbD (mf.srcLo + i)) := by
  obtain ⟨hle, -, hword⟩ := dst_of_mapFragOk hok
  have hdvd : dstWidth mf % srcWidth mf = 0 := by rw [dstWidth_of_replicate hok ht, Nat.mul_mod_left]
  obtain ⟨hlow, hhigh⟩ := copy_inside hle hdvd hj
  have hpos : 0 < srcWidth mf := Nat.succ_pos _
  rw [copyBits, getLsbD_nRange nw (by omega),
    show copyLow mf j + srcWidth mf - 1 - copyLow mf j + 1 = srcWidth mf by omega]
  by_cases hi : i < srcWidth mf
  · have hoffset : (copyLow mf j + i - mf.dstLow) % srcWidth mf = i := by
      rw [show copyLow mf j + i - mf.dstLow = srcWidth mf * j + i by rw [copyLow, Nat.mul_comm]; omega,
        Nat.mul_add_mod, Nat.mod_eq_of_lt hi]
    rw [hbits _ (by omega)]
    simp only [scatteredBit, ht, hoffset]
  · simp only [hi, decide_false, Bool.false_and]

/-- A mapping fragment gathered from words that hold what it scattered (R351, R355). -/
theorem gatherMap_scattered {nw : Vector Word 4} {mf : MapFragment} {x : U64} (hok : mapFragOk mf = true)
    (hbits : ∀ b, mf.dstLow ≤ b ∧ b ≤ mf.dstHigh → bitAt nw b = scatteredBit mf x (b - mf.dstLow)) :
    gatherMap nw mf = .ok (x &&& sourceBits mf) := by
  obtain ⟨hle, -, hword⟩ := dst_of_mapFragOk hok
  have hrange : ∀ i, (nRange nw mf.dstLow mf.dstHigh).getLsbD i
      = (decide (i < dstWidth mf) && scatteredBit mf x i) := by
    intro i
    rw [getLsbD_nRange nw hword]
    by_cases hi : i < dstWidth mf
    · have hwidth : dstWidth mf = mf.dstHigh - mf.dstLow + 1 := rfl
      rw [hbits _ (by omega), Nat.add_sub_cancel_left]
      rfl
    · simp only [dstWidth] at hi
      simp only [dstWidth, hi, decide_false, Bool.false_and]
  cases ht : mf.type with
  | oneToOne =>
    have hshift := shiftLeft_eq_and_sourceBits (mf := mf) (x := x) (by rw [ht]; decide)
      fun i => (hrange i).trans (by rw [dstWidth_of_oneToOne hok ht, scatteredBit, ht])
    simp only [gatherMap, hok, ht, Bool.not_true, Bool.false_eq_true, if_false, hshift]
  | replicate =>
    have hcopy := fun {j : Nat} (hj : j < copies mf) => getLsbD_copyBits hok ht hbits hj
    have hzero : 0 < copies mf := by
      refine Nat.pos_of_ne_zero fun h0 => ?_
      have := dstWidth_of_replicate hok ht
      rw [h0, Nat.zero_mul] at this
      exact Nat.succ_ne_zero _ this
    have hall : (List.range (copies mf)).all (fun j => copyBits nw mf j == copyBits nw mf 0) = true := by
      refine List.all_eq_true.2 fun j hj => beq_iff_eq.2 (BitVec.eq_of_getLsbD_eq fun i _ => ?_)
      rw [hcopy (List.mem_range.1 hj), hcopy hzero]
    have hshift := shiftLeft_eq_and_sourceBits (by rw [ht]; decide) (hcopy hzero)
    simp only [gatherMap, hok, ht, Bool.not_true, Bool.false_eq_true, if_false, hall, if_true, hshift]
  | fixed =>
    have h64 : dstWidth mf ≤ 64 := by simp only [dstWidth]; omega
    have hfixed : nRange nw mf.dstLow mf.dstHigh = mf.fixedValue := by
      rw [← and_maxValue_of_lt h64 (fixedValue_lt hok ht)]
      refine BitVec.eq_of_getLsbD_eq fun i hi => ?_
      rw [hrange, BitVec.getLsbD_and, getLsbD_maxValue, Bool.and_comm]
      simp [scatteredBit, ht, hi]
    simp [gatherMap, hok, ht, hfixed, sourceBits]

/-- The source bits of a list of mapping fragments, with those of a mask (R351). -/
def addSourceBits (m : U64) (mf : MapFragment) : U64 :=
  if mf.type = .fixed then m else m ||| (BitVec.ofNat 64 (2 ^ (mf.srcHi - mf.srcLo + 1) - 1) <<< mf.srcLo)

theorem addSourceBits_eq (m : U64) (mf : MapFragment) : addSourceBits m mf = m ||| sourceBits mf := by
  by_cases ht : mf.type = .fixed
  · simp [addSourceBits, sourceBits, ht]
  · simp only [addSourceBits, sourceBits, ht, if_false]
    rfl

theorem gatherAll_scattered {nw : Vector Word 4} {x : U64} {frags : List MapFragment}
    (hok : ∀ mf ∈ frags, mapFragOk mf = true)
    (hbits : ∀ mf ∈ frags, ∀ b, mf.dstLow ≤ b ∧ b ≤ mf.dstHigh → bitAt nw b = scatteredBit mf x (b - mf.dstLow))
    (m : U64) : gatherAll nw frags (x &&& m) = .ok (x &&& frags.foldl addSourceBits m) := by
  induction frags generalizing m with
  | nil => rfl
  | cons mf rest ih =>
    have hmf := gatherMap_scattered (hok mf List.mem_cons_self) (hbits mf List.mem_cons_self)
    have hjoin : (x &&& m) ||| (x &&& sourceBits mf) = x &&& addSourceBits m mf := by
      rw [addSourceBits_eq]
      exact BitVec.eq_of_getLsbD_eq fun i _ => by
        simp only [BitVec.getLsbD_or, BitVec.getLsbD_and, Bool.and_or_distrib_left]
    simp only [gatherAll, hmf, hjoin, List.foldl_cons]
    exact ih (fun q hq => hok q (List.mem_cons_of_mem _ hq)) (fun q hq => hbits q (List.mem_cons_of_mem _ hq)) _

/-- Settles O50: every native range holds what its own fragment scattered, and gathers to the fragment's source
bits. -/
theorem gatherAfterScatter : Obligations.GatherAfterScatter := by
  intro t t' frags x hok hdisjoint h
  have hgather := gatherAll_scattered hok (fun mf hmf b hb => bitAt_scatterAll hdisjoint h hmf hb) 0
  rw [show x &&& 0 = 0 from BitVec.and_zero] at hgather
  exact hgather

/-! ## The bits of a decompaction (R343, R344) -/

theorem applyDecompact_applied {env : Env} {cw : Vector Word 2} {f : FieldId} {m : Mapping} {t t' : Target 4}
    (h : applyDecompact env cw f m t = .ok (some t')) : t' = t ∨ ∃ s, scatterAll t (mapFrags m) s = .ok t' := by
  unfold applyDecompact at h
  split at h
  · cases h
  · cases h; exact .inl rfl
  · cases h
  · split at h
    · cases h
    · next s _ =>
      split at h
      · cases h
      · next hs => cases h; exact .inr ⟨s, hs⟩

section
variable {env : Env} {maps : List MapEntry} {cw : Vector Word 2}

/-- A native bit of the target covered by a fragment of the mapping that a field resolves to on it (R331). -/
def MappedAt (env : Env) (maps : List MapEntry) (f : FieldId) (t : Target 4) (b : Nat) : Prop :=
  ∃ m mf, resolveMap env (nativeTarget env t) maps f = .ok (.found m) ∧ mf ∈ mapFrags m
    ∧ mf.dstLow ≤ b ∧ b ≤ mf.dstHigh

/-- A step of a decompaction sets no bit but those its field's mapping covers. -/
theorem bit_of_decompactStep {f : FieldId} {t t' : Target 4} {b : Nat}
    (h : buildStep env (nativeTarget env) maps (applyDecompact env cw) f t = .ok (some t'))
    (hb : bitAt t'.words b = true) : bitAt t.words b = true ∨ MappedAt env maps f t b := by
  rcases buildStep_applied h with ⟨-, rfl⟩ | ⟨m, hm, happly⟩
  · exact .inl hb
  · rcases applyDecompact_applied happly with rfl | ⟨s, hs⟩
    · exact .inl hb
    · by_cases hcov : ∃ mf ∈ mapFrags m, mf.dstLow ≤ b ∧ b ≤ mf.dstHigh
      · obtain ⟨mf, hmf, hin⟩ := hcov
        exact .inr ⟨m, mf, hm, hmf, hin⟩
      · rw [bitAt_scatterAll_uncovered hs fun mf hmf hin => hcov ⟨mf, hmf, hin⟩] at hb
        exact .inl hb

/-- A bit set after several steps was set before them or is covered by a mapping taken at one of their turns. -/
theorem bit_of_replay {order : List FieldId} {t t' : Target 4} {b : Nat}
    (h : Replay (buildStep env (nativeTarget env) maps (applyDecompact env cw)) order t t')
    (hb : bitAt t'.words b = true) : bitAt t.words b = true ∨ ∃ before f after tf, order = before ++ f :: after
      ∧ Replay (buildStep env (nativeTarget env) maps (applyDecompact env cw)) before t tf
      ∧ MappedAt env maps f tf b := by
  induction order generalizing t with
  | nil => cases h; exact .inl hb
  | cons f fs ih =>
    obtain ⟨t1, hstep, hrest⟩ := h
    rcases ih hrest with hb1 | ⟨before, g, after, tf, rfl, hbefore, hmapped⟩
    · rcases bit_of_decompactStep hstep hb1 with hb0 | hmapped
      · exact .inl hb0
      · exact .inr ⟨[], f, fs, t, rfl, rfl, hmapped⟩
    · exact .inr ⟨f :: before, g, after, tf, rfl, ⟨t1, hstep, hbefore⟩, hmapped⟩

theorem bitAt_fresh (n b : Nat) : bitAt (Target.fresh n).words b = false := by
  by_cases h : b / 32 < n <;> simp [bitAt, wordAt, Target.fresh, Config.wordBits, h]

/-- The mapping a field resolves to is one of the map's (R331). -/
theorem MappedAt.listed {f : FieldId} {t : Target 4} {b : Nat} (h : MappedAt env maps f t b) :
    ∃ e ∈ maps, ∃ m ∈ mapTerminals e, ∃ mf ∈ mapFrags m, mf.dstLow ≤ b ∧ b ≤ mf.dstHigh := by
  obtain ⟨m, mf, hm, hmf, hin⟩ := h
  rcases resolveMap_cases env (nativeTarget env t) maps f with ⟨e, m', he, hm', hr⟩ | hr | hr | hr
  · cases hm.symm.trans hr
    exact ⟨e, he, m, hm', mf, hmf, hin⟩
  all_goals cases hm.symm.trans hr

end

/-- Settles O49: the build starts from zero words, and a step sets only bits its field's mapping covers. -/
theorem decompactionLeavesUnmappedBitsZero : Obligations.DecompactionLeavesUnmappedBitsZero := by
  intro env maps cw nw hmaps h
  obtain ⟨maps', t, order, hmaps', -, hdecompact, rfl⟩ := buildNative_ok h
  cases hmaps.symm.trans hmaps'
  obtain ⟨-, hreplay⟩ := runFixedPoint_ok hdecompact
  have h29 : bitAt (setCmptCtrl t.words false) 29 = false := bitAt_setCmptCtrl t.words false 29 (by decide)
  have hset : ∀ b, bitAt (setCmptCtrl t.words false) b = true →
      ∃ before f after tf, order = before ++ f :: after
        ∧ Replay (buildStep env (nativeTarget env) maps (applyDecompact env cw)) before (Target.fresh 4) tf
        ∧ MappedAt env maps f tf b := by
    intro b hb
    have hne : b ≠ 29 := by rintro rfl; cases h29.symm.trans hb
    rw [bitAt_setCmptCtrl _ _ _ (by decide), if_neg hne] at hb
    exact (bit_of_replay hreplay hb).resolve_left (Bool.eq_false_iff.1 (bitAt_fresh 4 b))
  refine ⟨h29, fun b _ hunmapped => Bool.eq_false_of_not_eq_true fun hb => ?_, t, order, hdecompact, fun b _ hb => ?_⟩
  · obtain ⟨before, f, after, tf, -, -, hmapped⟩ := hset b hb
    obtain ⟨e, he, m, hm, mf, hmf, hin⟩ := hmapped.listed
    have := hunmapped e he m hm mf hmf
    omega
  · obtain ⟨before, f, after, tf, horder, hbefore, m, mf, hm, hmf, hin⟩ := hset b hb
    exact ⟨before, f, after, tf, m, mf, horder, hbefore, hm, hmf, hin⟩

end Sys2Proof.Proofs
end

section
/-! SUPPORT. Which index a gathered value compacts to, the picks a scratch build records, and how `ENCODE_COMPACT`
and `COUNT_COMPACTED` end (R351, R352, R356, R360, R435, R436). -/

namespace Sys2Proof.Proofs

open Sys2Proof Sys2Proof.Machine Sys2Proof.Claims Sys2Proof.Laws

/-! ## The index of an index-mapped value (R351, R356, R360) -/

/-- The places of a table whose entry stands for a gathered value under the or-mask (R356). -/
theorem matchIndices_zero (x om : U64) (entries : List U64) :
    matchIndices x om entries 0
      = (List.range entries.length).filter fun i => entries.getD i 0 ||| om == x ||| om := by
  simp only [matchIndices_eq, Nat.add_zero, List.map_id']

/-- The least matching place comes first. -/
theorem head?_matchIndices {x om y : U64} {entries : List U64} {k : Nat} (hk : entries[k]? = some y)
    (hy : y ||| om = x ||| om) (hleast : ∀ j z, j < k → entries[j]? = some z → z ||| om ≠ x ||| om) :
    (matchIndices x om entries 0).head? = some k := by
  obtain ⟨hlt, rfl⟩ := List.getElem?_eq_some_iff.1 hk
  rw [matchIndices_zero, List.head?_filter, List.find?_range_eq_some]
  refine ⟨by simpa [hlt] using hy, List.mem_range.2 hlt, fun j hj => ?_⟩
  have hj' : j < entries.length := hj.trans hlt
  simpa [hj'] using hleast j _ hj (List.getElem?_eq_getElem hj')

theorem matchIndices_eq_nil {x om : U64} {entries : List U64} (h : ∀ y ∈ entries, y ||| om ≠ x ||| om) :
    matchIndices x om entries 0 = [] := by
  rw [matchIndices_zero, List.filter_eq_nil_iff]
  intro i hi
  have hlt : i < entries.length := List.mem_range.1 hi
  simpa [hlt] using h _ (List.getElem_mem hlt)

/-- The candidates are the matching indices that fit the source mask (R360). -/
theorem candidateIndices_eq (entries : List U64) (sm om x : U64) :
    candidateIndices entries sm om x
      = (matchIndices x om entries 0).filter fun i => withinMask (BitVec.ofNat 64 i) sm := by
  rw [matchIndices_zero, List.filter_filter]
  exact List.filter_congr fun i _ => Bool.and_comm _ _

theorem withinMask_of_candidate {entries : List U64} {sm om x : U64} {i : Nat}
    (h : i ∈ candidateIndices entries sm om x) : withinMask (BitVec.ofNat 64 i) sm = true := by
  rw [candidateIndices_eq] at h
  exact (List.mem_filter.1 h).2

section
variable (frags : List MapFragment) (sm om x : U64) (table : CompactionTable)

/-- Where one form is built, the first match is used and must fit (R351). -/
theorem compactValue_least {k : Nat} (h : (matchIndices x om table.entries 0).head? = some k) :
    (compactValue false (.index frags sm table om) x).map (·.1)
      = if BitVec.ofNat 64 k &&& ~~~ sm = 0 then .ok (BitVec.ofNat 64 k) else .error (.raise .noCompactForm) := by
  obtain ⟨rest, hhits⟩ := List.head?_eq_some_iff.1 h
  by_cases hfit : BitVec.ofNat 64 k &&& ~~~ sm = 0
  · have hmask : withinMask (BitVec.ofNat 64 k) sm = true := beq_iff_eq.2 hfit
    simp only [compactValue, hhits, Bool.false_eq_true, if_false, hmask, if_true, if_pos hfit]
    rfl
  · have hmask : withinMask (BitVec.ofNat 64 k) sm = false := beq_eq_false_iff_ne.2 hfit
    simp only [compactValue, hhits, Bool.false_eq_true, if_false, hmask, if_neg hfit]
    rfl

theorem compactValue_noMatch (h : matchIndices x om table.entries 0 = []) :
    compactValue false (.index frags sm table om) x = fail .noCompactForm := by
  simp only [compactValue, h, Bool.false_eq_true, if_false]

theorem compactValue_noCandidate (h : candidateIndices table.entries sm om x = []) :
    compactValue true (.index frags sm table om) x = fail .noCompactForm := by
  simp only [compactValue, ← candidateIndices_eq, h, if_true]

/-- Where forms are counted, the first candidate is used and all are recorded (R360). -/
theorem compactValue_candidates {i : Nat} {rest : List Nat}
    (h : candidateIndices table.entries sm om x = i :: rest) :
    compactValue true (.index frags sm table om) x = .ok (BitVec.ofNat 64 i, some (i :: rest)) := by
  have hfit := withinMask_of_candidate (h ▸ List.mem_cons_self)
  simp only [compactValue, ← candidateIndices_eq, h, if_true, hfit]

end

/-- Settles O51: the matches are found in ascending order, so the first is the least, and the candidates are those
that fit. -/
theorem compactionUsesTheLeastMatchingIndex : Obligations.CompactionUsesTheLeastMatchingIndex := by
  refine fun frags sm om x table => ⟨fun k y hk hy hleast => ?_, fun hnone => ?_, ?_⟩
  · exact compactValue_least frags sm om x table (head?_matchIndices hk hy hleast)
  · exact compactValue_noMatch frags sm om x table (matchIndices_eq_nil hnone)
  · cases h : candidateIndices table.entries sm om x with
    | nil => exact compactValue_noCandidate frags sm om x table h
    | cons i rest => exact compactValue_candidates frags sm om x table h

/-! ## The picks of a scratch build (R360) -/

/-- All that the application of a mapping to a field is made of (R351). -/
theorem applyCompact_applied {env : Env} {all : Bool} {nw : Vector Word 4} {f : FieldId} {m : Mapping}
    {t t' : Target 2} (h : applyCompact env all nw f m t = .ok (some t')) :
    ∃ x val candidates entry, gatherAll nw (mapFrags m) 0 = .ok x ∧ compactValue all m x = .ok (val, candidates)
      ∧ resolve (compactTarget env t) env.md.numberOfFields f = .ok (.found entry)
      ∧ placeCompact t entry val candidates = .ok (some t') := by
  unfold applyCompact at h
  split at h
  · cases h
  · next x hgather =>
    split at h
    · cases h
    · next val candidates hvalue =>
      split at h
      · cases h
      · cases h
      · cases h
      · next entry hentry => exact ⟨x, val, candidates, entry, hgather, hvalue, hentry, h⟩

theorem picks_placeCompact {t t' : Target 2} {entry : Terminal} {val : U64} {candidates : Option (List Nat)}
    (h : placeCompact t entry val candidates = .ok (some t')) :
    t'.picks = addPick t.picks candidates (entryFragments entry) := by
  cases hp : entry.place with
  | fixed v =>
    simp only [placeCompact, hp] at h
    split at h
    · cases h; simp only [entryFragments, hp]
    · cases h
  | fragments ps =>
    simp only [placeCompact, hp] at h
    split at h
    · cases h
    · split at h
      · cases h
      · cases hi : insertFrags t.words ps val with
        | error e => simp only [hi] at h; cases h
        | ok ws => simp only [hi] at h; cases h; simp only [entryFragments, hp]

section
variable {env : Env} {maps : List MapEntry} {nw : Vector Word 4}

/-- The picks a field adds at its turn: one with its candidates and its compact fragments where it resolves to an
`IndexMapping` there, none otherwise (R360). -/
def TurnPicks (env : Env) (maps : List MapEntry) (nw : Vector Word 4) (f : FieldId) (a : Target 2)
    (new : List Pick) : Prop :=
  (∀ frags sm table om, resolveMap env (compactTarget env a) maps f = .ok (.found (.index frags sm table om)) →
    ∃ x entry, gatherAll nw frags 0 = .ok x
      ∧ resolve (compactTarget env a) env.md.numberOfFields f = .ok (.found entry)
      ∧ candidateIndices table.entries sm om x ≠ []
      ∧ new = [⟨candidateIndices table.entries sm om x, entryFragments entry⟩])
  ∧ ((∀ frags sm table om,
      resolveMap env (compactTarget env a) maps f ≠ .ok (.found (.index frags sm table om))) → new = [])

theorem turnPicks_of_not_index {f : FieldId} {a : Target 2}
    (h : ∀ frags sm table om, resolveMap env (compactTarget env a) maps f ≠ .ok (.found (.index frags sm table om))) :
    TurnPicks env maps nw f a [] :=
  ⟨fun frags sm table om hm => absurd hm (h frags sm table om), fun _ => rfl⟩

/-- A step of a scratch build adds its field's picks to those recorded before. -/
theorem picks_of_compactStep {f : FieldId} {a c : Target 2}
    (h : buildStep env (compactTarget env) maps (applyCompact env true nw) f a = .ok (some c)) :
    ∃ new, c.picks = a.picks ++ new ∧ TurnPicks env maps nw f a new := by
  rcases buildStep_applied h with ⟨hr, rfl⟩ | ⟨m, hm, happly⟩
  · exact ⟨[], (List.append_nil _).symm, turnPicks_of_not_index fun _ _ _ _ => by rw [hr]; nofun⟩
  · obtain ⟨x, val, candidates, entry, hgather, hvalue, hentry, hplace⟩ := applyCompact_applied happly
    have hpicks := picks_placeCompact hplace
    cases m with
    | value frags sm =>
      have hnone : candidates = none := by
        simp only [compactValue] at hvalue
        split at hvalue <;> cases hvalue
        rfl
      subst hnone
      exact ⟨[], hpicks.trans (List.append_nil _).symm,
        turnPicks_of_not_index fun _ _ _ _ => by rw [hm]; nofun⟩
    | index frags sm table om =>
      cases hc : candidateIndices table.entries sm om x with
      | nil => cases (compactValue_noCandidate frags sm om x table hc).symm.trans hvalue
      | cons i rest =>
        cases (compactValue_candidates frags sm om x table hc).symm.trans hvalue
        refine ⟨[⟨i :: rest, entryFragments entry⟩], hpicks, fun frags' sm' table' om' hm' => ?_,
          fun hnot => absurd hm (hnot frags sm table om)⟩
        cases hm.symm.trans hm'
        exact ⟨x, entry, hgather, hentry, by rw [hc]; nofun, by rw [hc]⟩

/-- The picks recorded along an order of application are those of its fields in turn. -/
theorem picksAlong_of_replay {order : List FieldId} {a b : Target 2}
    (h : Replay (buildStep env (compactTarget env) maps (applyCompact env true nw)) order a b) :
    ∃ picks, b.picks = a.picks ++ picks ∧ PicksAlong env maps nw order a b picks := by
  induction order generalizing a with
  | nil => cases h; exact ⟨[], (List.append_nil _).symm, rfl, rfl⟩
  | cons f fs ih =>
    obtain ⟨c, hstep, hrest⟩ := h
    obtain ⟨new, hnew, hindex, hother⟩ := picks_of_compactStep hstep
    obtain ⟨rest, hpicks, halong⟩ := ih hrest
    refine ⟨new ++ rest, by rw [hpicks, hnew, List.append_assoc], c, rest, hstep, halong,
      fun frags sm table om hm => ?_, fun hnot => by rw [hother hnot, List.nil_append]⟩
    obtain ⟨x, entry, hgather, hentry, hne, rfl⟩ := hindex frags sm table om hm
    exact ⟨x, entry, hgather, hentry, hne, rfl⟩

/-- A finished scratch build: the order of its fields, the picks along it, and the words it gives but for the
compaction-control bit (R333, R350, R360). -/
theorem picksAlong_of_build {t : Target 2} (h : buildCompactTarget env true nw = .ok t) :
    ∃ maps order b, env.tabs.compaction = some maps ∧ order.Perm (List.range env.md.numberOfFields)
      ∧ PicksAlong env maps nw order (Target.fresh 2) b t.picks
      ∧ ∀ k, k < 64 → k ≠ 29 → bitAt t.words k = bitAt b.words k := by
  obtain ⟨maps, b, order, hmaps, -, hcompact, rfl⟩ := buildCompactTarget_ok h
  obtain ⟨hperm, hreplay⟩ := runFixedPoint_ok hcompact
  obtain ⟨picks, hpicks, halong⟩ := picksAlong_of_replay hreplay
  have hall : b.picks = picks := hpicks
  refine ⟨maps, order, b, hmaps, hperm, hall ▸ halong, fun k _ hk => ?_⟩
  rw [bitAt_setCmptCtrl _ _ _ (by decide), if_neg hk]

end

/-! ## The commands (R360, R435, R436) -/

/-- How a count of a set-up engine ends. -/
theorem exec_countCompacted {s : State} {env : Env} (h : Ready s env) {e : Engine} {out : Res Answer}
    (hf : withForms s env countAnswer = (e, out)) : exec .countCompacted s = .next (finish s e out) := by
  obtain ⟨hi, he⟩ := h
  refine congrArg Host.Outcome.next ((command_ready hi he _).trans ?_)
  rw [hf]

/-- Settles O54: the scratch build's order replays with its picks, and the answer is the product of their
counts. -/
theorem countCompactedCountsTheForms : Obligations.CountCompactedCountsTheForms := by
  refine fun s env hready hv => ⟨fun w m hm => ?_, fun hfails => ?_⟩
  · have hp := prepareNative_maskedWords hm
    refine ⟨fun t ht => ⟨picksAlong_of_build ht, fun hcount => ?_⟩, fun c hc hne => ?_⟩
    · rw [exec_countCompacted hready (withForms_built countAnswer hv hp ht), countAnswer, countForms_eq, countValue,
        if_pos hcount]
      rfl
    · rw [exec_countCompacted hready (withForms_unbuilt _ hv hp hc), finish_coded _ _ hne]
      rfl
  · rw [exec_countCompacted hready (withForms_unprepared _ hv (prepareNative_rebuildFails hfails))]
    rfl

/-- A stale compact buffer rebuilt from the prepared native words and masked (R435). -/
theorem prepareCompact_rebuilt {env : Env} {e : Engine} {m : Vector Word 4} {c k : Vector Word 2}
    (hcv : e.cv = false) (hp : prepareNative env e = .ok (preparedEngine e m)) (hc : buildCompact env m = .ok c)
    (hk : applyCompactMasks env c = .ok k) :
    prepareCompact env e = (((preparedEngine e m).rebuiltCompact c).maskedCompact k, .ok ()) := by
  have hrebuilt : regenerateCompact env (preparedEngine e m) = .ok ((preparedEngine e m).rebuiltCompact c) := by
    simp only [regenerateCompact, preparedEngine, hc]
  have hmasked : encodeCompactBuffer env ((preparedEngine e m).rebuiltCompact c)
      = .ok (((preparedEngine e m).rebuiltCompact c).maskedCompact k) := by
    simp only [encodeCompactBuffer, Engine.rebuiltCompact, hk, Bool.false_eq_true, if_false]
  simp only [prepareCompact, hcv, Bool.false_eq_true, if_false, hp, hrebuilt, finishCompact, hmasked]

/-- The bytes a request with an output buffer is given (R84). -/
theorem copyOut_eq {n : Nat} (s : State) (ws : Vector Word n) : copyOut s ws = { bytes := delivered s ws } := by
  simp only [copyOut, delivered, bufferBytes_eq]

/-- Settles O25: the three preparations of R435 in turn, then the bytes of the masked words. -/
theorem encodeCompactRebuildsAStaleBuffer : Obligations.EncodeCompactRebuildsAStaleBuffer := by
  intro s env w m c k ⟨hi, he⟩ hcv hm hc hk
  have hprepared := prepareCompact_rebuilt hcv (prepareNative_maskedWords hm) hc hk
  refine congrArg Host.Outcome.next ((command_ready hi he _).trans ?_)
  simp only [encodeCompact, hprepared, copyOut_eq]
  rfl

end Sys2Proof.Proofs
end

section
/-! SUPPORT. The encoding masks: one masks step word by word, the whole pass as `PassGives` describes it, and how
`ENCODE_NATIVE` and `ENCODE_COMPACT` end on the words they mask (R390 to R396, R433 to R436). -/

namespace Sys2Proof.Proofs

open Sys2Proof Sys2Proof.Machine Sys2Proof.Claims Sys2Proof.Laws

/-! ## One masks step (R392 to R394) -/

/-- Two buffers with the same words are equal. -/
theorem eq_of_wordAt {n : Nat} {ws vs : Vector Word n} (h : ∀ i, i < n → wordAt ws i = wordAt vs i) : ws = vs := by
  ext1 i hi
  simpa [wordAt, hi] using h i hi

/-- What the OR sets and the AND leaves, a second OR and AND set and leave again. -/
theorem orAnd_idem (x o a : Word) : ((x ||| o) &&& a ||| o) &&& a = (x ||| o) &&& a := by
  ext i hi
  simp only [BitVec.getElem_and, BitVec.getElem_or]
  cases o[i] <;> cases a[i] <;> simp

theorem maskWords_idem {n : Nat} (ws : Vector Word n) (o a : Vector Word 4) :
    maskWords (maskWords ws o a) o a = maskWords ws o a := by
  refine eq_of_wordAt fun i hi => ?_
  rw [wordAt_maskWords _ o a hi, wordAt_maskWords ws o a hi, orAnd_idem]

/-! ## One group (R390, R391) -/

/-- The words a group's outcome leaves, or `none` where it ends the pass. -/
def groupWords {n : Nat} (ws : Vector Word n) : GroupOutcome → Option (Vector Word n)
  | .apply o a => some (maskWords ws o a)
  | .skip => some ws
  | .abandon => none

/-- The read of a group's dependees: from the words the groups before it left (R390). -/
abbrev maskRead {n : Nat} (c : Ctx n) (ws : Vector Word n) : FieldId → Res (Look U64) :=
  readRaw { c with words := ws } c.fields

/-- A child table is walked at its slot; a missing one ends the pass. -/
theorem maskWalkChild_eq (read : FieldId → Res (Look U64)) (t : MaskTable) (k : Nat) :
    maskWalkChild read t k = (maskSlot t k).elim (.ok .abandon) (maskWalk read) := by
  match t, k with
  | .nil, _ => simp only [maskWalkChild, maskSlot, Option.elim]
  | .cons e _, 0 => simp only [maskWalkChild, maskSlot, Option.elim]
  | .cons _ rest, k + 1 => simp only [maskWalkChild, maskSlot]; exact maskWalkChild_eq read rest k

section
variable {n : Nat} {c : Ctx n} {ws : Vector Word n}

theorem maskWalk_found {d : FieldId} {k : U64} (child : MaskTable) (h : maskRead c ws d = .ok (.found k)) :
    maskWalk (maskRead c ws) (.nextTable d child)
      = (maskSlot child k.toNat).elim (.ok .abandon) (maskWalk (maskRead c ws)) := by
  simp only [maskWalk, h, maskWalkChild_eq]

/-- The walk of a group finds what the group does to the words. -/
theorem maskWalk_of_groupGives {g : MaskEntry} {res : Option (Vector Word n)} (h : GroupGives c ws g res) :
    ∃ out, maskWalk (maskRead c ws) g = .ok out ∧ groupWords ws out = res := by
  induction h with
  | masks o a => exact ⟨.apply o a, by simp only [maskWalk], rfl⟩
  | noMasks => exact ⟨.skip, by simp only [maskWalk], rfl⟩
  | noDependee d child hd => exact ⟨.abandon, by simp only [maskWalk, hd], rfl⟩
  | noSlot d child k hd hs => exact ⟨.abandon, by rw [maskWalk_found child hd, hs, Option.elim], rfl⟩
  | slot d child k e res hd hs _ ih => rwa [maskWalk_found child hd, hs, Option.elim]

/-- All that the walk of a group outside a build can do: a read it needs fails with `InternalError`, or it finds
what the group does to the words. -/
def Walked (c : Ctx n) (ws : Vector Word n) (g : MaskEntry) : Prop :=
  maskWalk (maskRead c ws) g = .error (.raise .internalError)
    ∨ ∃ out, maskWalk (maskRead c ws) g = .ok out ∧ GroupGives c ws g (groupWords ws out)

mutual
/-- No read is deferred outside a build (R205), so a dependee has a value, has none, or breaks. -/
theorem maskWalk_cases (hu : c.unwritten = none) : ∀ g : MaskEntry, Walked c ws g
  | .masks o a => .inr ⟨.apply o a, by simp only [maskWalk], .masks o a⟩
  | .noMasks => .inr ⟨.skip, by simp only [maskWalk], .noMasks⟩
  | .nextTable d child => by
    cases hd : maskRead c ws d with
    | error stop => exact .inl (by simp only [maskWalk, hd, readRaw_error _ _ _ _ hd])
    | ok look =>
      cases look with
      | deferred => exact absurd hd (nothingIsDeferredOutsideABuild.2 _ { c with words := ws } _ d hu).2
      | absent => exact .inr ⟨.abandon, by simp only [maskWalk, hd], .noDependee d child hd⟩
      | found k =>
        have hwalk := maskWalk_found child hd
        cases hs : maskSlot child k.toNat with
        | none => rw [hs] at hwalk; exact .inr ⟨.abandon, hwalk, .noSlot d child k hd hs⟩
        | some e =>
          rw [hs] at hwalk
          rcases maskSlot_cases hu child k.toNat hs with herr | ⟨out, hout, hgives⟩
          · exact .inl (hwalk.trans herr)
          · exact .inr ⟨out, hwalk.trans hout, .slot d child k e _ hd hs hgives⟩
/-- The same for the slots of a child table. -/
theorem maskSlot_cases (hu : c.unwritten = none) {e : MaskEntry} :
    ∀ (t : MaskTable) (k : Nat), maskSlot t k = some e → Walked c ws e
  | .nil, _, h => by simp [maskSlot] at h
  | .cons e' _, 0, h => by
    simp only [maskSlot, Option.some.injEq] at h
    exact h ▸ maskWalk_cases hu e'
  | .cons _ rest, k + 1, h => by
    simp only [maskSlot] at h
    exact maskSlot_cases hu rest k h
end

/-! ## The whole pass (R390, R391) -/

/-- A group other than a top-level `NoMasks` ends the pass, or hands its words on to the groups after it. -/
theorem applyMasks_cons {g : MaskEntry} {gs : List MaskEntry} {out : GroupOutcome} (hg : g ≠ .noMasks)
    (h : maskWalk (maskRead c ws) g = .ok out) :
    applyMasks c (g :: gs) ws = (groupWords ws out).elim (.ok ws) (applyMasks c gs) := by
  cases out <;> simp only [applyMasks, h, groupWords, Option.elim]

theorem applyMasks_cons_error {g : MaskEntry} {gs : List MaskEntry} {stop : Stop} (hg : g ≠ .noMasks)
    (h : maskWalk (maskRead c ws) g = .error stop) : applyMasks c (g :: gs) ws = .error stop := by
  simp only [applyMasks, h]

theorem applyMasks_of_passGives {gs : List MaskEntry} {ws' : Vector Word n} (h : PassGives c gs ws ws') :
    applyMasks c gs ws = .ok ws' := by
  induction h with
  | finished ws => rfl
  | terminator gs ws => rfl
  | group g gs ws ws1 ws2 hg hgives _ ih =>
    obtain ⟨out, hout, hwords⟩ := maskWalk_of_groupGives hgives
    rw [applyMasks_cons hg hout, hwords, Option.elim, ih]
  | abandoned g gs ws hgives =>
    obtain ⟨out, hout, hwords⟩ := maskWalk_of_groupGives hgives
    have hg : g ≠ .noMasks := by rintro rfl; cases hgives
    rw [applyMasks_cons hg hout, hwords, Option.elim]

/-- All that a pass outside a build can do. -/
theorem applyMasks_cases (hu : c.unwritten = none) (gs : List MaskEntry) (ws : Vector Word n) :
    applyMasks c gs ws = .error (.raise .internalError)
      ∨ ∃ ws', applyMasks c gs ws = .ok ws' ∧ PassGives c gs ws ws' := by
  induction gs generalizing ws with
  | nil => exact .inr ⟨ws, rfl, .finished ws⟩
  | cons g gs ih =>
    by_cases hg : g = .noMasks
    · subst hg
      exact .inr ⟨ws, rfl, .terminator gs ws⟩
    rcases maskWalk_cases (ws := ws) hu g with herr | ⟨out, hout, hgives⟩
    · exact .inl (applyMasks_cons_error hg herr)
    have hcons := applyMasks_cons (gs := gs) hg hout
    cases hwords : groupWords ws out with
    | none =>
      rw [hwords] at hcons hgives
      exact .inr ⟨ws, hcons, .abandoned g gs ws hgives⟩
    | some ws1 =>
      rw [hwords] at hcons hgives
      rcases ih ws1 with herr | ⟨ws2, hok, hpass⟩
      · exact .inl (hcons.trans herr)
      · exact .inr ⟨ws2, hcons.trans hok, .group g gs ws ws1 ws2 hg hgives hpass⟩

theorem applyMasks_ok_iff (hu : c.unwritten = none) (gs : List MaskEntry) (ws ws' : Vector Word n) :
    applyMasks c gs ws = .ok ws' ↔ PassGives c gs ws ws' := by
  refine ⟨fun h => ?_, applyMasks_of_passGives⟩
  rcases applyMasks_cases hu gs ws with herr | ⟨ws1, hok, hpass⟩
  · cases herr.symm.trans h
  · cases hok.symm.trans h
    exact hpass

theorem applyMasks_error (hu : c.unwritten = none) {gs : List MaskEntry} {stop : Stop}
    (h : applyMasks c gs ws = .error stop) : stop = .raise .internalError := by
  rcases applyMasks_cases hu gs ws with herr | ⟨ws1, hok, -⟩
  · cases herr.symm.trans h
    rfl
  · cases hok.symm.trans h

end

/-- Settles O53: the step word by word, and the pass by induction on its groups. -/
theorem maskStepsAreOrThenAnd : Obligations.MaskStepsAreOrThenAnd :=
  ⟨fun _ ws o a => ⟨fun _ hi => wordAt_maskWords ws o a hi, maskWords_idem ws o a⟩,
    fun _ _ gs ws hu => ⟨applyMasks_ok_iff hu gs ws, fun _ h => applyMasks_error hu h⟩⟩

/-! ## The encoding commands (R433 to R436) -/

/-- How `ENCODE_NATIVE` of a set-up engine ends. -/
theorem exec_encodeNative {s : State} {env : Env} (h : Ready s env) {e : Engine} {out : Res Answer}
    (hrun : encodeNative s env = (e, out)) : exec .encodeNative s = .next (finish s e out) := by
  obtain ⟨hi, he⟩ := h
  refine congrArg Host.Outcome.next ((command_ready hi he _).trans ?_)
  rw [hrun]

/-- Settles O23: the preparation leaves the masked words, or fails as the rebuild it needs does. -/
theorem encodeNativeDeliversTheMaskedWords : Obligations.EncodeNativeDeliversTheMaskedWords := by
  refine fun s env hready => ⟨fun w m hm => ?_, fun hfails => ?_⟩
  · have hrun : encodeNative s env = (preparedEngine s.eng m, .ok { bytes := delivered s m }) := by
      simp only [encodeNative, prepareNative_maskedWords hm, copyOut_eq, preparedEngine]
    rw [exec_encodeNative hready hrun]
    rfl
  · have hrun : encodeNative s env = (s.eng, fail .badCompactEncoding) := by
      simp only [encodeNative, prepareNative_rebuildFails hfails, fail]
    rw [exec_encodeNative hready hrun]
    rfl

/-- The compact buffer masked, or left as it is where it is Encoded already (R395). -/
theorem encodeCompactBuffer_ok {env : Env} {e : Engine} {m : Vector Word 2}
    (hm : if e.ce then m = e.cw else applyCompactMasks env e.cw = .ok m) :
    encodeCompactBuffer env e = .ok { e with cw := m, ce := true } := by
  cases hce : e.ce with
  | true =>
    simp only [hce, if_true] at hm
    simp only [encodeCompactBuffer, hce, if_true, hm]
    exact congrArg Except.ok (by rw [← hce])
  | false =>
    simp only [hce, Bool.false_eq_true, if_false] at hm
    simp only [encodeCompactBuffer, hce, Bool.false_eq_true, if_false, hm, Engine.maskedCompact]

/-- A Valid compact buffer needs no rebuild: its preparation is the masking (R435). -/
theorem prepareCompact_valid {env : Env} {e e' : Engine} (hcv : e.cv = true)
    (h : encodeCompactBuffer env e = .ok e') : prepareCompact env e = (e', .ok ()) := by
  simp only [prepareCompact, hcv, if_true, finishCompact, h]

/-- Settles O24: the preparation of a Valid compact buffer is its masking, and its bytes are delivered. -/
theorem encodeCompactMasksAValidBuffer : Obligations.EncodeCompactMasksAValidBuffer := by
  intro s env m ⟨hi, he⟩ hcv hm
  have hprepared := prepareCompact_valid hcv (encodeCompactBuffer_ok hm)
  have hstays : ({ s.eng with cw := m, ce := true } : Engine) = { s.eng with cw := m, cv := true, ce := true } := by
    rw [← hcv]
  refine congrArg Host.Outcome.next ((command_ready hi he _).trans ?_)
  simp only [encodeCompact, hprepared, copyOut_eq, hstays]
  rfl

end Sys2Proof.Proofs
end

section
/-! SUPPORT. The derived values: what a raw read over both buffers answers, what the interpreters make of it, and
how a collector ORs its parts together (R411 to R416). -/

namespace Sys2Proof.Proofs

open Sys2Proof Sys2Proof.Machine Sys2Proof.Claims Sys2Proof.Laws

/-! ## A raw read over both buffers (R241, R416) -/

section
variable {s : State} {env : Env} {f : FieldId} {e e' : Engine} {raw : U64}

theorem readField_rawRead (h : RawRead s env f e raw) : readField env s.eng f .encoded = (e, .ok raw) := by
  rcases h with ⟨w, t, hw, hf, rfl, rfl⟩ | ⟨hno, hc, t, hf, rfl⟩
  · exact readField_encoded_native hw hf
  · rw [readField_noNativeRead hno, readCompact_found hc hf]
    rfl

theorem readField_noRead (h : NoRead s env f e) : readField env s.eng f .encoded = (e, fail .invalidField) := by
  obtain ⟨hno, habs⟩ := h
  rw [readField_noNativeRead hno]
  cases hc : s.eng.cv with
  | false => rw [readCompact_stale hc]
  | true => rw [readCompact_absent hc (habs hc)]

/-- A read of the engine the regeneration leaves is the read of the engine before it (R90). -/
theorem readField_refreshed (h : refresh env e = .ok e') (mode : Mode) :
    readField env e' f mode = readField env e f mode := by
  simp only [readField, h, refresh_again h]

end

/-! ## A command over a descriptor (R411, R413, R415) -/

section
variable {α : Type} {s : State} {env : Env} {id : BitVec 16}

theorem command_descriptor_none (h : Ready s env) (list : Env → List α) (k : Env → α → Engine × Res Answer)
    (hd : (list env)[id.toNat]? = none) :
    command s (fun env => descriptor s.eng (list env) id (k env)) = coded s s.eng .invalidField := by
  obtain ⟨hi, he⟩ := h
  rw [command_ready hi he]
  simp only [descriptor, hd]
  rfl

theorem command_descriptor_some (h : Ready s env) (list : Env → List α) (k : Env → α → Engine × Res Answer)
    {d : α} (hd : (list env)[id.toNat]? = some d) {e : Engine} {out : Res Answer} (hk : k env d = (e, out)) :
    command s (fun env => descriptor s.eng (list env) id (k env)) = finish s e out := by
  obtain ⟨hi, he⟩ := h
  rw [command_ready hi he]
  simp only [descriptor, hd, hk]

end

/-! ## A pure step after a raw read (R411, R413) -/

section
variable {s : State} {env : Env} {f : FieldId} {e : Engine} {raw : U64}

theorem readThen_rawRead (h : RawRead s env f e raw) (k : U64 → Res U64) :
    readThen env s.eng f k = (e, permit fitsAny (k raw)) := by
  simp only [readThen, readField_rawRead h]

theorem readThen_noRead (h : NoRead s env f e) (k : U64 → Res U64) :
    readThen env s.eng f k = (e, fail .invalidField) := by
  simp only [readThen, readField_noRead h, fail]

end

/-! ## A position's fragments over the two words (R411, R412) -/

section
variable {d : PositionInterpreter} (hd : ∀ q ∈ d.frags, fragOk 2 q = true) (raw : U64)
include hd

theorem extractFrags_valueCtx : extractFrags (valueCtx raw) d.frags 0
    = .ok (.found (fieldBits #v[raw.extractLsb' 0 32, raw.extractLsb' 32 32] d.frags)) :=
  extractFrags_eq_fieldBits (c := valueCtx raw) rfl hd

/-- Without a restriction list, no pipeline runs at all. -/
theorem interpret_unrestricted (hrs : d.rs = none) :
    interpret d raw = .ok (fieldBits #v[raw.extractLsb' 0 32, raw.extractLsb' 32 32] d.frags) := by
  simp only [interpret, extractFrags_valueCtx hd, hrs]

theorem interpret_restricted {rs : List Restriction} (hrs : d.rs = some rs) :
    interpret d raw = decodePipeline (signInfo d.signed d.bitSize rs) rs
      (fieldBits #v[raw.extractLsb' 0 32, raw.extractLsb' 32 32] d.frags) := by
  simp only [interpret, extractFrags_valueCtx hd, hrs]

end

/-- Settles O58: one raw read, then the fragments of its two words, then the pipeline if there is one. -/
theorem interpretPositionReslicesTheRawValue : Obligations.InterpretPositionReslicesTheRawValue := by
  intro s env p hready
  refine ⟨fun hnone => congrArg Host.Outcome.next (command_descriptor_none hready _ _ hnone), fun d hd => ?_⟩
  have hexec {e : Engine} {out : Res Answer} (h : readThen env s.eng d.base (interpret d) = (e, out)) :
      exec (.interpretPosition p) s = .next (finish s e out) :=
    congrArg Host.Outcome.next (command_descriptor_some hready (·.md.positionInterpreters)
      (fun env d => readThen env s.eng d.base (interpret d)) hd h)
  refine ⟨fun e hno => hexec (readThen_noRead hno _), fun e raw hraw hfrags => ?_⟩
  rw [hexec (readThen_rawRead hraw _)]
  refine ⟨fun hrs => ?_, fun rs hrs => ?_⟩
  · rw [interpret_unrestricted hfrags raw hrs]; rfl
  · rw [interpret_restricted hfrags raw hrs]
    refine ⟨fun v hv => ?_, fun hbad => ?_⟩
    · rw [hv]; rfl
    · rw [hbad]; rfl

/-! ## A look into an enum table (R413, R414) -/

theorem remap_filled {table : List (Option U64)} {raw v : U64} (h : table[raw.toNat]? = some (some v)) :
    remap table raw = .ok v := by
  simp only [remap, h]

/-- A null slot and an index past the table are the same failure (R414). -/
theorem remap_not_filled {table : List (Option U64)} {raw : U64} (h : ∀ v, table[raw.toNat]? ≠ some (some v)) :
    remap table raw = fail .invalidValue := by
  unfold remap
  split
  · next v hv => exact absurd hv (h v)
  · rfl
  · rfl

/-- Settles O59: one raw read, then one look into the table. -/
theorem reinterpretEnumLooksUpTheRawValue : Obligations.ReinterpretEnumLooksUpTheRawValue := by
  intro s env r hready
  refine ⟨fun hnone => congrArg Host.Outcome.next (command_descriptor_none hready _ _ hnone), fun d hd => ?_⟩
  have hexec {e : Engine} {out : Res Answer} (h : readThen env s.eng d.source (remap d.table) = (e, out)) :
      exec (.reinterpretEnum r) s = .next (finish s e out) :=
    congrArg Host.Outcome.next (command_descriptor_some hready (·.md.enumReinterpreters)
      (fun env d => readThen env s.eng d.source (remap d.table)) hd h)
  refine ⟨fun e hno => hexec (readThen_noRead hno _), fun e raw hraw => ?_⟩
  rw [hexec (readThen_rawRead hraw _)]
  refine ⟨fun v hv => ?_, fun hnot => ?_⟩
  · rw [remap_filled hv]; rfl
  · rw [remap_not_filled hnot]; rfl

/-! ## A collector's parts (R415) -/

section
variable {env : Env} {e e' : Engine} {raw : FieldId → U64}

/-- A collector with a part reads what it reads after the regeneration. -/
theorem collect_refreshed (h : refresh env e = .ok e') {parts : List (FieldId × Nat)} (hne : parts ≠ []) (v : U64) :
    collect env e parts v = collect env e' parts v := by
  obtain ⟨part, rest, rfl⟩ := List.exists_cons_of_ne_nil hne
  simp only [collect, readField_refreshed h]

/-- Parts that can be read leave their OR to the parts after them. -/
theorem collect_append {before : List (FieldId × Nat)} (rest : List (FieldId × Nat))
    (h : ∀ q ∈ before, readField env e q.1 .encoded = (e, .ok (raw q.1))) (v : U64) :
    collect env e (before ++ rest) v
      = collect env e rest (before.foldl (fun v part => v ||| (raw part.1 <<< part.2)) v) := by
  induction before generalizing v with
  | nil => rfl
  | cons part before ih =>
    simp only [List.cons_append, collect, h part List.mem_cons_self, List.foldl_cons]
    exact ih (fun q hq => h q (List.mem_cons_of_mem _ hq)) _

end

section
variable {s : State} {env : Env} {e : Engine} {raw : FieldId → U64}

/-- Every part found, in the engine the first of them leaves. -/
theorem collect_rawReads {parts : List (FieldId × Nat)} (hne : parts ≠ [])
    (h : ∀ part ∈ parts, RawRead s env part.1 e (raw part.1)) :
    collect env s.eng parts 0
      = (e, .ok { value := parts.foldl (fun v part => v ||| (raw part.1 <<< part.2)) 0 }) := by
  obtain ⟨part, rest, rfl⟩ := List.exists_cons_of_ne_nil hne
  have hrefresh := readField_found (readField_rawRead (h part List.mem_cons_self))
  have hread (q) (hq : q ∈ part :: rest) : readField env e q.1 .encoded = (e, .ok (raw q.1)) := by
    rw [readField_refreshed hrefresh, readField_rawRead (h q hq)]
  have hall := collect_append [] hread 0
  rw [List.append_nil] at hall
  rw [collect_refreshed hrefresh hne, hall]
  rfl

/-- The first part that neither buffer gives ends the whole collection. -/
theorem collect_noRead {before : List (FieldId × Nat)} {part : FieldId × Nat} (after : List (FieldId × Nat))
    (h : ∀ q ∈ before, RawRead s env q.1 e (raw q.1)) (hno : NoRead s env part.1 e) (v : U64) :
    collect env s.eng (before ++ part :: after) v = (e, fail .invalidField) := by
  obtain ⟨hrefresh, -⟩ := noNativeRead_leaves hno.1
  have hread (q) (hq : q ∈ before) : readField env e q.1 .encoded = (e, .ok (raw q.1)) := by
    rw [readField_refreshed hrefresh, readField_rawRead (h q hq)]
  rw [collect_refreshed hrefresh (by simp), collect_append _ hread]
  simp only [collect, readField_refreshed hrefresh, readField_noRead hno, fail]

end

/-- Settles O60: the parts are read in the engine the first read leaves, and OR-ed in turn. -/
theorem collectFieldsOrsItsParts : Obligations.CollectFieldsOrsItsParts := by
  intro s env k hready
  refine ⟨fun hnone => congrArg Host.Outcome.next (command_descriptor_none hready _ _ hnone), fun d hd => ?_⟩
  have hexec {e : Engine} {out : Res Answer} (h : collect env s.eng d.parts 0 = (e, out)) :
      exec (.collectFields k) s = .next (finish s e out) :=
    congrArg Host.Outcome.next (command_descriptor_some hready (·.md.collectors)
      (fun env d => collect env s.eng d.parts 0) hd h)
  refine ⟨fun hnil => ?_, fun e raw => ⟨fun hne hall => ?_, fun before part after hparts hbefore hno => ?_⟩⟩
  · rw [hnil] at hexec
    exact hexec rfl
  · rw [hexec (collect_rawReads hne hall)]; rfl
  · rw [hparts] at hexec
    exact hexec (collect_noRead after hbefore hno 0)

end Sys2Proof.Proofs
end

section
/-! SUPPORT. The commands on a loaded engine: what `ENCODE_COMPACT` keeps when no compact form is found, the way
of compact bytes through the three commands, and the new opcode of `SET_OPCODE` (R435 to R440, R505). -/

namespace Sys2Proof.Proofs

open Sys2Proof Sys2Proof.Machine Sys2Proof.Claims Sys2Proof.Laws

/-! ## A compaction that fails (R435, R505 item 3) -/

/-- A stale compact buffer that cannot be rebuilt leaves the engine as the native preparation left it. -/
theorem prepareCompact_unbuilt {env : Env} {e : Engine} {m : Vector Word 4} {stop : Stop} (hcv : e.cv = false)
    (hp : prepareNative env e = .ok (preparedEngine e m)) (hc : buildCompact env m = .error stop) :
    prepareCompact env e = (preparedEngine e m, .error stop) := by
  have hfailed : regenerateCompact env (preparedEngine e m) = .error stop := by
    simp only [regenerateCompact, preparedEngine, hc]
  simp only [prepareCompact, hcv, Bool.false_eq_true, if_false, hp, hfailed]

/-- Settles O26: the preparation succeeds, so the engine it leaves is kept when the compaction fails. -/
theorem failedCompactionKeepsThePreparation : Obligations.FailedCompactionKeepsThePreparation := by
  intro s env w m c ⟨hi, he⟩ hcv hm hc hne
  have hprepared := prepareCompact_unbuilt hcv (prepareNative_maskedWords hm) hc
  refine congrArg Host.Outcome.next ((command_ready hi he _).trans ?_)
  simp only [encodeCompact, hprepared]
  exact finish_coded s _ hne

/-! ## Compact bytes through three commands (R432, R434, R436, R437) -/

/-- A compact word that loads with `Success` is in the compact buffer, which is Valid: every other end of the load
answers something else. -/
theorem loadCompact_success {s : State} {w0 w1 : Word} {v : U64} {bytes : List Byte} {ranges : List (Nat × Nat)}
    (h : answered s (loadCompact w0 w1 s) (.done .success v bytes ranges)) :
    ∃ m nw, (loadCompact w0 w1 s).eng = compactEngine m w0 w1 nw := by
  cases hm : findModel s.rom s.request.a0.toNat with
  | none =>
    have hend : loadCompact w0 w1 s = failLoad s .invalidModel := by simp only [loadCompact, loadWord, hm]
    rw [hend] at h
    cases answered_unique h rfl
  | some md =>
    cases ht : findTables md (opcodeOf w0) with
    | none =>
      rw [loadCompact, loadWord_unsupported _ hm ht] at h
      cases answered_unique h rfl
    | some tabs =>
      cases hw : buildNative ⟨md, tabs, s.maskSense⟩ #v[w0, w1] with
      | ok nw => exact ⟨_, nw, congrArg State.eng (loadCompact_loads hm ht hw)⟩
      | error stop =>
        rcases buildNative_error hw with rfl | rfl
        · rw [loadCompact_undecodable hm ht hw] at h
          cases answered_unique h rfl
        · rw [loadCompact_broken hm ht hw] at h
          cases answered_unique h rfl

/-- A command leaves the engine its body leaves, or the one before it. -/
theorem command_eng_cases (s : State) (body : Env → Engine × Res Answer) :
    (∃ env, (command s body).eng = (body env).1) ∨ (command s body).eng = s.eng := by
  rcases command_cases s body with ⟨-, h⟩ | ⟨-, -, h⟩ | ⟨env, -, -, h⟩ <;> rw [h]
  · exact .inr rfl
  · exact .inr rfl
  · exact (finish_eng_cases s _ _).imp_left fun h => ⟨env, h⟩

/-- `ENCODE_NATIVE` touches nothing but the native buffer and its bits (R434). -/
theorem exec_encodeNative_frame {t u : State} (h : exec .encodeNative t = .next u) :
    ∃ nw nv ne, u.eng = { t.eng with nw := nw, nv := nv, ne := ne } := by
  cases h
  rcases command_eng_cases t (encodeNative t) with ⟨env, h⟩ | h <;> rw [h]
  · cases hp : prepareNative env t.eng with
    | error stop => exact ⟨t.eng.nw, t.eng.nv, t.eng.ne, by simp only [encodeNative, hp]⟩
    | ok e =>
      obtain ⟨-, -, hframe⟩ := prepareNative_ok hp
      exact ⟨_, _, _, by simp only [encodeNative, hp]; exact hframe⟩
  · exact ⟨_, _, _, rfl⟩

/-- Settles O27: the loaded words are still in the Valid compact buffer, so `ENCODE_COMPACT` masks and delivers
them. -/
theorem compactBytesRoundTrip : Obligations.CompactBytesRoundTrip := by
  intro s t u w0 w1 env m v1 v2 b1 b2 r1 r2 hload hloaded hencode _ henv hm hout
  cases hload
  obtain ⟨model, nw, ht⟩ := loadCompact_success hloaded
  obtain ⟨nw', nv, ne, hu⟩ := exec_encodeNative_frame hencode
  rw [ht] at hu
  have hready : Ready u env := ⟨by rw [hu]; rfl, henv⟩
  have hcv : u.eng.cv = true := by rw [hu]; rfl
  have hmasked : if u.eng.ce then m = u.eng.cw else applyCompactMasks env u.eng.cw = .ok m := by
    rw [hu]; exact hm
  refine ⟨_, encodeCompactMasksAValidBuffer u env m hready hcv hmasked, ?_, rfl, rfl⟩
  simp only [answered, answer, delivered, hout, if_true]

/-! ## A new opcode (R440) -/

/-- The engine `SET_OPCODE` starts from: the native buffer rebuilt if it is stale. -/
theorem nativeWords_rebuild {s : State} {env : Env} {w : Vector Word 4} (h : NativeWords s env w) :
    (if s.eng.nv then .ok s.eng else regenerateNative env s.eng) = .ok (afterRead s w) := by
  rcases h with ⟨hn, -⟩ | ⟨hn, hw⟩
  · simp only [afterRead, hn, if_true]
  · simp only [afterRead, hn, regenerateNative, hw, Engine.rebuiltNative, Bool.false_eq_true, if_false]

theorem reopcoded_afterRead {s : State} {env : Env} {w : Vector Word 4} (h : NativeWords s env w) (op : BitVec 7) :
    reopcoded (afterRead s w) op
      = { s.eng with
          nw := setOpcodeBits w op, opc := op, nv := true, cv := false, ne := false, ce := false } := by
  rcases h with ⟨hn, rfl⟩ | ⟨hn, -⟩
  · simp only [reopcoded, afterRead, hn, if_true]
  · simp only [reopcoded, afterRead, hn, Bool.false_eq_true, if_false]

/-- The opcode bits read back as the opcode written. -/
theorem opcode_setOpcodeBits (w : Vector Word 4) (op : BitVec 7) :
    (wordAt (setOpcodeBits w op) 0).extractLsb' 0 7 = op := by
  refine BitVec.eq_of_getLsbD_eq fun b hb => ?_
  have hbit := bitAt_setOpcodeBits w op b (by decide)
  have hword : b / 32 = 0 := by omega
  have hplace : b % 32 = b := by omega
  rw [if_pos (by omega), bitAt, Config.wordBits, hword, hplace] at hbit
  simpa [hb] using hbit

section
variable {s : State} {env : Env}

/-- How `SET_OPCODE` of a set-up engine ends. -/
theorem exec_setOpcode (h : Ready s env) {e : Engine} {out : Res Answer} (hrun : setOpcode s env = (e, out)) :
    exec .setOpcode s = .next (finish s e out) := by
  obtain ⟨hi, he⟩ := h
  refine congrArg Host.Outcome.next ((command_ready hi he _).trans ?_)
  rw [hrun]

theorem setOpcode_supported {w : Vector Word 4} {tabs : OpcodeTables}
    (ho : findOpcode env.md s.request.a0 = some tabs) (hw : NativeWords s env w) :
    setOpcode s env = (reopcoded (afterRead s w) (s.request.a0.setWidth 7), .ok {}) := by
  simp only [setOpcode, ho, nativeWords_rebuild hw]

theorem setOpcode_unsupported (ho : findOpcode env.md s.request.a0 = none) :
    setOpcode s env = (s.eng, fail .opcodeNotSupported) := by
  simp only [setOpcode, ho]

theorem setOpcode_rebuildFails {tabs : OpcodeTables} (ho : findOpcode env.md s.request.a0 = some tabs)
    (h : RebuildFails s env) : setOpcode s env = (s.eng, fail .badCompactEncoding) := by
  obtain ⟨hn, hw⟩ := h
  simp only [setOpcode, ho, hn, Bool.false_eq_true, if_false, regenerateNative, hw, fail]

end

/-- Settles O28: the opcode is looked up first, then the native buffer is rebuilt, then its opcode bits written. -/
theorem setOpcodeKeepsEveryOtherNativeBit : Obligations.SetOpcodeKeepsEveryOtherNativeBit := by
  refine fun s env hready => ⟨fun w tabs hw hle ht => ?_, fun hno => ?_, fun hfails hle ⟨tabs, ht⟩ => ?_⟩
  · rw [← findOpcode_of_le hle] at ht
    refine ⟨setOpcodeBits w (s.request.a0.setWidth 7), ?_, opcode_setOpcodeBits w _, fun b hb _ => ?_⟩
    · rw [exec_setOpcode hready (setOpcode_supported ht hw), reopcoded_afterRead hw]
      rfl
    · rw [bitAt_setOpcodeBits w _ b (by decide), if_neg (by omega)]
  · have hnone : findOpcode env.md s.request.a0 = none := by
      by_cases hle : s.request.a0.toNat ≤ 127
      · rw [findOpcode_of_le hle]
        exact hno.resolve_left (by omega)
      · exact findOpcode_of_gt (by omega)
    rw [exec_setOpcode hready (setOpcode_unsupported hnone)]
    rfl
  · rw [← findOpcode_of_le hle] at ht
    rw [exec_setOpcode hready (setOpcode_rebuildFails ht hfails)]
    rfl

end Sys2Proof.Proofs
end

section
/-! SUPPORT. The bit-location commands: sorting keeps the ranges, coalescing keeps their bits, and what both
commands answer (R445, R446). -/

namespace Sys2Proof.Proofs

open Sys2Proof Sys2Proof.Machine Sys2Proof.Claims Sys2Proof.Laws

/-! ## Bit ranges (R445) -/

/-- Bit `b` lies in one of the ranges. -/
def InRanges (rs : List (Nat × Nat)) (b : Nat) : Prop := ∃ r ∈ rs, r.1 ≤ b ∧ b ≤ r.2

/-- The ranges are in rising order of their low bits. -/
def Ascending (rs : List (Nat × Nat)) : Prop := rs.Pairwise fun a b => a.1 ≤ b.1

theorem inRanges_cons {r : Nat × Nat} {rs : List (Nat × Nat)} {b : Nat} :
    InRanges (r :: rs) b ↔ (r.1 ≤ b ∧ b ≤ r.2) ∨ InRanges rs b := by
  simp only [InRanges, List.exists_mem_cons_iff]

theorem insertRange_perm (r : Nat × Nat) (rs : List (Nat × Nat)) : (insertRange r rs).Perm (r :: rs) := by
  induction rs with
  | nil => exact .refl _
  | cons q rest ih =>
    simp only [insertRange]
    split
    · exact .refl _
    · exact (ih.cons q).trans (.swap r q rest)

theorem insertRange_ascending (r : Nat × Nat) {rs : List (Nat × Nat)} (h : Ascending rs) :
    Ascending (insertRange r rs) := by
  induction rs with
  | nil => exact List.pairwise_singleton _ r
  | cons q rest ih =>
    obtain ⟨hq, hrest⟩ := List.pairwise_cons.1 h
    simp only [insertRange]
    split
    · next hlt =>
      refine List.pairwise_cons.2 ⟨fun x hx => ?_, h⟩
      rcases List.mem_cons.1 hx with rfl | hx
      · exact hlt.le
      · exact hlt.le.trans (hq x hx)
    · next hge =>
      refine List.pairwise_cons.2 ⟨fun x hx => ?_, ih hrest⟩
      rcases List.mem_cons.1 ((insertRange_perm r rest).mem_iff.1 hx) with rfl | hx
      · exact Nat.not_lt.1 hge
      · exact hq x hx

/-- The insertions one by one give all the ranges, in order. -/
theorem foldl_insertRange (rs : List (Nat × Nat)) {sorted : List (Nat × Nat)} (h : Ascending sorted) :
    Ascending (rs.foldl (fun sorted r => insertRange r sorted) sorted)
      ∧ ∀ r, r ∈ rs.foldl (fun sorted r => insertRange r sorted) sorted ↔ r ∈ rs ∨ r ∈ sorted := by
  induction rs generalizing sorted with
  | nil => exact ⟨h, fun r => by simp⟩
  | cons q rest ih =>
    obtain ⟨hasc, hmem⟩ := ih (insertRange_ascending q h)
    refine ⟨hasc, fun r => ?_⟩
    rw [List.foldl_cons, hmem, (insertRange_perm q sorted).mem_iff, List.mem_cons, List.mem_cons]
    exact or_left_comm.trans or_assoc.symm

theorem sortRanges_ascending (rs : List (Nat × Nat)) : Ascending (sortRanges rs) :=
  (foldl_insertRange rs .nil).1

theorem mem_sortRanges {rs : List (Nat × Nat)} {r : Nat × Nat} : r ∈ sortRanges rs ↔ r ∈ rs :=
  ((foldl_insertRange rs .nil).2 r).trans (or_iff_left List.not_mem_nil)

/-- Growing a range from its low bit on: what comes out starts no earlier, is nonempty, leaves a bit between two
ranges, and holds the bits that went in. -/
theorem coalesceFrom_spec (rs : List (Nat × Nat)) {cur : Nat × Nat} (hasc : Ascending (cur :: rs))
    (hne : ∀ r ∈ cur :: rs, r.1 ≤ r.2) :
    (∀ r ∈ coalesceFrom cur rs, cur.1 ≤ r.1 ∧ r.1 ≤ r.2)
      ∧ (coalesceFrom cur rs).Pairwise (fun a b => a.2 + 1 < b.1)
      ∧ ∀ b, InRanges (coalesceFrom cur rs) b ↔ InRanges (cur :: rs) b := by
  induction rs generalizing cur with
  | nil =>
    refine ⟨fun r hr => ?_, List.pairwise_singleton _ cur, fun b => .rfl⟩
    cases List.mem_singleton.1 hr
    exact ⟨le_rfl, hne cur List.mem_cons_self⟩
  | cons r rest ih =>
    obtain ⟨hcur, hrest⟩ := List.pairwise_cons.1 hasc
    have hlow : cur.1 ≤ r.1 := hcur r List.mem_cons_self
    have hr : r.1 ≤ r.2 := hne r (by simp)
    have hc : cur.1 ≤ cur.2 := hne cur List.mem_cons_self
    simp only [coalesceFrom]
    split
    · next htouch =>
      have hasc' : Ascending ((cur.1, max cur.2 r.2) :: rest) :=
        List.pairwise_cons.2 ⟨fun x hx => hcur x (List.mem_cons_of_mem _ hx), (List.pairwise_cons.1 hrest).2⟩
      have hne' : ∀ x ∈ (cur.1, max cur.2 r.2) :: rest, x.1 ≤ x.2 :=
        List.forall_mem_cons.2 ⟨hc.trans (le_max_left _ _), fun x hx => hne x (by simp [hx])⟩
      obtain ⟨hbounds, hgaps, hbits⟩ := ih hasc' hne'
      refine ⟨hbounds, hgaps, fun b => ?_⟩
      rw [hbits, inRanges_cons, inRanges_cons, inRanges_cons, ← or_assoc]
      exact or_congr_left (by dsimp only; omega)
    · next hgap =>
      obtain ⟨hbounds, hgaps, hbits⟩ := ih hrest fun x hx => hne x (List.mem_cons_of_mem _ hx)
      refine ⟨List.forall_mem_cons.2 ⟨⟨le_rfl, hc⟩, fun x hx => ?_⟩,
        List.pairwise_cons.2 ⟨fun x hx => ?_, hgaps⟩, fun b => ?_⟩
      · exact ⟨hlow.trans (hbounds x hx).1, (hbounds x hx).2⟩
      · exact (Nat.not_le.1 hgap).trans_le (hbounds x hx).1
      · rw [inRanges_cons, hbits, ← inRanges_cons]

theorem coalesce_spec {rs : List (Nat × Nat)} (hasc : Ascending rs) (hne : ∀ r ∈ rs, r.1 ≤ r.2) :
    (∀ r ∈ coalesce rs, r.1 ≤ r.2) ∧ (coalesce rs).Pairwise (fun a b => a.2 + 1 < b.1)
      ∧ ∀ b, InRanges (coalesce rs) b ↔ InRanges rs b := by
  cases rs with
  | nil => exact ⟨nofun, .nil, fun _ => .rfl⟩
  | cons r rest =>
    obtain ⟨hbounds, hgaps, hbits⟩ := coalesceFrom_spec rest hasc hne
    exact ⟨fun x hx => (hbounds x hx).2, hgaps, hbits⟩

/-- The native bit ranges of a list of fragments (R445). -/
def fragRanges (ps : List Fragment) : List (Nat × Nat) :=
  coalesce (sortRanges (ps.map fun p => (p.lowBit, p.highBit)))

/-- The ranges of well-formed fragments hold the bits that the fragments cover. -/
theorem fragRanges_spec {n : Nat} {ps : List Fragment} (hps : ∀ p ∈ ps, fragOk n p = true) :
    (∀ r ∈ fragRanges ps, r.1 ≤ r.2) ∧ (fragRanges ps).Pairwise (fun a b => a.2 + 1 < b.1)
      ∧ ∀ b, InRanges (fragRanges ps) b ↔ ∃ p ∈ ps, covers p b = true := by
  have hne : ∀ r ∈ sortRanges (ps.map fun p => (p.lowBit, p.highBit)), r.1 ≤ r.2 := by
    intro r hr
    obtain ⟨p, hp, rfl⟩ := List.mem_map.1 (mem_sortRanges.1 hr)
    obtain ⟨hle, -⟩ := (fragOk_iff n p).1 (hps p hp)
    exact hle
  obtain ⟨hbounds, hgaps, hbits⟩ := coalesce_spec (sortRanges_ascending _) hne
  refine ⟨hbounds, hgaps, fun b => (hbits b).trans ?_⟩
  simp [InRanges, mem_sortRanges, covers]

theorem rangesOf_fragments {t : Terminal} {ps : List Fragment} (hp : t.place = .fragments ps)
    (hps : ∀ p ∈ ps, fragOk 4 p = true) : rangesOf t = .ok (fragRanges ps) := by
  simp only [rangesOf, hp]
  exact if_pos (List.all_eq_true.2 hps)

theorem rangesOf_fixed {t : Terminal} {v : U64} (hp : t.place = .fixed v) : rangesOf t = .ok [] := by
  simp only [rangesOf, hp]

/-- The ranges of an entry with well-formed fragments, and of a fixed value. -/
theorem rangesOf_spec {t : Terminal} (ht : PlaceOk 4 t) :
    ∃ ranges, rangesOf t = .ok ranges ∧ (∀ r ∈ ranges, r.1 ≤ r.2) ∧ (∀ x, t.place = .fixed x → ranges = [])
      ∧ ranges.Pairwise (fun a b => a.2 + 1 < b.1)
      ∧ ∀ b, InRanges ranges b ↔ ∃ ps p, t.place = .fragments ps ∧ p ∈ ps ∧ covers p b = true := by
  cases hp : t.place with
  | fixed v => exact ⟨[], rangesOf_fixed hp, nofun, fun _ _ => rfl, .nil, fun b => by simp [InRanges]⟩
  | fragments ps =>
    simp only [PlaceOk, hp] at ht
    obtain ⟨hbounds, hgaps, hbits⟩ := fragRanges_spec ht
    exact ⟨fragRanges ps, rangesOf_fragments hp ht, hbounds, nofun, hgaps, fun b => (hbits b).trans (by simp)⟩

/-! ## The two commands (R445, R446) -/

section
variable {s : State} {env : Env}

theorem locateField_native {w : Vector Word 4} {f : FieldId} {t : Terminal} {ranges : List (Nat × Nat)}
    (hw : Readable s env w) (hf : NativeField env w f t) (hr : rangesOf t = .ok ranges) :
    locateField env s.eng f = (afterRead s w, .ok { ranges := ranges }) := by
  obtain ⟨hres, -⟩ := hf
  obtain ⟨hnv, hnw⟩ := afterRead_native hw
  have hres' : resolve (nativeCtx env w) env.budget f = .ok (.found t) := hres
  simp only [locateField, refresh_readable hw, locateIn, hnv, if_true, hnw, hres', hr]

theorem locateField_noNativeRead {f : FieldId} {e : Engine} (h : NoNativeRead s env f e) :
    locateField env s.eng f = (e, fail .invalidField) := by
  obtain ⟨hrefresh, -, -, habsent⟩ := noNativeRead_leaves h
  cases hn : e.nv with
  | false => simp only [locateField, hrefresh, locateIn, hn, Bool.false_eq_true, if_false]
  | true => simp only [locateField, hrefresh, locateIn, hn, if_true, habsent hn]

/-- Both commands of a set-up engine end as the location of the field does. -/
theorem exec_bitLocation (h : Ready s env) {f : BitVec 16} {e : Engine} {out : Res Answer}
    (hrun : locateField env s.eng f.toNat = (e, out)) :
    exec (.queryFieldBitLocation f) s = .next (finish s e out)
      ∧ exec (.printFieldBitLocation f) s = .next (finish s e out) := by
  obtain ⟨hi, he⟩ := h
  have hend : command s (fun env => locateField env s.eng f.toNat) = finish s e out := by
    rw [command_ready hi he, hrun]
  exact ⟨congrArg Host.Outcome.next hend, congrArg Host.Outcome.next hend⟩

end

/-- Settles O57: the location finds the entry a read would find, and its coalesced ranges hold its bits. -/
theorem bitLocationsCoverTheFieldsBits : Obligations.BitLocationsCoverTheFieldsBits := by
  refine fun s env f hready =>
    ⟨fun w t hw hf => ?_, fun e hno => exec_bitLocation hready (locateField_noNativeRead hno)⟩
  obtain ⟨ranges, hranges, hspec⟩ := rangesOf_spec hf.2
  obtain ⟨hquery, hprint⟩ := exec_bitLocation hready (locateField_native hw hf hranges)
  exact ⟨ranges, hquery, hprint, hspec⟩

end Sys2Proof.Proofs
end

section
/-! SUPPORT. A response that is an error carries only its code (R502), the validation-mode commands outside
validation mode (R520), and a machine without pending commands (R533, R550). -/

namespace Sys2Proof.Proofs

open Sys2Proof Sys2Proof.Machine Sys2Proof.Claims Sys2Proof.Laws

/-! ## Errors (R502) -/

/-- Only an ending with `Success` answers more than its code. -/
theorem Ending.onlyCode {s t : State} {load : Bool} {c : ResultCode} {v : U64} {bytes : List Byte}
    {ranges : List (Nat × Nat)} (h : Ending s load t) (ha : answered s t (.done c v bytes ranges))
    (hc : c ≠ .success) : v = 0 ∧ bytes = [] ∧ ranges = [] := by
  cases h with
  | completes e a => cases answered_unique ha rfl; exact absurd rfl hc
  | refuses why => cases answered_unique ha rfl
  | raisesInternal => cases answered_unique ha rfl; exact ⟨rfl, rfl, rfl⟩
  | raises e c' => cases answered_unique ha rfl; exact ⟨rfl, rfl, rfl⟩
  | failsLoad c' => cases answered_unique ha rfl; exact ⟨rfl, rfl, rfl⟩

/-- Settles O13: every instruction ends in one of the ways of `Ending`. -/
theorem errorsCarryOnlyTheirCode : Obligations.ErrorsCarryOnlyTheirCode :=
  fun _ _ _ _ _ _ _ ht ha hc => (ending_of_exec ht).onlyCode ha hc

/-! ## Validation mode (R520) -/

theorem withForms_notInThisBuild {s : State} (hv : s.validationMode = false) (env : Env)
    (reply : Target Config.compactWords → Res Answer) :
    withForms s env reply = (s.eng, .error (.refuse .notInThisBuild)) := by
  simp only [withForms, hv, Bool.false_eq_true, if_false]

/-- A set-up instance has the tables it needs (R44, R45). -/
theorem ready_of_statusInv {s : State} (hs : s.statusInv) (hi : s.eng.init = true) : ∃ env, Ready s env := by
  obtain ⟨-, -, -, henv⟩ := hs
  obtain ⟨env, he⟩ := Option.isSome_iff_exists.1 (henv hi)
  exact ⟨env, hi, he⟩

/-- Settles O56: an instance that is not set up refuses as such before it looks at the mode (R41). -/
theorem validationCommandsNeedValidationMode : Obligations.ValidationCommandsNeedValidationMode := by
  intro s hs hv
  cases hi : s.eng.init with
  | false =>
    exact ⟨.uninitialised, uninitialisedInstancesRefuse _ s rfl hi, uninitialisedInstancesRefuse _ s rfl hi, nofun⟩
  | true =>
    obtain ⟨env, hready⟩ := ready_of_statusInv hs hi
    exact ⟨.notInThisBuild, exec_countCompacted hready (withForms_notInThisBuild hv env _),
      exec_retrieve hready (withForms_notInThisBuild hv env _), fun _ => rfl⟩

/-! ## A machine without pending commands (R533) -/

theorem fetch_of_usedUp {s : State} (h : s.requests.length ≤ s.index) : s.fetch = none := by
  simp only [State.fetch, State.pending, List.getElem?_eq_none h, Option.map_none]

theorem step_of_usedUp {s : State} (h : s.requests.length ≤ s.index) : step s = .next s := by
  simp only [step, fetch_of_usedUp h]

/-- Settles O1: at power-on the command list is empty, so it is used up. -/
theorem powerOnIsUninitialisedAndIdle : Obligations.PowerOnIsUninitialisedAndIdle :=
  ⟨⟨rfl, rfl, rfl⟩, step_of_usedUp (Nat.le_refl 0), fun _ => step_of_usedUp⟩

end Sys2Proof.Proofs
end
